-- ==== Sys2Proof/Word.lean ====
section
/-! DEFINITION. The word types of the VWC (10_state.md rules R20, R22, R23; 30_encoding.md rule R110). -/

namespace Sys2Proof

/-- A byte of BUF or PAY (10_state.md rules R22, R23). -/
abbrev Byte := BitVec 8

/-- The 16-bit command word CMD16 (30_encoding.md rule R110). -/
abbrev CmdWord := BitVec 16

/-- An operand `a0` or `a1`: an unsigned 64-bit number (10_state.md rule R20). -/
abbrev Operand := BitVec 64

end Sys2Proof
end

