-- ==== Sys2Proof/Syntax.lean ====
section
/-! DEFINITION. Commands: the transaction (30_encoding.md rule R110), the 32 commands of the opcode map (rule R114), the
ten frame kinds (rule R82) and the pseudo-instructions (rule R118). -/

namespace Sys2Proof

/-- A command as the host issues it: the word and its two operands (30_encoding.md rule R110). -/
structure Transaction where
  cmd : CmdWord
  a0 : Operand
  a1 : Operand
deriving DecidableEq, Repr

/-- The 32 commands of 30_encoding.md rule R114, in the table's order. A constructor holds W (`w`, a byte count, rule
R111), S (`special`, rule R112) and the operands its row uses; an operand its row shows as "-" is ignored (rule R116,
log entry 8). -/
inductive Instr where
  /-- VIEW, 0x01, rule R130. -/
  | view (base len : Operand)
  /-- FT.SETKIND, 0x10, rule R140. -/
  | ftSetKind (kind : Operand)
  /-- FT.KIND, 0x11, rule R141. -/
  | ftKind
  /-- FT.SETFLAGS, 0x12, rule R142. -/
  | ftSetFlags (bits : Operand)
  /-- FT.FLAGS, 0x13, rule R143. -/
  | ftFlags
  /-- FT.LEN, 0x14, rule R144. -/
  | ftLen
  /-- SF.SETSID, 0x20, rule R151. -/
  | sfSetSid (w : Nat) (sid : Operand)
  /-- SF.SID, 0x21, rule R152. -/
  | sfSid
  /-- SF.ADDOFF, 0x22, rule R153. -/
  | sfAddOff (w : Nat) (off : Operand)
  /-- SF.OFF, 0x23, rule R154. -/
  | sfOff
  /-- SF.SETDATA, 0x24, rule R155. -/
  | sfSetData (n : Operand)
  /-- SF.DATA, 0x25, rule R156. -/
  | sfData
  /-- SF.LEN, 0x26, rule R157. -/
  | sfLen
  /-- PH.SETFLAGS, 0x30, rule R171. -/
  | phSetFlags (bits : Operand)
  /-- PH.FLAGS, 0x31, rule R172. -/
  | phFlags
  /-- PH.SETCID, 0x32, rule R173. -/
  | phSetCid (w : Nat) (cid : Operand)
  /-- PH.CID, 0x33, rule R174. -/
  | phCid
  /-- PH.SETVER, 0x34, rule R175. -/
  | phSetVer (ver : Operand)
  /-- PH.VER, 0x35, rule R176. -/
  | phVer
  /-- PH.SETPN, 0x36, rule R177. -/
  | phSetPn (w : Nat) (special : Bool) (pn : Operand)
  /-- PH.PN, 0x37, rule R178. -/
  | phPn (special : Bool)
  /-- PH.LEN, 0x38, rule R179. -/
  | phLen (special : Bool)
  /-- PR.SETCID, 0x40, 44_packet_kinds.md rule R191. -/
  | prSetCid (cid : Operand)
  /-- PR.LEN, 0x42, rule R192. -/
  | prLen
  /-- RP.SETDATA, 0x50, rule R195. -/
  | rpSetData (n : Operand)
  /-- RP.DATA, 0x51, rule R196. -/
  | rpData
  /-- RP.LEN, 0x52, rule R197. -/
  | rpLen
  /-- VN.SETCID, 0x60, rule R200. -/
  | vnSetCid (cid : Operand)
  /-- VN.SETVER, 0x62, rule R201. -/
  | vnSetVer (index ver : Operand)
  /-- VN.VER, 0x63, rule R202. -/
  | vnVer (index : Operand)
  /-- VN.COUNT, 0x64, rule R204. -/
  | vnCount
  /-- VN.LEN, 0x65, rule R203. -/
  | vnLen
deriving DecidableEq, Repr

/-- The ten frame kinds (30_encoding.md rules R81, R82). -/
inductive FrameKind where
  | padding
  | resetStream
  | connectionClose
  | goAway
  | windowUpdate
  | blocked
  | stopWaiting
  | ping
  | acknowledge
  | stream
deriving DecidableEq, Repr

/-- The pseudo-instructions of 30_encoding.md table R118, in its order. -/
inductive Pseudo where
  | sfInit
  | sfNoOff
  | prCid
  | vnCid
  | vnHLen
  | vnSetVers (versions : List Operand)
  | rpSetCid (w : Nat) (cid : Operand)
  | rpCid
  | rpSetVer (ver : Operand)
  | rpVer
  | rpSetPn (w : Nat) (pn : Operand)
  | rpPn
  | rpHLen
deriving DecidableEq, Repr

end Sys2Proof
end

