-- ==== Sys2Proof/WellFormed.lean ====
section
/-! DEFINITION. Which terms of `Instr` a command word can hold: the W field has four bits (30_encoding.md rule R110).
Every other field has the type of its bits. -/

namespace Sys2Proof

/-- W fits its four bits, 0 to 15 (30_encoding.md rule R110). -/
abbrev FitsWidthField (w : Nat) : Prop := w < 16

/-- The command can be written as a command word (30_encoding.md rules R110, R111). A width that fits the field and is
no width of the command's field is well formed: it decodes and fails with UnsupportedWidth (rule R111). -/
def Instr.wellFormed : Instr → Bool
  | .sfSetSid w _ => decide (FitsWidthField w)
  | .sfAddOff w _ => decide (FitsWidthField w)
  | .phSetCid w _ => decide (FitsWidthField w)
  | .phSetPn w _ _ => decide (FitsWidthField w)
  | .view _ _ | .ftSetKind _ | .ftKind | .ftSetFlags _ | .ftFlags | .ftLen | .sfSid | .sfOff | .sfSetData _
  | .sfData | .sfLen | .phSetFlags _ | .phFlags | .phCid | .phSetVer _ | .phVer | .phPn _ | .phLen _
  | .prSetCid _ | .prLen | .rpSetData _ | .rpData | .rpLen | .vnSetCid _ | .vnSetVer _ _ | .vnVer _
  | .vnCount | .vnLen => true

/-- `Instr.wellFormed` as a proposition. -/
abbrev Instr.WellFormed (i : Instr) : Prop := i.wellFormed = true

end Sys2Proof
end

