-- ==== Sys2Proof/Decode.lean ====
section
/-! DEFINITION. Decoding a command (30_encoding.md rules R110 to R116): total on every transaction, rejecting by name; then
the encoder, from the same table R114. -/

namespace Sys2Proof

/-- Why a command word selects no command (30_encoding.md rule R113). All four are the one failure IllegalCommand;
the spec gives the names no record (60_exceptions.md rule R219), so the distinction is never visible to the host. -/
inductive Reject where
  /-- cmd[15:13] is not 0. -/
  | reservedBits
  /-- OP is not in table R114 (rule R115). -/
  | reservedOpcode
  /-- W is not 0 on a command that takes no width (rule R111). -/
  | widthNotTaken
  /-- S is 1 on a command that takes no special mode (rule R112). -/
  | specialNotTaken
deriving DecidableEq, Repr

/-- OP, bits [7:0] (30_encoding.md table R110). -/
def opField (cmd : CmdWord) : Nat := cmd.toNat % 256

/-- W, bits [11:8] (30_encoding.md table R110). -/
def wField (cmd : CmdWord) : Nat := cmd.toNat / 256 % 16

/-- S, bit [12] (30_encoding.md table R110). -/
def sField (cmd : CmdWord) : Bool := cmd.toNat / 4096 % 2 == 1

/-- Bits [15:13], reserved (30_encoding.md table R110). -/
def zeroField (cmd : CmdWord) : Nat := cmd.toNat / 8192

/-- A row of the opcode map (30_encoding.md table R114). -/
structure OpcodeRow where
  op : Nat
  takesW : Bool
  takesS : Bool
  /-- The command, from W, S, a0 and a1. -/
  build : Nat → Bool → Operand → Operand → Instr

/-- The opcode map, table R114 of 30_encoding.md, row by row. -/
def opcodeMap : List OpcodeRow := [
  ⟨0x01, false, false, fun _ _ a0 a1 => .view a0 a1⟩,
  ⟨0x10, false, false, fun _ _ a0 _ => .ftSetKind a0⟩,
  ⟨0x11, false, false, fun _ _ _ _ => .ftKind⟩,
  ⟨0x12, false, false, fun _ _ a0 _ => .ftSetFlags a0⟩,
  ⟨0x13, false, false, fun _ _ _ _ => .ftFlags⟩,
  ⟨0x14, false, false, fun _ _ _ _ => .ftLen⟩,
  ⟨0x20, true, false, fun w _ a0 _ => .sfSetSid w a0⟩,
  ⟨0x21, false, false, fun _ _ _ _ => .sfSid⟩,
  ⟨0x22, true, false, fun w _ a0 _ => .sfAddOff w a0⟩,
  ⟨0x23, false, false, fun _ _ _ _ => .sfOff⟩,
  ⟨0x24, false, false, fun _ _ a0 _ => .sfSetData a0⟩,
  ⟨0x25, false, false, fun _ _ _ _ => .sfData⟩,
  ⟨0x26, false, false, fun _ _ _ _ => .sfLen⟩,
  ⟨0x30, false, false, fun _ _ a0 _ => .phSetFlags a0⟩,
  ⟨0x31, false, false, fun _ _ _ _ => .phFlags⟩,
  ⟨0x32, true, false, fun w _ a0 _ => .phSetCid w a0⟩,
  ⟨0x33, false, false, fun _ _ _ _ => .phCid⟩,
  ⟨0x34, false, false, fun _ _ a0 _ => .phSetVer a0⟩,
  ⟨0x35, false, false, fun _ _ _ _ => .phVer⟩,
  ⟨0x36, true, true, fun w s a0 _ => .phSetPn w s a0⟩,
  ⟨0x37, false, true, fun _ s _ _ => .phPn s⟩,
  ⟨0x38, false, true, fun _ s _ _ => .phLen s⟩,
  ⟨0x40, false, false, fun _ _ a0 _ => .prSetCid a0⟩,
  ⟨0x42, false, false, fun _ _ _ _ => .prLen⟩,
  ⟨0x50, false, false, fun _ _ a0 _ => .rpSetData a0⟩,
  ⟨0x51, false, false, fun _ _ _ _ => .rpData⟩,
  ⟨0x52, false, false, fun _ _ _ _ => .rpLen⟩,
  ⟨0x60, false, false, fun _ _ a0 _ => .vnSetCid a0⟩,
  ⟨0x62, false, false, fun _ _ a0 a1 => .vnSetVer a0 a1⟩,
  ⟨0x63, false, false, fun _ _ a0 _ => .vnVer a0⟩,
  ⟨0x64, false, false, fun _ _ _ _ => .vnCount⟩,
  ⟨0x65, false, false, fun _ _ _ _ => .vnLen⟩]

/-- Decoding, total and strict (30_encoding.md rule R113). -/
def decode (t : Transaction) : Except Reject Instr :=
  if zeroField t.cmd ≠ 0 then .error .reservedBits
  else
    match opcodeMap.find? (fun r => r.op == opField t.cmd) with
    | none => .error .reservedOpcode
    | some r =>
      if wField t.cmd ≠ 0 ∧ r.takesW = false then .error .widthNotTaken
      else if sField t.cmd = true ∧ r.takesS = false then .error .specialNotTaken
      else .ok (r.build (wField t.cmd) (sField t.cmd) t.a0 t.a1)

/-- cmd = OP + 256 * W + 4096 * S (30_encoding.md rule R110). -/
def commandWord (op w : Nat) (special : Bool) : CmdWord :=
  BitVec.ofNat 16 (op + 256 * w + if special then 4096 else 0)

/-- The transaction of a command; an operand the command ignores is written as 0 (30_encoding.md rules R110, R114,
R117). -/
def encode : Instr → Transaction
  | .view base len => ⟨commandWord 0x01 0 false, base, len⟩
  | .ftSetKind kind => ⟨commandWord 0x10 0 false, kind, 0⟩
  | .ftKind => ⟨commandWord 0x11 0 false, 0, 0⟩
  | .ftSetFlags bits => ⟨commandWord 0x12 0 false, bits, 0⟩
  | .ftFlags => ⟨commandWord 0x13 0 false, 0, 0⟩
  | .ftLen => ⟨commandWord 0x14 0 false, 0, 0⟩
  | .sfSetSid w sid => ⟨commandWord 0x20 w false, sid, 0⟩
  | .sfSid => ⟨commandWord 0x21 0 false, 0, 0⟩
  | .sfAddOff w off => ⟨commandWord 0x22 w false, off, 0⟩
  | .sfOff => ⟨commandWord 0x23 0 false, 0, 0⟩
  | .sfSetData n => ⟨commandWord 0x24 0 false, n, 0⟩
  | .sfData => ⟨commandWord 0x25 0 false, 0, 0⟩
  | .sfLen => ⟨commandWord 0x26 0 false, 0, 0⟩
  | .phSetFlags bits => ⟨commandWord 0x30 0 false, bits, 0⟩
  | .phFlags => ⟨commandWord 0x31 0 false, 0, 0⟩
  | .phSetCid w cid => ⟨commandWord 0x32 w false, cid, 0⟩
  | .phCid => ⟨commandWord 0x33 0 false, 0, 0⟩
  | .phSetVer ver => ⟨commandWord 0x34 0 false, ver, 0⟩
  | .phVer => ⟨commandWord 0x35 0 false, 0, 0⟩
  | .phSetPn w special pn => ⟨commandWord 0x36 w special, pn, 0⟩
  | .phPn special => ⟨commandWord 0x37 0 special, 0, 0⟩
  | .phLen special => ⟨commandWord 0x38 0 special, 0, 0⟩
  | .prSetCid cid => ⟨commandWord 0x40 0 false, cid, 0⟩
  | .prLen => ⟨commandWord 0x42 0 false, 0, 0⟩
  | .rpSetData n => ⟨commandWord 0x50 0 false, n, 0⟩
  | .rpData => ⟨commandWord 0x51 0 false, 0, 0⟩
  | .rpLen => ⟨commandWord 0x52 0 false, 0, 0⟩
  | .vnSetCid cid => ⟨commandWord 0x60 0 false, cid, 0⟩
  | .vnSetVer index ver => ⟨commandWord 0x62 0 false, index, ver⟩
  | .vnVer index => ⟨commandWord 0x63 0 false, index, 0⟩
  | .vnCount => ⟨commandWord 0x64 0 false, 0, 0⟩
  | .vnLen => ⟨commandWord 0x65 0 false, 0, 0⟩

/-- The transaction whose bits are the low `nbits` bits of `w`: the command word in bits 15..0, a0 in bits 79..16, a1 in
bits 143..80. The spec lays the three out nowhere (10_state.md rule R29): DESIGN CHOICE, log entry 7, safe. -/
def Transaction.ofBits (nbits w : Nat) : Transaction :=
  let v := w % 2 ^ nbits
  ⟨BitVec.ofNat 16 v, BitVec.ofNat 64 (v / 2 ^ 16), BitVec.ofNat 64 (v / 2 ^ 80)⟩

/-- The command the decoder reads from an instruction whose bits are `w`, numbered as opcode_table.json numbers them. -/
def decodeTableWord (nbits w : Nat) : Option Instr :=
  (decode (Transaction.ofBits nbits w)).toOption

end Sys2Proof
end

