-- ==== Sys2Proof/Config.lean ====
section
/-! DEFINITION. What an implementation fixes (00_scope.md rule R4) and the values the spec leaves free
(10_state.md rule R30). -/

namespace Sys2Proof

/-- The two admissible values of the parameter CID_CODE (00_scope.md rule R4): `standard` is the spec's default
(1 byte = 0b01, 4 bytes = 0b11), `swapped` the only other bijection that keeps CID_CODE(8) = 0b10 and CID_CODE(0) = 0b00. -/
inductive CidMap where
  | standard
  | swapped
deriving DecidableEq, Repr

/-- The parameters of the VWC (00_scope.md rule R4), fixed for the life of the model (10_state.md rule R29). -/
structure Params where
  /-- BUF_CAP, the number of bytes of BUF. -/
  bufCap : Nat
  /-- PAY_CAP, the number of bytes of PAY. -/
  payCap : Nat
  /-- CID_CODE, the map from connection id width to flag code. -/
  cidMap : CidMap
deriving DecidableEq, Repr

/-- The admissible parameters: 1 <= BUF_CAP < 2^32 and 0 <= PAY_CAP < 2^32 (00_scope.md rule R4). -/
abbrev Params.Valid (p : Params) : Prop :=
  1 ≤ p.bufCap ∧ p.bufCap < 2 ^ 32 ∧ p.payCap < 2 ^ 32

/-- The sizes the spec suggests and its default CID_CODE (00_scope.md rule R4).
DESIGN CHOICE (log entry 1), unsafe: the spec leaves the sizes OPEN. -/
def Params.suggested : Params := ⟨65536, 65536, .standard⟩

/-- What byte `addr` of BUF holds in reset epoch `epoch` until something writes it: any value
(10_state.md rule R30, 93_implementation_defined.md U8). A free value: it has no body. Log entry 2, safe. -/
opaque Config.freeBufByte (epoch addr : Nat) : Byte

/-- What byte `addr` of PAY holds in reset epoch `epoch` until the host writes it: any value
(10_state.md rule R30, 93_implementation_defined.md U8). A free value: it has no body. Log entry 2, safe. -/
opaque Config.freePayByte (epoch addr : Nat) : Byte

end Sys2Proof
end

