-- ==== Sys2Proof/Machine/State.lean ====
section
/-! DEFINITION. The state of the VWC (10_state.md rules R20 to R30), the host's actions (70_reset_and_hazards.md rule
R252), the six failures (60_exceptions.md rule R210), and what stops the model. -/

namespace Sys2Proof.Machine

/-- A byte memory: the cells that something has written since the last reset, addresses strictly rising. An address
that is not listed holds an arbitrary byte (10_state.md rule R30; log entry 2). -/
abbrev Memory := List Host.Cell

/-- What the host can read between commands (00_scope.md rule R10, 10_state.md rules R22, R24, R25, R27; 20_memory.md rules
R58, R61). That the host can read a byte of PAY is DEDUCED from rules R10 and R58, which say so: the lists of host actions in
rule R61 and in 70_reset_and_hazards.md rule R252 name no such read. Log entry 17, safe. -/
inductive HostRead where
  | buf (addr : Nat)
  | pay (addr : Nat)
  | vbase
  | vlen
  | status
  | resVal
  | resW
  | resPresent
  | resOff
  | resLen
deriving DecidableEq, Repr

/-- One action of the host (70_reset_and_hazards.md rule R252): it issues a command, writes a byte of BUF or PAY, reads a
byte of BUF or PAY (log entry 17) or a register, or resets the VWC. -/
inductive HostAction where
  | command (t : Transaction)
  | writeBuf (addr : Nat) (b : Byte)
  | writePay (addr : Nat) (b : Byte)
  | read (what : HostRead)
  | reset
deriving DecidableEq, Repr

/-- The six failures of a command (60_exceptions.md rule R210). They are results of a command, not stops of the
model: a command that fails ends in a next state (rule R212). -/
inductive Failure where
  | bufferTooSmall
  | unsupportedWidth
  | unrecognizedFlagCombination
  | kindMismatch
  | illegalCommand
  | operandRange
deriving DecidableEq, Repr

/-- Why the model stops. Every constructor is an access to an address that 10_state.md rules R22, R23 say does not
exist; no command raises one in a state a run reaches (rule R24). Log entry 5. -/
inductive Fault where
  /-- The host accesses BUF at an address >= BUF_CAP (10_state.md rule R22). Raised by a host action. Safe. -/
  | hostBufAddress
  /-- The host accesses PAY at an address >= PAY_CAP (10_state.md rule R23). Raised by a host action. Safe. -/
  | hostPayAddress
  /-- A command accesses BUF at an address >= BUF_CAP: only in a state that breaks the invariant
  VBASE + VLEN <= BUF_CAP of 10_state.md rule R24, which no run reaches. Raised by the view accesses. Safe. -/
  | viewOutsideBuf
deriving DecidableEq, Repr

/-- Why the model refuses an instruction. -/
inductive Refusal where
  /-- The instruction named has no meaning in the model. Nothing raises it: every command has a meaning. Safe. -/
  | notModelled (mnemonic : String)
deriving DecidableEq, Repr

/-- How a check or an access of a command can end it early: a failure the spec names, or a stop of the model. -/
inductive Stop where
  | failure (f : Failure)
  | fault (f : Fault)
deriving DecidableEq, Repr

/-- A part of a command: a value, or the end of the command (`raise`, 00_scope.md rule R8). -/
abbrev Comp (α : Type) := Except Stop α

/-- The tuple of the five result registers that a getter produces (00_scope.md rule R8, 10_state.md rule R27). -/
structure Result where
  val : Nat
  w : Nat
  present : Bool
  off : Nat
  len : Nat
deriving DecidableEq, Repr

/-- The state. The first three fields are the model's own: `cfg`, the parameters, which no step changes (log entry 1);
`host`, the host's remaining actions (log entry 3); `epoch`, the count of resets, the index of the free bytes (log
entry 2). The others are the spec's. -/
structure State where
  cfg : Params
  host : List HostAction
  epoch : Nat
  /-- BUF (10_state.md rule R22). -/
  buf : Memory
  /-- PAY (10_state.md rule R23). -/
  pay : Memory
  /-- VBASE (10_state.md rule R24). -/
  vbase : BitVec 32
  /-- VLEN (10_state.md rule R24). -/
  vlen : BitVec 32
  /-- STATUS (10_state.md rule R25). -/
  status : BitVec 8
  /-- RES_VAL (10_state.md rule R27). -/
  resVal : BitVec 64
  /-- RES_W (10_state.md rule R27). -/
  resW : BitVec 4
  /-- RES_PRESENT (10_state.md rule R27). -/
  resPresent : Bool
  /-- RES_OFF (10_state.md rule R27). -/
  resOff : BitVec 32
  /-- RES_LEN (10_state.md rule R27). -/
  resLen : BitVec 32
deriving DecidableEq, Repr

/-- The VWC with parameters `p` right after its first reset (10_state.md rule R30): every register 0, no byte of BUF
or PAY known. -/
def State.resetWith (p : Params) : State where
  cfg := p
  host := []
  epoch := 0
  buf := []
  pay := []
  vbase := 0
  vlen := 0
  status := 0x00
  resVal := 0
  resW := 0
  resPresent := false
  resOff := 0
  resLen := 0

/-- The machine right after reset (10_state.md rule R30), with the sizes the spec suggests (00_scope.md rule R4; log entry 1). -/
def State.reset : State := State.resetWith Params.suggested

end Sys2Proof.Machine
end

