-- ==== Sys2Proof/Machine/Flags.lean ====
section
/-! DEFINITION. The flag computations: STATUS (10_state.md rule R25), the frame type byte (30_encoding.md rules R81 to
R91) and the public flags byte (rules R92 to R99). -/

namespace Sys2Proof.Machine

/-! ## STATUS -/

/-- The code of a failure (60_exceptions.md table R210). -/
def Failure.code : Failure → BitVec 8
  | .bufferTooSmall => 1
  | .unsupportedWidth => 2
  | .unrecognizedFlagCombination => 3
  | .kindMismatch => 4
  | .illegalCommand => 5
  | .operandRange => 6

/-- STATUS after success: CODE 0, FAULT kept, bits [6:3] 0 (10_state.md rule R25; log entry 9). -/
def statusOnSuccess (status : BitVec 8) : BitVec 8 := status &&& 0x80

/-- STATUS after a failure: FAULT 1, CODE the failure's, bits [6:3] 0 (10_state.md rule R25, 60_exceptions.md rule R212). -/
def statusOnFailure (f : Failure) : BitVec 8 := 0x80 ||| f.code

/-- STATUS.CODE, bits [2:0] (10_state.md rule R25). -/
def statusCode (status : BitVec 8) : Nat := status.toNat % 8

/-- STATUS.FAULT, bit [7] (10_state.md rule R25). -/
def statusFault (status : BitVec 8) : Bool := status.getLsbD 7

/-! ## Bit fields of byte 0 -/

/-- Replace the bits of `mask` in `b` by those of `v`, keep every other bit (92_eei_decisions.md D15). -/
def setField (b mask v : Byte) : Byte := (b &&& ~~~mask) ||| v

/-! ## The frame type byte -/

/-- The Stream marker, bit 7 (30_encoding.md table R85). -/
def isStream (b : Byte) : Bool := b.getLsbD 7

/-- The Acknowledge marker, bit 6 of a byte without the Stream marker (30_encoding.md rules R81, R83). -/
def isAcknowledge (b : Byte) : Bool := !b.getLsbD 7 && b.getLsbD 6

/-- The mask of a kind's flag bits: MaskStream, MaskAcknowledge, none (30_encoding.md table R81). -/
def flagMask (b : Byte) : Option Byte :=
  if isStream b then some 0x7f else if isAcknowledge b then some 0x3f else none

/-- The kind code of a type byte: Stream first, then Acknowledge, then the raw byte (30_encoding.md rule R83). -/
def kindCodeOf (b : Byte) : Byte :=
  if isStream b then 0x80 else if isAcknowledge b then 0x40 else b

/-- The Stream flags `f`, the low seven bits of the type byte (30_encoding.md rule R86). -/
def streamFlags (b : Byte) : Byte := b &&& 0x7f

/-- StreamIDLen, bits [1:0] (30_encoding.md table R85). -/
def sidCode (f : Byte) : Nat := f.toNat % 4

/-- OffsetLen, bits [4:2] (30_encoding.md table R85). -/
def offCode (f : Byte) : Nat := f.toNat / 4 % 8

/-- DataLen, bit 5 (30_encoding.md rule R87). -/
def hasData (f : Byte) : Bool := f.getLsbD 5

/-- `sid_w` (30_encoding.md rule R90). -/
def sidWidth (f : Byte) : Comp Nat :=
  if sidCode f = 0b10 then .error (.failure .unrecognizedFlagCombination) else .ok (sidCode f + 1)

/-- `off_w` (30_encoding.md rule R91). -/
def offWidth (f : Byte) : Comp Nat :=
  if offCode f = 0 then .ok 0
  else if offCode f = 1 ∨ offCode f = 3 ∨ offCode f = 7 then .ok (offCode f + 1)
  else .error (.failure .unrecognizedFlagCombination)

/-- The type byte with StreamIDLen set for width `w`, code = width - 1 (30_encoding.md rule R90, 42_streamframe.md
rule R151). -/
def withSidWidth (b : Byte) (w : Nat) : Byte := setField b 0x03 (BitVec.ofNat 8 (w - 1))

/-- The type byte with OffsetLen set for width `w` (30_encoding.md rule R91, 42_streamframe.md rule R153). -/
def withOffWidth (b : Byte) (w : Nat) : Byte :=
  setField b 0x1c (BitVec.ofNat 8 (if w = 0 then 0 else w - 1) <<< 2)

/-! ## The public flags byte -/

/-- The Version flag (30_encoding.md table R92). -/
def versionFlag : Byte := 0x01

/-- The PublicReset flag (30_encoding.md rule R93). -/
def publicResetFlag : Byte := 0x02

/-- Bit 0, Version (30_encoding.md table R92). -/
def hasVersion (p : Byte) : Bool := p.getLsbD 0

/-- ConnectionIDLen, bits [3:2] (30_encoding.md table R92). -/
def cidLenCode (p : Byte) : Nat := p.toNat / 4 % 4

/-- PacketNumberLen, bits [5:4] (30_encoding.md table R92). -/
def pnLenCode (p : Byte) : Nat := p.toNat / 16 % 4

/-- CID_CODE, the flag code of a connection id width 0, 1, 4 or 8 (00_scope.md rule R4, 30_encoding.md table R96). -/
def cidCode : CidMap → Nat → Nat
  | .standard, w => if w = 1 then 0b01 else if w = 8 then 0b10 else if w = 4 then 0b11 else 0b00
  | .swapped, w => if w = 4 then 0b01 else if w = 8 then 0b10 else if w = 1 then 0b11 else 0b00

/-- `cid_w`: the width whose code is p[3:2] (30_encoding.md rule R96). -/
def cidWidth (m : CidMap) (p : Byte) : Nat :=
  if cidLenCode p = cidCode m 1 then 1
  else if cidLenCode p = cidCode m 4 then 4
  else if cidLenCode p = cidCode m 8 then 8
  else 0

/-- `ver_w` (30_encoding.md rule R97). -/
def verWidth (p : Byte) (special : Bool) : Nat :=
  if special then 0 else if hasVersion p then 4 else 0

/-- `pn_w` (30_encoding.md rule R98). -/
def pnWidth (p : Byte) (special : Bool) : Nat :=
  if pnLenCode p = 0 then (if special then 0 else 1) else 2 * pnLenCode p

/-- `hdr_len` (30_encoding.md rule R99). -/
def hdrLen (m : CidMap) (p : Byte) (special : Bool) : Nat :=
  1 + cidWidth m p + verWidth p special + pnWidth p special

/-- The flags byte with ConnectionIDLen set for width `w` (43_packetheader.md rule R173). -/
def withCidWidth (m : CidMap) (p : Byte) (w : Nat) : Byte :=
  setField p 0x0c (BitVec.ofNat 8 (cidCode m w) <<< 2)

/-- The flags byte with PacketNumberLen set for width `w` (43_packetheader.md rule R177). -/
def withPnWidth (p : Byte) (w : Nat) : Byte :=
  setField p 0x30 (BitVec.ofNat 8 (if w = 1 then 0 else w / 2) <<< 4)

end Sys2Proof.Machine
end

