-- ==== Sys2Proof/Machine/Operands.lean ====
section
/-! DEFINITION. The operand forms and their checks, steps 2 and 3 of 60_exceptions.md rule R213: they use the command
transaction and the parameters only (30_encoding.md rules R111, R116). -/

namespace Sys2Proof.Machine

/-- `if not c then raise f` (00_scope.md rule R8). -/
def require (c : Bool) (f : Failure) : Comp Unit :=
  if c then .ok () else .error (.failure f)

/-- The widths of the four commands that take one (30_encoding.md rule R111, table R114). -/
def sidWidths : List Nat := [1, 2, 4]

/-- See `sidWidths`. -/
def offWidths : List Nat := [0, 2, 4, 8]

/-- See `sidWidths`. -/
def cidWidths : List Nat := [1, 4, 8]

/-- The widths of PH.SETPN: in special mode the 1-byte width is refused (43_packetheader.md rule R177). -/
def pnWidths (special : Bool) : List Nat := if special then [2, 4, 6] else [1, 2, 4, 6]

/-- W is one of the field's widths, else UnsupportedWidth (30_encoding.md rule R111). -/
def requireWidth (w : Nat) (widths : List Nat) : Comp Unit :=
  require (widths.contains w) .unsupportedWidth

/-- a < 2^(8W), else OperandRange (30_encoding.md rule R116). -/
def requireFits (a : Operand) (w : Nat) : Comp Unit :=
  require (decide (a.toNat < 2 ^ (8 * w))) .operandRange

/-- The kind code of a frame kind (30_encoding.md rule R82). -/
def kindCode : FrameKind → Nat
  | .padding => 0x00
  | .resetStream => 0x01
  | .connectionClose => 0x02
  | .goAway => 0x03
  | .windowUpdate => 0x04
  | .blocked => 0x05
  | .stopWaiting => 0x06
  | .ping => 0x07
  | .acknowledge => 0x40
  | .stream => 0x80

/-- The kind a code names, if it names one (30_encoding.md rules R82, R83). -/
def kindOfCode (n : Nat) : Option FrameKind :=
  [FrameKind.stream, .acknowledge, .padding, .resetStream, .connectionClose, .goAway, .windowUpdate, .blocked,
    .stopWaiting, .ping].find? (fun k => kindCode k == n)

/-- A kind code is one of the ten, else OperandRange (41_frametype.md rule R140). -/
def requireKind (a : Operand) : Comp Unit :=
  require (kindOfCode a.toNat).isSome .operandRange

end Sys2Proof.Machine
end

