-- ==== Sys2Proof/Machine/Ops.lean ====
section
/-! DEFINITION. The shared operations: byte memories, little-endian values (20_memory.md rules R50, R51), the view
(00_scope.md rules R7, R8), the result registers (10_state.md rule R27), and how a command ends: success, or a failure
(60_exceptions.md rule R212), which is the VWC's taking of an exception. -/

namespace Sys2Proof.Machine

/-! ## Byte memories -/

/-- The byte written at `a`, if something wrote it since the last reset. -/
def Memory.lookup : Memory → Nat → Option Byte
  | [], _ => none
  | (k, b) :: m, a => if k = a then some b else Memory.lookup m a

/-- Write one byte, keeping the addresses strictly rising. -/
def Memory.store : Memory → Nat → Byte → Memory
  | [], a, b => [(a, b)]
  | (k, c) :: m, a, b =>
    if a < k then (a, b) :: (k, c) :: m
    else if a = k then (a, b) :: m
    else (k, c) :: Memory.store m a b

/-- Write bytes at ascending addresses from `a`. -/
def Memory.storeList : Memory → Nat → List Byte → Memory
  | m, _, [] => m
  | m, a, b :: bs => Memory.storeList (m.store a b) (a + 1) bs

/-- Every address of `m` is above `a`. -/
def Memory.above (a : Nat) : Memory → Bool
  | [] => true
  | (k, _) :: m => decide (a < k) && Memory.above a m

/-- The canonical form: addresses strictly rising. An unlisted address has no written byte, which no entry can equal,
so equal memories are equal lists (log entry 2). -/
def Memory.wf : Memory → Bool
  | [] => true
  | (k, _) :: m => Memory.above k m && Memory.wf m

/-- Every listed address is below the capacity (10_state.md rules R22, R23). -/
def Memory.within (cap : Nat) : Memory → Bool
  | [] => true
  | (k, _) :: m => decide (k < cap) && Memory.within cap m

/-- Byte `a` of BUF; a byte nobody wrote is free (10_state.md rules R22, R30). -/
def State.bufByte (s : State) (a : Nat) : Byte :=
  (Memory.lookup s.buf a).getD (Config.freeBufByte s.epoch a)

/-- Byte `a` of PAY; a byte nobody wrote is free (10_state.md rules R23, R30). -/
def State.payByte (s : State) (a : Nat) : Byte :=
  (Memory.lookup s.pay a).getD (Config.freePayByte s.epoch a)

/-! ## Byte order -/

/-- The unsigned number whose little-endian bytes these are (20_memory.md rule R50). -/
def leValue : List Byte → Nat
  | [] => 0
  | b :: bs => b.toNat + 256 * leValue bs

/-- The `n` little-endian bytes of `v` (20_memory.md rule R50). -/
def leBytes : Nat → Nat → List Byte
  | 0, _ => []
  | n + 1, v => BitVec.ofNat 8 v :: leBytes n (v / 256)

/-! ## The view -/

/-- `need(k)` (00_scope.md rule R8): `k` bytes fit the view, else BufferTooSmall. -/
def State.need (s : State) (k : Nat) : Comp Unit :=
  if k > s.vlen.toNat then .error (.failure .bufferTooSmall) else .ok ()

/-- The `n` bytes of the view from offset `off` exist in BUF (10_state.md rules R22, R24; log entry 5). -/
def State.inBuf (s : State) (off n : Nat) : Bool :=
  n == 0 || decide (s.vbase.toNat + off + n ≤ s.cfg.bufCap)

/-- B(off) .. B(off + n - 1) (00_scope.md rule R7). -/
def State.viewBytes (s : State) (off n : Nat) : Comp (List Byte) :=
  if s.inBuf off n then .ok ((List.range n).map fun j => s.bufByte (s.vbase.toNat + (off + j)))
  else .error (.fault .viewOutsideBuf)

/-- B(off) (00_scope.md rule R7). -/
def State.viewByte (s : State) (off : Nat) : Comp Byte :=
  if s.inBuf off 1 then .ok (s.bufByte (s.vbase.toNat + off)) else .error (.fault .viewOutsideBuf)

/-- MemRead(off, n) (00_scope.md rule R8). -/
def State.memRead (s : State) (off n : Nat) : Comp Nat := do
  let bytes ← s.viewBytes off n
  return leValue bytes

/-- B(off + j) <- bytes[j], ascending (00_scope.md rules R7, R8; 20_memory.md rule R53). -/
def State.writeBytes (s : State) (off : Nat) (bytes : List Byte) : Comp State :=
  if s.inBuf off bytes.length then
    .ok { s with buf := Memory.storeList s.buf (s.vbase.toNat + off) bytes }
  else .error (.fault .viewOutsideBuf)

/-- B(off) <- b (00_scope.md rule R7). -/
def State.writeByte (s : State) (off : Nat) (b : Byte) : Comp State := s.writeBytes off [b]

/-- MemWrite(off, n, v) (00_scope.md rule R8). -/
def State.memWrite (s : State) (off n v : Nat) : Comp State := s.writeBytes off (leBytes n v)

/-- Reading a packet number of `w` bytes: 6 bytes are a 4-byte low and a 2-byte high word (20_memory.md rule R51). -/
def State.pnRead (s : State) (off w : Nat) : Comp Nat :=
  if w = 6 then do
    let low ← s.memRead off 4
    let high ← s.memRead (off + 4) 2
    return low ||| (high <<< 32)
  else s.memRead off w

/-- Writing a packet number of `w` bytes (20_memory.md rule R51). -/
def State.pnWrite (s : State) (off w v : Nat) : Comp State :=
  if w = 6 then do
    let t ← s.memWrite off 4 (v % 2 ^ 32)
    t.memWrite (off + 4) 2 (v / 2 ^ 32)
  else s.memWrite off w v

/-- PAY[0] .. PAY[n-1] (10_state.md rule R23). -/
def State.payload (s : State) (n : Nat) : List Byte := (List.range n).map s.payByte

/-- A setter's two writes: byte 0 with its field bits, then the field (20_memory.md rule R63). -/
def State.writeField (s : State) (b0 : Byte) (off n v : Nat) : Comp State := do
  let t ← s.writeByte 0 b0
  t.memWrite off n v

/-! ## Results -/

/-- The result of an absent field: all five registers 0 (10_state.md rule R27). -/
def Result.absent : Result := ⟨0, 0, false, 0, 0⟩

/-- A field of width `w` at `off` that holds `v` (10_state.md rule R27). -/
def Result.field (v w off : Nat) : Result := ⟨v, w, true, off, w⟩

/-- A length: the range 0 .. n (10_state.md rule R27). -/
def Result.length (n : Nat) : Result := ⟨n, 0, true, 0, n⟩

/-- RES <- r (00_scope.md rule R8). -/
def State.withResult (s : State) (r : Result) : State :=
  { s with
    resVal := BitVec.ofNat 64 r.val
    resW := BitVec.ofNat 4 r.w
    resPresent := r.present
    resOff := BitVec.ofNat 32 r.off
    resLen := BitVec.ofNat 32 r.len }

/-! ## The end of a command -/

/-- A failure, the VWC's exception entry (60_exceptions.md rule R212): STATUS takes the code and FAULT, nothing else
changes and control goes nowhere. There is no return from it: the next command runs as if the failed one had not been
issued (rule R214). -/
def State.raiseFailure (s : State) (f : Failure) : State := { s with status := statusOnFailure f }

/-- Success: CODE <- 0, FAULT kept (10_state.md rule R25). -/
def State.succeed (s : State) : State := { s with status := statusOnSuccess s.status }

/-- End a command that began in `s`. A failure starts from `s` itself, so a failing command has changed nothing but STATUS
(60_exceptions.md rule R212). -/
def State.finish (s : State) : Comp State → Host.Outcome State Fault Refusal
  | .ok t => .next t.succeed
  | .error (.failure f) => .next (s.raiseFailure f)
  | .error (.fault f) => .fault f

/-- End a getter: on success the five result registers are written together (10_state.md rule R27). -/
def State.answer (s : State) : Comp Result → Host.Outcome State Fault Refusal
  | .ok r => s.finish (.ok (s.withResult r))
  | .error e => s.finish (.error e)

end Sys2Proof.Machine
end

