-- ==== Sys2Proof/Machine/FrameType.lean ====
section
/-! DEFINITION. The frame type family (41_frametype.md). -/

namespace Sys2Proof.Machine

/-- FT.SETKIND (41_frametype.md rule R140). -/
def execFtSetKind (kind : Operand) (s : State) : Host.Outcome State Fault Refusal :=
  s.finish do
    requireKind kind
    s.need 1
    s.writeByte 0 (BitVec.ofNat 8 kind.toNat)

/-- FT.KIND (41_frametype.md rule R141). -/
def execFtKind (s : State) : Host.Outcome State Fault Refusal :=
  s.answer do
    s.need 1
    let b ← s.viewByte 0
    return ⟨(kindCodeOf b).toNat, 1, true, 0, 1⟩

/-- FT.SETFLAGS (41_frametype.md rule R142): a byte without a flags field is left as it is. -/
def execFtSetFlags (bits : Operand) (s : State) : Host.Outcome State Fault Refusal :=
  s.finish do
    require (decide (bits.toNat < 256)) .operandRange
    s.need 1
    let b ← s.viewByte 0
    match flagMask b with
    | some mask => s.writeByte 0 (b ||| (BitVec.ofNat 8 bits.toNat &&& mask))
    | none => return s

/-- FT.FLAGS (41_frametype.md rule R143). -/
def execFtFlags (s : State) : Host.Outcome State Fault Refusal :=
  s.answer do
    s.need 1
    let b ← s.viewByte 0
    match flagMask b with
    | some mask => return ⟨(b &&& mask).toNat, 1, true, 0, 1⟩
    | none => return Result.absent

/-- FT.LEN (41_frametype.md rules R144, R145). -/
def execFtLen (s : State) : Host.Outcome State Fault Refusal :=
  s.answer do
    s.need 1
    return Result.length 1

end Sys2Proof.Machine
end

