-- ==== Sys2Proof/Machine/PacketHeader.lean ====
section
/-! DEFINITION. The packet header family (43_packetheader.md). -/

namespace Sys2Proof.Machine

/-- The public flags byte, after need(1) (43_packetheader.md rule R170). -/
def State.flagsByte (s : State) : Comp Byte := do
  s.need 1
  s.viewByte 0

/-- PH.SETFLAGS (43_packetheader.md rule R171). -/
def execPhSetFlags (bits : Operand) (s : State) : Host.Outcome State Fault Refusal :=
  s.finish do
    require (decide (bits.toNat < 256)) .operandRange
    let p ← s.flagsByte
    s.writeByte 0 (p ||| BitVec.ofNat 8 bits.toNat)

/-- PH.FLAGS (43_packetheader.md rule R172). -/
def execPhFlags (s : State) : Host.Outcome State Fault Refusal :=
  s.answer do
    let p ← s.flagsByte
    return ⟨p.toNat, 1, true, 0, 1⟩

/-- PH.SETCID (43_packetheader.md rule R173). -/
def execPhSetCid (w : Nat) (cid : Operand) (s : State) : Host.Outcome State Fault Refusal :=
  s.finish do
    requireWidth w cidWidths
    requireFits cid w
    let p ← s.flagsByte
    s.need (1 + w)
    s.writeField (withCidWidth s.cfg.cidMap p w) 1 w cid.toNat

/-- PH.CID (43_packetheader.md rule R174). -/
def execPhCid (s : State) : Host.Outcome State Fault Refusal :=
  s.answer do
    let p ← s.flagsByte
    let w := cidWidth s.cfg.cidMap p
    if w = 0 then return Result.absent
    else do
      s.need (1 + w)
      let v ← s.memRead 1 w
      return Result.field v w 1

/-- PH.SETVER (43_packetheader.md rule R175). -/
def execPhSetVer (ver : Operand) (s : State) : Host.Outcome State Fault Refusal :=
  s.finish do
    require (decide (ver.toNat < 2 ^ 32)) .operandRange
    let p ← s.flagsByte
    let o := 1 + cidWidth s.cfg.cidMap p
    s.need (o + 4)
    s.writeField (p ||| versionFlag) o 4 ver.toNat

/-- PH.VER (43_packetheader.md rule R176). -/
def execPhVer (s : State) : Host.Outcome State Fault Refusal :=
  s.answer do
    let p ← s.flagsByte
    if hasVersion p then do
      let o := 1 + cidWidth s.cfg.cidMap p
      s.need (o + 4)
      let v ← s.memRead o 4
      return Result.field v 4 o
    else return Result.absent

/-- The offset of the packet number (30_encoding.md rule R95). -/
def pnFieldAt (m : CidMap) (p : Byte) (special : Bool) : Nat := 1 + cidWidth m p + verWidth p special

/-- PH.SETPN (43_packetheader.md rule R177). -/
def execPhSetPn (w : Nat) (special : Bool) (pn : Operand) (s : State) : Host.Outcome State Fault Refusal :=
  s.finish do
    requireWidth w (pnWidths special)
    requireFits pn w
    let p ← s.flagsByte
    let o := pnFieldAt s.cfg.cidMap p special
    s.need (o + w)
    let t ← s.writeByte 0 (withPnWidth p w)
    t.pnWrite o w pn.toNat

/-- PH.PN (43_packetheader.md rule R178). -/
def execPhPn (special : Bool) (s : State) : Host.Outcome State Fault Refusal :=
  s.answer do
    let p ← s.flagsByte
    let w := pnWidth p special
    if w = 0 then return Result.absent
    else do
      let o := pnFieldAt s.cfg.cidMap p special
      s.need (o + w)
      let v ← s.pnRead o w
      return Result.field v w o

/-- PH.LEN (43_packetheader.md rule R179). -/
def execPhLen (special : Bool) (s : State) : Host.Outcome State Fault Refusal :=
  s.answer do
    let p ← s.flagsByte
    return Result.length (hdrLen s.cfg.cidMap p special)

end Sys2Proof.Machine
end

