-- ==== Sys2Proof/Machine/PacketKinds.lean ====
section
/-! DEFINITION. The packet kind families: public reset, regular packet, version negotiation (44_packet_kinds.md). -/

namespace Sys2Proof.Machine

/-- The header setter PR.SETCID and VN.SETCID share: an 8-byte connection id and one flag (44_packet_kinds.md rules
R191, R200). -/
def State.writeKindHeader (s : State) (flag : Byte) (cid : Operand) : Comp State := do
  let p ← s.flagsByte
  s.need 9
  s.writeField (withCidWidth s.cfg.cidMap p 8 ||| flag) 1 8 cid.toNat

/-- The header length of the family's mode, after need(1) (44_packet_kinds.md rule R190). -/
def State.headerLength (s : State) (special : Bool) : Comp Nat := do
  let p ← s.flagsByte
  return hdrLen s.cfg.cidMap p special

/-- PR.SETCID (44_packet_kinds.md rule R191). -/
def execPrSetCid (cid : Operand) (s : State) : Host.Outcome State Fault Refusal :=
  s.finish (s.writeKindHeader publicResetFlag cid)

/-- PR.LEN (44_packet_kinds.md rule R192). -/
def execPrLen (s : State) : Host.Outcome State Fault Refusal :=
  s.answer (.ok (Result.length s.vlen.toNat))

/-- RP.SETDATA (44_packet_kinds.md rule R195). -/
def execRpSetData (n : Operand) (s : State) : Host.Outcome State Fault Refusal :=
  s.finish do
    require (decide (n.toNat < 2 ^ 32)) .operandRange
    require (decide (n.toNat ≤ s.cfg.payCap)) .operandRange
    let h ← s.headerLength false
    s.need (h + n.toNat)
    s.writeBytes h (s.payload n.toNat)

/-- RP.DATA (44_packet_kinds.md rule R196). -/
def execRpData (s : State) : Host.Outcome State Fault Refusal :=
  s.answer do
    let h ← s.headerLength false
    s.need h
    return ⟨s.vlen.toNat - h, 0, true, h, s.vlen.toNat - h⟩

/-- RP.LEN (44_packet_kinds.md rule R197). -/
def execRpLen (s : State) : Host.Outcome State Fault Refusal :=
  s.answer (.ok (Result.length s.vlen.toNat))

/-- VN.SETCID (44_packet_kinds.md rule R200). -/
def execVnSetCid (cid : Operand) (s : State) : Host.Outcome State Fault Refusal :=
  s.finish (s.writeKindHeader versionFlag cid)

/-- VN.SETVER (44_packet_kinds.md rule R201). -/
def execVnSetVer (index ver : Operand) (s : State) : Host.Outcome State Fault Refusal :=
  s.finish do
    require (decide (index.toNat < 2 ^ 32)) .operandRange
    require (decide (ver.toNat < 2 ^ 32)) .operandRange
    let h ← s.headerLength true
    s.need (h + 4 * index.toNat + 4)
    s.memWrite (h + 4 * index.toNat) 4 ver.toNat

/-- VN.VER (44_packet_kinds.md rule R202). -/
def execVnVer (index : Operand) (s : State) : Host.Outcome State Fault Refusal :=
  s.answer do
    require (decide (index.toNat < 2 ^ 32)) .operandRange
    let h ← s.headerLength true
    s.need (h + 4 * index.toNat + 4)
    let v ← s.memRead (h + 4 * index.toNat) 4
    return Result.field v 4 (h + 4 * index.toNat)

/-- VN.COUNT (44_packet_kinds.md rule R204). -/
def execVnCount (s : State) : Host.Outcome State Fault Refusal :=
  s.answer do
    let h ← s.headerLength true
    s.need h
    return ⟨(s.vlen.toNat - h) / 4, 0, true, h, 4 * ((s.vlen.toNat - h) / 4)⟩

/-- VN.LEN (44_packet_kinds.md rule R203). -/
def execVnLen (s : State) : Host.Outcome State Fault Refusal :=
  s.answer (.ok (Result.length s.vlen.toNat))

end Sys2Proof.Machine
end

