-- ==== Sys2Proof/Machine/StreamFrame.lean ====
section
/-! DEFINITION. The stream frame family (42_streamframe.md). -/

namespace Sys2Proof.Machine

/-- The prelude of every SF command (42_streamframe.md rule R150): the type byte, which must carry the Stream marker. -/
def State.streamByte (s : State) : Comp Byte := do
  s.need 1
  let b ← s.viewByte 0
  require (isStream b) .kindMismatch
  return b

/-- The offset of the offset field, 1 + sid_w(f) (30_encoding.md rule R86). -/
def offsetFieldAt (f : Byte) : Comp Nat := do
  let sw ← sidWidth f
  return 1 + sw

/-- The offset of the data field, 1 + sid_w(f) + off_w(f), StreamIDLen decoded first (30_encoding.md rule R86,
60_exceptions.md rule R213). -/
def dataFieldAt (f : Byte) : Comp Nat := do
  let o ← offsetFieldAt f
  let ow ← offWidth f
  return o + ow

/-- SF.SETSID (42_streamframe.md rule R151). -/
def execSfSetSid (w : Nat) (sid : Operand) (s : State) : Host.Outcome State Fault Refusal :=
  s.finish do
    requireWidth w sidWidths
    requireFits sid w
    let b ← s.streamByte
    s.need (1 + w)
    s.writeField (withSidWidth b w) 1 w sid.toNat

/-- SF.SID (42_streamframe.md rule R152). -/
def execSfSid (s : State) : Host.Outcome State Fault Refusal :=
  s.answer do
    let b ← s.streamByte
    let w ← sidWidth (streamFlags b)
    s.need (1 + w)
    let v ← s.memRead 1 w
    return Result.field v w 1

/-- SF.ADDOFF (42_streamframe.md rule R153). -/
def execSfAddOff (w : Nat) (off : Operand) (s : State) : Host.Outcome State Fault Refusal :=
  s.finish do
    requireWidth w offWidths
    requireFits off w
    let b ← s.streamByte
    let o ← offsetFieldAt (streamFlags b)
    s.need (o + w)
    s.writeField (withOffWidth b w) o w off.toNat

/-- SF.OFF (42_streamframe.md rule R154). -/
def execSfOff (s : State) : Host.Outcome State Fault Refusal :=
  s.answer do
    let b ← s.streamByte
    let o ← offsetFieldAt (streamFlags b)
    let w ← offWidth (streamFlags b)
    if w = 0 then return Result.absent
    else do
      s.need (o + w)
      let v ← s.memRead o w
      return Result.field v w o

/-- SF.SETDATA (42_streamframe.md rule R155). -/
def execSfSetData (n : Operand) (s : State) : Host.Outcome State Fault Refusal :=
  s.finish do
    require (decide (n.toNat ≤ 65535)) .operandRange
    require (decide (n.toNat ≤ s.cfg.payCap)) .operandRange
    let b ← s.streamByte
    if n.toNat = 0 then return s
    else do
      let o ← dataFieldAt (streamFlags b)
      s.need (o + 2 + n.toNat)
      let t ← s.writeField (b ||| 0x20) o 2 n.toNat
      t.writeBytes (o + 2) (s.payload n.toNat)

/-- SF.DATA (42_streamframe.md rule R156). -/
def execSfData (s : State) : Host.Outcome State Fault Refusal :=
  s.answer do
    let b ← s.streamByte
    if hasData (streamFlags b) then do
      let o ← dataFieldAt (streamFlags b)
      s.need (o + 2)
      let n ← s.memRead o 2
      s.need (o + 2 + n)
      return ⟨n, 2, true, o + 2, n⟩
    else return ⟨0, 0, true, 0, 0⟩

/-- SF.LEN (42_streamframe.md rule R157). -/
def execSfLen (s : State) : Host.Outcome State Fault Refusal :=
  s.answer do
    let b ← s.streamByte
    let o ← dataFieldAt (streamFlags b)
    if hasData (streamFlags b) then do
      s.need (o + 2)
      let n ← s.memRead o 2
      return Result.length (o + 2 + n)
    else return Result.length o

end Sys2Proof.Machine
end

