-- ==== Sys2Proof/Machine/View.lean ====
section
/-! DEFINITION. The view command (40_view_control.md). -/

namespace Sys2Proof.Machine

/-- VIEW (40_view_control.md rule R130). -/
def execView (base len : Operand) (s : State) : Host.Outcome State Fault Refusal :=
  s.finish do
    require (decide (base.toNat < 2 ^ 32)) .operandRange
    require (decide (len.toNat < 2 ^ 32)) .operandRange
    require (decide (base.toNat + len.toNat ≤ s.cfg.bufCap)) .operandRange
    return { s with vbase := BitVec.ofNat 32 base.toNat, vlen := BitVec.ofNat 32 len.toNat }

end Sys2Proof.Machine
end

