-- ==== Sys2Proof/Machine/Dispatch.lean ====
section
/-! DEFINITION. exec: each command's meaning, one arm a command (30_encoding.md rule R114). -/

namespace Sys2Proof.Machine

def exec (i : Instr) (s : State) : Host.Outcome State Fault Refusal :=
  match i with
  -- 40_view_control.md
  | .view base len => Sys2Proof.Machine.execView base len s
  -- 41_frametype.md
  | .ftSetKind kind => Sys2Proof.Machine.execFtSetKind kind s
  | .ftKind => Sys2Proof.Machine.execFtKind s
  | .ftSetFlags bits => Sys2Proof.Machine.execFtSetFlags bits s
  | .ftFlags => Sys2Proof.Machine.execFtFlags s
  | .ftLen => Sys2Proof.Machine.execFtLen s
  -- 42_streamframe.md
  | .sfSetSid w sid => Sys2Proof.Machine.execSfSetSid w sid s
  | .sfSid => Sys2Proof.Machine.execSfSid s
  | .sfAddOff w off => Sys2Proof.Machine.execSfAddOff w off s
  | .sfOff => Sys2Proof.Machine.execSfOff s
  | .sfSetData n => Sys2Proof.Machine.execSfSetData n s
  | .sfData => Sys2Proof.Machine.execSfData s
  | .sfLen => Sys2Proof.Machine.execSfLen s
  -- 43_packetheader.md
  | .phSetFlags bits => Sys2Proof.Machine.execPhSetFlags bits s
  | .phFlags => Sys2Proof.Machine.execPhFlags s
  | .phSetCid w cid => Sys2Proof.Machine.execPhSetCid w cid s
  | .phCid => Sys2Proof.Machine.execPhCid s
  | .phSetVer ver => Sys2Proof.Machine.execPhSetVer ver s
  | .phVer => Sys2Proof.Machine.execPhVer s
  | .phSetPn w special pn => Sys2Proof.Machine.execPhSetPn w special pn s
  | .phPn special => Sys2Proof.Machine.execPhPn special s
  | .phLen special => Sys2Proof.Machine.execPhLen special s
  -- 44_packet_kinds.md
  | .prSetCid cid => Sys2Proof.Machine.execPrSetCid cid s
  | .prLen => Sys2Proof.Machine.execPrLen s
  | .rpSetData n => Sys2Proof.Machine.execRpSetData n s
  | .rpData => Sys2Proof.Machine.execRpData s
  | .rpLen => Sys2Proof.Machine.execRpLen s
  | .vnSetCid cid => Sys2Proof.Machine.execVnSetCid cid s
  | .vnSetVer index ver => Sys2Proof.Machine.execVnSetVer index ver s
  | .vnVer index => Sys2Proof.Machine.execVnVer index s
  | .vnCount => Sys2Proof.Machine.execVnCount s
  | .vnLen => Sys2Proof.Machine.execVnLen s

end Sys2Proof.Machine
end

