-- ==== Sys2Proof/Machine/Host.lean ====
section
/-! DEFINITION. What each action of the host does (20_memory.md rules R58, R61; 70_reset_and_hazards.md rules R240, R252). -/

namespace Sys2Proof.Machine

/-- The VWC executes one command: a word that selects no command fails with IllegalCommand (30_encoding.md rule R113). -/
def issue (t : Transaction) (s : State) : Host.Outcome State Fault Refusal :=
  match decode t with
  | .ok i => exec i s
  | .error _ => s.finish (.error (.failure .illegalCommand))

/-- The host writes a byte of BUF (10_state.md rule R22). -/
def hostWriteBuf (addr : Nat) (b : Byte) (s : State) : Host.Outcome State Fault Refusal :=
  if addr < s.cfg.bufCap then .next { s with buf := Memory.store s.buf addr b } else .fault .hostBufAddress

/-- The host writes a byte of PAY (10_state.md rule R23). -/
def hostWritePay (addr : Nat) (b : Byte) (s : State) : Host.Outcome State Fault Refusal :=
  if addr < s.cfg.payCap then .next { s with pay := Memory.store s.pay addr b } else .fault .hostPayAddress

/-- What a host read returns: the last byte written there, or the register (20_memory.md rule R58; 10_state.md rules R22 to
R27); a fault where the address does not exist (log entry 5). That a byte of PAY can be read is log entry 17. -/
def State.readByHost (s : State) : HostRead → Except Fault Nat
  | .buf addr => if addr < s.cfg.bufCap then .ok (s.bufByte addr).toNat else .error .hostBufAddress
  | .pay addr => if addr < s.cfg.payCap then .ok (s.payByte addr).toNat else .error .hostPayAddress
  | .vbase => .ok s.vbase.toNat
  | .vlen => .ok s.vlen.toNat
  | .status => .ok s.status.toNat
  | .resVal => .ok s.resVal.toNat
  | .resW => .ok s.resW.toNat
  | .resPresent => .ok (if s.resPresent then 1 else 0)
  | .resOff => .ok s.resOff.toNat
  | .resLen => .ok s.resLen.toNat

/-- The host reads: no read has a side effect (20_memory.md rule R55). -/
def hostRead (what : HostRead) (s : State) : Host.Outcome State Fault Refusal :=
  match s.readByHost what with
  | .ok _ => .next s
  | .error f => .fault f

/-- Reset (70_reset_and_hazards.md rule R240, 10_state.md rule R30): every register 0, BUF and PAY unspecified from here
on (log entries 2, 4). -/
def hostReset (s : State) : Host.Outcome State Fault Refusal :=
  .next { State.resetWith s.cfg with host := s.host, epoch := s.epoch + 1 }

/-- One action of the host, in a state whose list no longer holds it. -/
def hostAct (a : HostAction) (s : State) : Host.Outcome State Fault Refusal :=
  match a with
  | .command t => issue t s
  | .writeBuf addr b => hostWriteBuf addr b s
  | .writePay addr b => hostWritePay addr b s
  | .read what => hostRead what s
  | .reset => hostReset s

end Sys2Proof.Machine
end

