-- ==== Sys2Proof/Machine/Step.lean ====
section
/-! DEFINITION. The step: the host's next action (70_reset_and_hazards.md rule R252). -/

namespace Sys2Proof.Machine

/-- One step: the next action of the host, or nothing where the host has none left: the VWC never steps on its own
(10_state.md rule R29; log entries 3, 6). -/
def step (s : State) : Host.Outcome State Fault Refusal :=
  match s.host with
  | [] => .next s
  | a :: rest => hostAct a { s with host := rest }

/-- `s` with the command whose bits are the low `nbits` bits of `w` as the host's next action (log entry 3). -/
def State.withFetchWord (s : State) (nbits w : Nat) : State :=
  { s with host := .command (Transaction.ofBits nbits w) :: s.host }

end Sys2Proof.Machine
end

