-- ==== Sys2Proof/Machine/Pseudo.lean ====
section
/-! DEFINITION. The pseudo-instructions (30_encoding.md rule R118). None has an opcode; no step uses this file. -/

namespace Sys2Proof.Machine

/-- The commands of VN.SETVERS from index `i` on (30_encoding.md table R118). An empty list, which the table does not show,
expands to no command: DESIGN CHOICE, log entry 18, safe. -/
def setVersFrom : Nat → List Operand → List Instr
  | _, [] => []
  | i, v :: vs => .vnSetVer (BitVec.ofNat 64 i) v :: setVersFrom (i + 1) vs

/-- The expansion of a pseudo-instruction (30_encoding.md table R118). -/
def expandPseudo : Pseudo → List Instr
  | .sfInit => [.ftSetKind (BitVec.ofNat 64 (kindCode .stream))]
  | .sfNoOff => [.sfAddOff 0 0]
  | .prCid => [.phCid]
  | .vnCid => [.phCid]
  | .vnHLen => [.phLen true]
  | .vnSetVers versions => setVersFrom 0 versions
  | .rpSetCid w cid => [.phSetCid w cid]
  | .rpCid => [.phCid]
  | .rpSetVer ver => [.phSetVer ver]
  | .rpVer => [.phVer]
  | .rpSetPn w pn => [.phSetPn w false pn]
  | .rpPn => [.phPn false]
  | .rpHLen => [.phLen false]

/-- Commands one after the other, stopping at the first failure (30_encoding.md table R118, VN.SETVERS). -/
def execAll : List Instr → State → Host.Outcome State Fault Refusal
  | [], s => .next s
  | i :: is, s =>
    match exec i s with
    | .next t => if statusCode t.status = 0 then execAll is t else .next t
    | .fault f => .fault f
    | .refused r => .refused r

/-- A pseudo-instruction (30_encoding.md rule R118). -/
def execPseudo (p : Pseudo) (s : State) : Host.Outcome State Fault Refusal := execAll (expandPseudo p) s

end Sys2Proof.Machine
end

