-- ==== Sys2Proof/Safety.lean ====
section
/-! DEFINITION. The terms claims use: the invariant of a run, what a failing command, a getter and a setter leave, the
width tables of 30_encoding.md as tables, and the classes of commands. -/

namespace Sys2Proof.Machine

/-! ## The invariant -/

/-- VBASE + VLEN <= BUF_CAP (10_state.md rule R24). -/
abbrev State.ViewInBuf (s : State) : Prop := s.vbase.toNat + s.vlen.toNat ≤ s.cfg.bufCap

/-- Bits [6:3] are 0, CODE is not 7, and a failure's code stands only beside FAULT (10_state.md rule R25). -/
abbrev LegalStatus (status : BitVec 8) : Prop :=
  status.toNat / 8 % 16 = 0 ∧ status.toNat % 8 ≠ 7 ∧ (status.toNat % 8 ≠ 0 → status.toNat / 128 = 1)

/-- RES_W is a width class, and an absent result has all five registers 0 (10_state.md rule R27). -/
abbrev State.LegalResult (s : State) : Prop :=
  s.resW.toNat ∈ [0, 1, 2, 4, 6, 8] ∧
    (s.resPresent = false → s.resVal = 0 ∧ s.resW = 0 ∧ s.resOff = 0 ∧ s.resLen = 0)

/-- The invariant of every run: admissible parameters (00_scope.md rule R4), memories in canonical form and inside their
capacity (10_state.md rules R22, R23), the view inside BUF (rule R24), legal STATUS and results (rules R25, R27). -/
abbrev State.Inv (s : State) : Prop :=
  s.cfg.Valid ∧ Memory.wf s.buf = true ∧ Memory.wf s.pay = true ∧ Memory.within s.cfg.bufCap s.buf = true ∧
    Memory.within s.cfg.payCap s.pay = true ∧ s.ViewInBuf ∧ LegalStatus s.status ∧ s.LegalResult

/-- A safe outcome: the machine goes on. -/
def Goes (o : Host.Outcome State Fault Refusal) : Prop := ∃ t, o = .next t

/-- The action touches only addresses that exist (10_state.md rules R22, R23). -/
def HostAction.inRange (p : Params) : HostAction → Prop
  | .writeBuf addr _ => addr < p.bufCap
  | .writePay addr _ => addr < p.payCap
  | .read (.buf addr) => addr < p.bufCap
  | .read (.pay addr) => addr < p.payCap
  | _ => True

/-! ## What a command leaves -/

/-- B(i), the view's byte `i` (00_scope.md rule R7). -/
def State.B (s : State) (i : Nat) : Byte := s.bufByte (s.vbase.toNat + i)

/-- `s` after a command that failed with `code`: nothing but STATUS changed (60_exceptions.md rule R212). -/
def State.failed (s : State) (code : Nat) : State := { s with status := BitVec.ofNat 8 (0x80 + code) }

/-- `s` after a getter that succeeded: the five result registers, CODE 0, FAULT kept, nothing else changed
(10_state.md rules R25, R27). -/
def State.answered (s : State) (val w : Nat) (present : Bool) (off len : Nat) : State :=
  { s with
    status := s.status &&& 0x80
    resVal := BitVec.ofNat 64 val
    resW := BitVec.ofNat 4 w
    resPresent := present
    resOff := BitVec.ofNat 32 off
    resLen := BitVec.ofNat 32 len }

/-- `s` after a getter whose field is absent: all five registers 0 (10_state.md rule R27). -/
def State.answeredAbsent (s : State) : State := s.answered 0 0 false 0 0

/-- `t` is `s` after a setter that succeeded: byte 0 of the view is `b0`, the `n` bytes of the view from `off` are `v`,
CODE is 0, FAULT is kept; every other byte of BUF and every other field of the state is as before (20_memory.md rule R63). -/
def State.Wrote (s t : State) (b0 : Byte) (off n : Nat) (v : Nat → Byte) : Prop :=
  t = { s with status := s.status &&& 0x80, buf := t.buf } ∧
    t.B 0 = b0 ∧
    (∀ j, j < n → t.B (off + j) = v j) ∧
    ∀ a, a ≠ s.vbase.toNat → ¬(s.vbase.toNat + off ≤ a ∧ a < s.vbase.toNat + off + n) → t.bufByte a = s.bufByte a

/-- `t` is `s` after a setter that succeeded and wrote byte 0 of the view only. -/
def State.WroteByte0 (s t : State) (b0 : Byte) : Prop := s.Wrote t b0 1 0 (fun _ => 0)

/-- `s` after a command that succeeded and changed nothing else: CODE 0, FAULT kept (10_state.md rule R25). -/
def State.succeeded (s : State) : State := { s with status := s.status &&& 0x80 }

/-- Byte `j` of the little-endian form of `v`: (v >> 8j)[7:0] (00_scope.md rule R8). -/
def byteOf (v j : Nat) : Byte := BitVec.ofNat 8 (v >>> (8 * j))

/-- B(off) + 2^8 * B(off+1) + ... + 2^(8(n-1)) * B(off+n-1) (00_scope.md rule R8). -/
def State.fieldValue (s : State) (off : Nat) : Nat → Nat
  | 0 => 0
  | n + 1 => s.fieldValue off n + 2 ^ (8 * n) * (s.B (off + n)).toNat

/-! ## How a command is issued -/

/-- The command's encoding (30_encoding.md rules R110 to R114): a word with this OP issues the command with the word's W and S
and the transaction's operands; where a reserved bit is set, or W or S is not 0 and the command does not take it, the word fails
with IllegalCommand. -/
def Issues (op : Nat) (takesW takesS : Bool) (command : Nat → Bool → Operand → Operand → Instr) : Prop :=
  ∀ (t : Transaction) (s : State), t.cmd.toNat % 256 = op →
    if t.cmd.toNat / 8192 = 0 ∧ (takesW = true ∨ t.cmd.toNat / 256 % 16 = 0) ∧ (takesS = true ∨ t.cmd.toNat / 4096 % 2 = 0)
    then issue t s = exec (command (t.cmd.toNat / 256 % 16) (t.cmd.toNat / 4096 % 2 == 1) t.a0 t.a1) s
    else issue t s = .next (s.failed 5)

/-! ## The tables of 30_encoding.md, as tables -/

/-- Table R90: the width of a StreamIDLen code, none for the reserved one. -/
def sidWidthTable : Nat → Option Nat
  | 0b00 => some 1
  | 0b01 => some 2
  | 0b11 => some 4
  | _ => none

/-- Table R91: the width of an OffsetLen code, none for an undefined one. -/
def offWidthTable : Nat → Option Nat
  | 0b000 => some 0
  | 0b001 => some 2
  | 0b011 => some 4
  | 0b111 => some 8
  | _ => none

/-- Table R96 and the other admissible CID_CODE (00_scope.md rule R4): the width of a ConnectionIDLen code. -/
def cidWidthTable : CidMap → Nat → Nat
  | .standard, 0b01 => 1
  | .standard, 0b11 => 4
  | .swapped, 0b01 => 4
  | .swapped, 0b11 => 1
  | _, 0b10 => 8
  | _, _ => 0

/-- Table R96 and the other admissible CID_CODE (00_scope.md rule R4): the code of a connection id width 1, 4 or 8. -/
def cidCodeTable : CidMap → Nat → Nat
  | .standard, 1 => 0b01
  | .standard, 4 => 0b11
  | .swapped, 4 => 0b01
  | .swapped, 1 => 0b11
  | _, 8 => 0b10
  | _, _ => 0b00

/-- Table R98: the width of a PacketNumberLen code in a mode. -/
def pnWidthTable : Bool → Nat → Nat
  | false, 0b00 => 1
  | true, 0b00 => 0
  | _, 0b01 => 2
  | _, 0b10 => 4
  | _, 0b11 => 6
  | _, _ => 0

/-- The Stream marker of the view's type byte (30_encoding.md table R85). -/
abbrev State.Stream (s : State) : Prop := (s.B 0).getLsbD 7 = true

/-- The Acknowledge marker of the view's type byte, Stream clear (30_encoding.md rule R83). -/
abbrev State.Ack (s : State) : Prop := (s.B 0).getLsbD 7 = false ∧ (s.B 0).getLsbD 6 = true

/-- DataLen of the view's type byte (30_encoding.md rule R87). -/
abbrev State.DataLen (s : State) : Prop := (s.B 0).getLsbD 5 = true

/-- The Version flag of the view's flags byte (30_encoding.md table R92). -/
abbrev State.Version (s : State) : Prop := (s.B 0).getLsbD 0 = true

/-- The stream id width of the view, none for the reserved code: bits [1:0] (30_encoding.md rule R90). -/
def State.sidW (s : State) : Option Nat := sidWidthTable ((s.B 0).toNat % 4)

/-- The offset width of the view, none for an undefined code: bits [4:2] (30_encoding.md rule R91). -/
def State.offW (s : State) : Option Nat := offWidthTable ((s.B 0).toNat / 4 % 8)

/-- The connection id width of the view: bits [3:2] (30_encoding.md rule R96). -/
def State.cidW (s : State) : Nat := cidWidthTable s.cfg.cidMap ((s.B 0).toNat / 4 % 4)

/-- The version's width in a mode (30_encoding.md rule R97). -/
def State.verW (s : State) (special : Bool) : Nat := if special = false ∧ s.Version then 4 else 0

/-- The packet number width of the view in a mode: bits [5:4] (30_encoding.md rule R98). -/
def State.pnW (s : State) (special : Bool) : Nat := pnWidthTable special ((s.B 0).toNat / 16 % 4)

/-- The header length of the view in a mode (30_encoding.md rule R99). -/
def State.hdrL (s : State) (special : Bool) : Nat := 1 + s.cidW + s.verW special + s.pnW special

/-! ## Classes of commands -/

/-- The thirteen commands that write the view (00_scope.md rule R10, 30_encoding.md table R114). -/
def isSetter : Instr → Bool
  | .ftSetKind _ | .ftSetFlags _ | .sfSetSid _ _ | .sfAddOff _ _ | .sfSetData _ | .phSetFlags _ | .phSetCid _ _
  | .phSetVer _ | .phSetPn _ _ _ | .prSetCid _ | .rpSetData _ | .vnSetCid _ | .vnSetVer _ _ => true
  | .view _ _ | .ftKind | .ftFlags | .ftLen | .sfSid | .sfOff | .sfData | .sfLen | .phFlags | .phCid | .phVer
  | .phPn _ | .phLen _ | .prLen | .rpData | .rpLen | .vnVer _ | .vnCount | .vnLen => false

/-- VIEW, the one command that writes VBASE and VLEN (10_state.md rule R24). -/
def isView : Instr → Bool
  | .view _ _ => true
  | .ftSetKind _ | .ftSetFlags _ | .sfSetSid _ _ | .sfAddOff _ _ | .sfSetData _ | .phSetFlags _ | .phSetCid _ _
  | .phSetVer _ | .phSetPn _ _ _ | .prSetCid _ | .rpSetData _ | .vnSetCid _ | .vnSetVer _ _
  | .ftKind | .ftFlags | .ftLen | .sfSid | .sfOff | .sfData | .sfLen | .phFlags | .phCid | .phVer
  | .phPn _ | .phLen _ | .prLen | .rpData | .rpLen | .vnVer _ | .vnCount | .vnLen => false

/-- The commands that read the view and write the result registers (00_scope.md rule R10). -/
def isGetter (i : Instr) : Bool := !isSetter i && !isView i

end Sys2Proof.Machine
end

