-- ==== Sys2Proof/Certificates/Slice0/Obligations.lean ====
section
/-! DEFINITION. The statements for the provers. Each per-command statement gives the command's encoding (Issues) and the whole
outcome of the command, its failures in the order of 60_exceptions.md rule R213 and then its effect; the words it uses (Issues,
failed, answered, Wrote, the width tables) are defined in Sys2Proof/Safety.lean. -/

open Sys2Proof Sys2Proof.Machine

/-! ## Encoding -/

/-- The encoder and the decoder agree on every command, with every W, S and operand the word admits (30_encoding.md rules
R110, R113, R114). -/
def Obligations.DecodeOfEncode : Prop :=
  ∀ i : Instr, i.WellFormed → decode (encode i) = .ok i

/-- A word decodes exactly when no check of 30_encoding.md rule R113 fails; then encoding what it decodes to gives the word
back, so no bit of it is dropped; else the command fails with IllegalCommand and changes nothing but STATUS. -/
def Obligations.IllegalCommandExactly : Prop :=
  ∀ (t : Transaction) (s : State),
    if t.cmd.toNat / 8192 ≠ 0
      ∨ t.cmd.toNat % 256 ∉ [0x01, 0x10, 0x11, 0x12, 0x13, 0x14, 0x20, 0x21, 0x22, 0x23, 0x24, 0x25, 0x26, 0x30, 0x31, 0x32,
          0x33, 0x34, 0x35, 0x36, 0x37, 0x38, 0x40, 0x42, 0x50, 0x51, 0x52, 0x60, 0x62, 0x63, 0x64, 0x65]
      ∨ (t.cmd.toNat / 256 % 16 ≠ 0 ∧ t.cmd.toNat % 256 ∉ [0x20, 0x22, 0x32, 0x36])
      ∨ (t.cmd.toNat / 4096 % 2 ≠ 0 ∧ t.cmd.toNat % 256 ∉ [0x36, 0x37, 0x38])
    then issue t s = .next (s.failed 5)
    else ∃ i, decode t = .ok i ∧ (encode i).cmd = t.cmd ∧ issue t s = exec i s

/-- Words written out from 30_encoding.md table R114 and the rules of their commands decode to those commands. -/
def Obligations.SampleWordsDecode : Prop :=
  decode ⟨0b0000000000000001, 9, 18⟩ = .ok (.view 9 18) ∧
  decode ⟨0b0000000000010000, 0x80, 0⟩ = .ok (.ftSetKind 0x80) ∧
  decode ⟨0b0000010000100000, 1, 0⟩ = .ok (.sfSetSid 4 1) ∧
  decode ⟨0b0000100000100010, 2, 0⟩ = .ok (.sfAddOff 8 2) ∧
  decode ⟨0b0000000000100100, 3, 0⟩ = .ok (.sfSetData 3) ∧
  decode ⟨0b0000100000110010, 1, 0⟩ = .ok (.phSetCid 8 1) ∧
  decode ⟨0b0001001000110110, 7, 0⟩ = .ok (.phSetPn 2 true 7) ∧
  decode ⟨0b0001000000110111, 0, 0⟩ = .ok (.phPn true) ∧
  decode ⟨0b0000000001000000, 1, 0⟩ = .ok (.prSetCid 1) ∧
  decode ⟨0b0000000001010000, 3, 0⟩ = .ok (.rpSetData 3) ∧
  decode ⟨0b0000000001100010, 1, 2⟩ = .ok (.vnSetVer 1 2)

/-- An operand that 30_encoding.md table R114 shows as "-" is ignored (rule R116): a1 by every command but VIEW and
VN.SETVER, a0 by the seventeen commands without operands. -/
def Obligations.UnusedOperandsIgnored : Prop :=
  ∀ (cmd : CmdWord) (a0 a1 b0 b1 : Operand),
    (cmd.toNat % 256 ∉ [0x01, 0x62] → decode ⟨cmd, a0, a1⟩ = decode ⟨cmd, a0, b1⟩) ∧
    (cmd.toNat % 256 ∈ [0x11, 0x13, 0x14, 0x21, 0x23, 0x25, 0x26, 0x31, 0x33, 0x35, 0x37, 0x38, 0x42, 0x51, 0x52, 0x64,
        0x65] → decode ⟨cmd, a0, a1⟩ = decode ⟨cmd, b0, b1⟩)

/-! ## The step, the host, reset -/

/-- A step whose next host action is a command that decodes runs exactly that command; a step whose next action is a word
that does not decode fails with IllegalCommand; each uses up that one action (log entry 3). -/
def Obligations.StepRunsDecodedCommand : Prop :=
  ∀ (s : State) (t : Transaction) (rest : List HostAction), s.host = .command t :: rest →
    (∀ i, decode t = .ok i → step s = exec i { s with host := rest }) ∧
    (∀ r, decode t = .error r → step s = .next (State.failed { s with host := rest } 5))

/-- A host write of BUF or PAY changes the one byte, and nothing else but the list of host actions (10_state.md rules R22,
R23; 20_memory.md rule R61; log entry 3). -/
def Obligations.HostWriteChangesOneByte : Prop :=
  ∀ (s : State) (a : Nat) (b : Byte) (rest : List HostAction),
    (s.host = .writeBuf a b :: rest → a < s.cfg.bufCap →
      ∃ t, step s = .next t ∧ t = { s with host := rest, buf := t.buf } ∧ t.bufByte a = b ∧
        ∀ x, x ≠ a → t.bufByte x = s.bufByte x) ∧
    (s.host = .writePay a b :: rest → a < s.cfg.payCap →
      ∃ t, step s = .next t ∧ t = { s with host := rest, pay := t.pay } ∧ t.payByte a = b ∧
        ∀ x, x ≠ a → t.payByte x = s.payByte x)

/-- A host read of a register, or of a byte of BUF or PAY that exists, changes nothing but the list of host actions
(20_memory.md rule R55; log entry 3), and the read of a byte returns that byte (rule R58). That the host can read PAY is
the model's reading of 00_scope.md rule R10 and rule R58 (log entry 17). -/
def Obligations.HostReadChangesNothing : Prop :=
  ∀ (s : State) (what : HostRead) (rest : List HostAction), s.host = .read what :: rest →
    HostAction.inRange s.cfg (.read what) →
      step s = .next { s with host := rest } ∧
      (∀ a, what = .buf a → s.readByHost what = .ok (s.bufByte a).toNat) ∧
      ∀ a, what = .pay a → s.readByHost what = .ok (s.payByte a).toNat

/-- Right after reset every register is 0 and no byte of BUF or PAY is known; the same after a reset step (10_state.md rule
R30, 70_reset_and_hazards.md rule R240). The rest is the model's choice, not the spec's: that an unknown byte is a free value,
indexed by a count of resets which resetWith puts at 0 (log entry 2), that resetWith has an empty list of host actions (log
entry 3), and that a reset step keeps the parameters and the host's remaining actions (log entry 4). -/
def Obligations.ResetLeavesRegistersZero : Prop :=
  (∀ p : Params, State.resetWith p = ⟨p, [], 0, [], [], 0, 0, 0, 0, 0, false, 0, 0⟩) ∧
  (∀ (s : State) (rest : List HostAction), s.host = .reset :: rest →
    ∃ n, step s = .next ⟨s.cfg, rest, n, [], [], 0, 0, 0, 0, 0, false, 0, 0⟩ ∧ n ≠ s.epoch)

/-- The invariant holds right after reset, for every admissible choice of the parameters. -/
def Obligations.ResetSatisfiesInvariant : Prop :=
  (∀ p : Params, p.Valid → (State.resetWith p).Inv) ∧ State.reset.Inv

/-! ## 40_view_control.md -/

/-- VIEW (rule R130): OperandRange, or VBASE and VLEN take the operands and nothing else but STATUS changes. -/
def Obligations.ViewSelectsWindow : Prop :=
  Issues 0x01 false false (fun _ _ a0 a1 => .view a0 a1) ∧
  ∀ (base len : Operand) (s : State),
    if base.toNat ≥ 2 ^ 32 ∨ len.toNat ≥ 2 ^ 32 ∨ base.toNat + len.toNat > s.cfg.bufCap then
      exec (.view base len) s = .next (s.failed 6)
    else
      ∃ t, exec (.view base len) s = .next t ∧ t.vbase.toNat = base.toNat ∧ t.vlen.toNat = len.toNat ∧
        t = { s with status := s.status &&& 0x80, vbase := t.vbase, vlen := t.vlen }

/-! ## 41_frametype.md -/

/-- FT.SETKIND (rule R140). -/
def Obligations.FtSetKindWritesKindCode : Prop :=
  Issues 0x10 false false (fun _ _ a0 _ => .ftSetKind a0) ∧
  ∀ (kind : Operand) (s : State), s.ViewInBuf →
    if kind.toNat ∉ [0x80, 0x40, 0x00, 0x01, 0x02, 0x03, 0x04, 0x05, 0x06, 0x07] then
      exec (.ftSetKind kind) s = .next (s.failed 6)
    else if s.vlen.toNat < 1 then exec (.ftSetKind kind) s = .next (s.failed 1)
    else ∃ t, exec (.ftSetKind kind) s = .next t ∧ s.WroteByte0 t (BitVec.ofNat 8 kind.toNat)

/-- FT.KIND (rule R141). -/
def Obligations.FtKindReadsKindCode : Prop :=
  Issues 0x11 false false (fun _ _ _ _ => .ftKind) ∧
  ∀ s : State, s.ViewInBuf →
    if s.vlen.toNat < 1 then exec .ftKind s = .next (s.failed 1)
    else if s.Stream then exec .ftKind s = .next (s.answered 0x80 1 true 0 1)
    else if s.Ack then exec .ftKind s = .next (s.answered 0x40 1 true 0 1)
    else exec .ftKind s = .next (s.answered (s.B 0).toNat 1 true 0 1)

/-- FT.SETFLAGS (rule R142). -/
def Obligations.FtSetFlagsOrsMaskedBits : Prop :=
  Issues 0x12 false false (fun _ _ a0 _ => .ftSetFlags a0) ∧
  ∀ (bits : Operand) (s : State), s.ViewInBuf →
    if bits.toNat ≥ 256 then exec (.ftSetFlags bits) s = .next (s.failed 6)
    else if s.vlen.toNat < 1 then exec (.ftSetFlags bits) s = .next (s.failed 1)
    else if s.Stream then
      ∃ t, exec (.ftSetFlags bits) s = .next t ∧ s.WroteByte0 t (s.B 0 ||| BitVec.ofNat 8 (bits.toNat % 128))
    else if s.Ack then
      ∃ t, exec (.ftSetFlags bits) s = .next t ∧ s.WroteByte0 t (s.B 0 ||| BitVec.ofNat 8 (bits.toNat % 64))
    else exec (.ftSetFlags bits) s = .next s.succeeded

/-- FT.FLAGS (rule R143). -/
def Obligations.FtFlagsReadsMaskedBits : Prop :=
  Issues 0x13 false false (fun _ _ _ _ => .ftFlags) ∧
  ∀ s : State, s.ViewInBuf →
    if s.vlen.toNat < 1 then exec .ftFlags s = .next (s.failed 1)
    else if s.Stream then exec .ftFlags s = .next (s.answered ((s.B 0).toNat % 128) 1 true 0 1)
    else if s.Ack then exec .ftFlags s = .next (s.answered ((s.B 0).toNat % 64) 1 true 0 1)
    else exec .ftFlags s = .next s.answeredAbsent

/-- FT.LEN (rule R144): it reads no byte, and fails on an empty view all the same (rule R145). -/
def Obligations.FtLenIsOne : Prop :=
  Issues 0x14 false false (fun _ _ _ _ => .ftLen) ∧
  ∀ s : State,
    if s.vlen.toNat < 1 then exec .ftLen s = .next (s.failed 1)
    else exec .ftLen s = .next (s.answered 1 0 true 0 1)

/-! ## 42_streamframe.md -/

/-- SF.SETSID (rule R151). -/
def Obligations.SfSetSidWritesStreamId : Prop :=
  Issues 0x20 true false (fun w _ a0 _ => .sfSetSid w a0) ∧
  ∀ (w : Nat) (sid : Operand) (s : State), s.ViewInBuf →
    if w ∉ [1, 2, 4] then exec (.sfSetSid w sid) s = .next (s.failed 2)
    else if sid.toNat ≥ 2 ^ (8 * w) then exec (.sfSetSid w sid) s = .next (s.failed 6)
    else if s.vlen.toNat < 1 then exec (.sfSetSid w sid) s = .next (s.failed 1)
    else if ¬s.Stream then exec (.sfSetSid w sid) s = .next (s.failed 4)
    else if s.vlen.toNat < 1 + w then exec (.sfSetSid w sid) s = .next (s.failed 1)
    else
      ∃ t, exec (.sfSetSid w sid) s = .next t ∧
        s.Wrote t ((s.B 0 &&& 0xfc) ||| BitVec.ofNat 8 (w - 1)) 1 w (byteOf sid.toNat)

/-- SF.SID (rule R152). -/
def Obligations.SfSidReadsStreamId : Prop :=
  Issues 0x21 false false (fun _ _ _ _ => .sfSid) ∧
  ∀ s : State, s.ViewInBuf →
    if s.vlen.toNat < 1 then exec .sfSid s = .next (s.failed 1)
    else if ¬s.Stream then exec .sfSid s = .next (s.failed 4)
    else
      match s.sidW with
      | none => exec .sfSid s = .next (s.failed 3)
      | some w =>
        if s.vlen.toNat < 1 + w then exec .sfSid s = .next (s.failed 1)
        else exec .sfSid s = .next (s.answered (s.fieldValue 1 w) w true 1 w)

/-- SF.ADDOFF (rule R153). -/
def Obligations.SfAddOffWritesOffset : Prop :=
  Issues 0x22 true false (fun w _ a0 _ => .sfAddOff w a0) ∧
  ∀ (w : Nat) (off : Operand) (s : State), s.ViewInBuf →
    if w ∉ [0, 2, 4, 8] then exec (.sfAddOff w off) s = .next (s.failed 2)
    else if off.toNat ≥ 2 ^ (8 * w) then exec (.sfAddOff w off) s = .next (s.failed 6)
    else if s.vlen.toNat < 1 then exec (.sfAddOff w off) s = .next (s.failed 1)
    else if ¬s.Stream then exec (.sfAddOff w off) s = .next (s.failed 4)
    else
      match s.sidW with
      | none => exec (.sfAddOff w off) s = .next (s.failed 3)
      | some sw =>
        if s.vlen.toNat < 1 + sw + w then exec (.sfAddOff w off) s = .next (s.failed 1)
        else
          ∃ t, exec (.sfAddOff w off) s = .next t ∧
            s.Wrote t ((s.B 0 &&& 0xe3) ||| (BitVec.ofNat 8 (if w = 0 then 0 else w - 1) <<< 2)) (1 + sw) w
              (byteOf off.toNat)

/-- SF.OFF (rule R154). -/
def Obligations.SfOffReadsOffset : Prop :=
  Issues 0x23 false false (fun _ _ _ _ => .sfOff) ∧
  ∀ s : State, s.ViewInBuf →
    if s.vlen.toNat < 1 then exec .sfOff s = .next (s.failed 1)
    else if ¬s.Stream then exec .sfOff s = .next (s.failed 4)
    else
      match s.sidW, s.offW with
      | none, _ => exec .sfOff s = .next (s.failed 3)
      | some _, none => exec .sfOff s = .next (s.failed 3)
      | some _, some 0 => exec .sfOff s = .next s.answeredAbsent
      | some sw, some (w + 1) =>
        if s.vlen.toNat < 1 + sw + (w + 1) then exec .sfOff s = .next (s.failed 1)
        else exec .sfOff s = .next (s.answered (s.fieldValue (1 + sw) (w + 1)) (w + 1) true (1 + sw) (w + 1))

/-- SF.SETDATA (rule R155): the length prefix, then the payload PAY[0 .. n-1]. -/
def Obligations.SfSetDataWritesPayload : Prop :=
  Issues 0x24 false false (fun _ _ a0 _ => .sfSetData a0) ∧
  ∀ (n : Operand) (s : State), s.ViewInBuf →
    if n.toNat > 65535 ∨ n.toNat > s.cfg.payCap then exec (.sfSetData n) s = .next (s.failed 6)
    else if s.vlen.toNat < 1 then exec (.sfSetData n) s = .next (s.failed 1)
    else if ¬s.Stream then exec (.sfSetData n) s = .next (s.failed 4)
    else if n.toNat = 0 then exec (.sfSetData n) s = .next s.succeeded
    else
      match s.sidW, s.offW with
      | none, _ => exec (.sfSetData n) s = .next (s.failed 3)
      | some _, none => exec (.sfSetData n) s = .next (s.failed 3)
      | some sw, some ow =>
        if s.vlen.toNat < 1 + sw + ow + 2 + n.toNat then exec (.sfSetData n) s = .next (s.failed 1)
        else
          ∃ t, exec (.sfSetData n) s = .next t ∧
            s.Wrote t (s.B 0 ||| 0x20) (1 + sw + ow) (2 + n.toNat)
              (fun j => if j < 2 then byteOf n.toNat j else s.payByte (j - 2))

/-- SF.DATA (rule R156). -/
def Obligations.SfDataLocatesPayload : Prop :=
  Issues 0x25 false false (fun _ _ _ _ => .sfData) ∧
  ∀ s : State, s.ViewInBuf →
    if s.vlen.toNat < 1 then exec .sfData s = .next (s.failed 1)
    else if ¬s.Stream then exec .sfData s = .next (s.failed 4)
    else if ¬s.DataLen then exec .sfData s = .next (s.answered 0 0 true 0 0)
    else
      match s.sidW, s.offW with
      | none, _ => exec .sfData s = .next (s.failed 3)
      | some _, none => exec .sfData s = .next (s.failed 3)
      | some sw, some ow =>
        if s.vlen.toNat < 1 + sw + ow + 2 then exec .sfData s = .next (s.failed 1)
        else if s.vlen.toNat < 1 + sw + ow + 2 + s.fieldValue (1 + sw + ow) 2 then exec .sfData s = .next (s.failed 1)
        else
          exec .sfData s =
            .next (s.answered (s.fieldValue (1 + sw + ow) 2) 2 true (1 + sw + ow + 2) (s.fieldValue (1 + sw + ow) 2))

/-- SF.LEN (rule R157). -/
def Obligations.SfLenIsFrameLength : Prop :=
  Issues 0x26 false false (fun _ _ _ _ => .sfLen) ∧
  ∀ s : State, s.ViewInBuf →
    if s.vlen.toNat < 1 then exec .sfLen s = .next (s.failed 1)
    else if ¬s.Stream then exec .sfLen s = .next (s.failed 4)
    else
      match s.sidW, s.offW with
      | none, _ => exec .sfLen s = .next (s.failed 3)
      | some _, none => exec .sfLen s = .next (s.failed 3)
      | some sw, some ow =>
        if ¬s.DataLen then exec .sfLen s = .next (s.answered (1 + sw + ow) 0 true 0 (1 + sw + ow))
        else if s.vlen.toNat < 1 + sw + ow + 2 then exec .sfLen s = .next (s.failed 1)
        else
          exec .sfLen s =
            .next (s.answered (1 + sw + ow + 2 + s.fieldValue (1 + sw + ow) 2) 0 true 0
              (1 + sw + ow + 2 + s.fieldValue (1 + sw + ow) 2))

/-! ## 43_packetheader.md -/

/-- PH.SETFLAGS (rule R171). -/
def Obligations.PhSetFlagsOrsBits : Prop :=
  Issues 0x30 false false (fun _ _ a0 _ => .phSetFlags a0) ∧
  ∀ (bits : Operand) (s : State), s.ViewInBuf →
    if bits.toNat ≥ 256 then exec (.phSetFlags bits) s = .next (s.failed 6)
    else if s.vlen.toNat < 1 then exec (.phSetFlags bits) s = .next (s.failed 1)
    else ∃ t, exec (.phSetFlags bits) s = .next t ∧ s.WroteByte0 t (s.B 0 ||| BitVec.ofNat 8 bits.toNat)

/-- PH.FLAGS (rule R172). -/
def Obligations.PhFlagsReadsByte : Prop :=
  Issues 0x31 false false (fun _ _ _ _ => .phFlags) ∧
  ∀ s : State, s.ViewInBuf →
    if s.vlen.toNat < 1 then exec .phFlags s = .next (s.failed 1)
    else exec .phFlags s = .next (s.answered (s.B 0).toNat 1 true 0 1)

/-- PH.SETCID (rule R173), for both admissible CID_CODE. -/
def Obligations.PhSetCidWritesConnectionId : Prop :=
  Issues 0x32 true false (fun w _ a0 _ => .phSetCid w a0) ∧
  ∀ (w : Nat) (cid : Operand) (s : State), s.ViewInBuf →
    if w ∉ [1, 4, 8] then exec (.phSetCid w cid) s = .next (s.failed 2)
    else if cid.toNat ≥ 2 ^ (8 * w) then exec (.phSetCid w cid) s = .next (s.failed 6)
    else if s.vlen.toNat < 1 + w then exec (.phSetCid w cid) s = .next (s.failed 1)
    else
      ∃ t, exec (.phSetCid w cid) s = .next t ∧
        s.Wrote t ((s.B 0 &&& 0xf3) ||| (BitVec.ofNat 8 (cidCodeTable s.cfg.cidMap w) <<< 2)) 1 w (byteOf cid.toNat)

/-- PH.CID (rule R174). -/
def Obligations.PhCidReadsConnectionId : Prop :=
  Issues 0x33 false false (fun _ _ _ _ => .phCid) ∧
  ∀ s : State, s.ViewInBuf →
    if s.vlen.toNat < 1 then exec .phCid s = .next (s.failed 1)
    else if s.cidW = 0 then exec .phCid s = .next s.answeredAbsent
    else if s.vlen.toNat < 1 + s.cidW then exec .phCid s = .next (s.failed 1)
    else exec .phCid s = .next (s.answered (s.fieldValue 1 s.cidW) s.cidW true 1 s.cidW)

/-- PH.SETVER (rule R175). -/
def Obligations.PhSetVerWritesVersion : Prop :=
  Issues 0x34 false false (fun _ _ a0 _ => .phSetVer a0) ∧
  ∀ (ver : Operand) (s : State), s.ViewInBuf →
    if ver.toNat ≥ 2 ^ 32 then exec (.phSetVer ver) s = .next (s.failed 6)
    else if s.vlen.toNat < 1 then exec (.phSetVer ver) s = .next (s.failed 1)
    else if s.vlen.toNat < 1 + s.cidW + 4 then exec (.phSetVer ver) s = .next (s.failed 1)
    else
      ∃ t, exec (.phSetVer ver) s = .next t ∧
        s.Wrote t (s.B 0 ||| 0x01) (1 + s.cidW) 4 (byteOf ver.toNat)

/-- PH.VER (rule R176). -/
def Obligations.PhVerReadsVersion : Prop :=
  Issues 0x35 false false (fun _ _ _ _ => .phVer) ∧
  ∀ s : State, s.ViewInBuf →
    if s.vlen.toNat < 1 then exec .phVer s = .next (s.failed 1)
    else if ¬s.Version then exec .phVer s = .next s.answeredAbsent
    else if s.vlen.toNat < 1 + s.cidW + 4 then exec .phVer s = .next (s.failed 1)
    else exec .phVer s = .next (s.answered (s.fieldValue (1 + s.cidW) 4) 4 true (1 + s.cidW) 4)

/-- PH.SETPN (rule R177). -/
def Obligations.PhSetPnWritesPacketNumber : Prop :=
  Issues 0x36 true true (fun w special a0 _ => .phSetPn w special a0) ∧
  ∀ (w : Nat) (special : Bool) (pn : Operand) (s : State), s.ViewInBuf →
    if w ∉ [1, 2, 4, 6] ∨ (special = true ∧ w = 1) then exec (.phSetPn w special pn) s = .next (s.failed 2)
    else if pn.toNat ≥ 2 ^ (8 * w) then exec (.phSetPn w special pn) s = .next (s.failed 6)
    else if s.vlen.toNat < 1 then exec (.phSetPn w special pn) s = .next (s.failed 1)
    else if s.vlen.toNat < 1 + s.cidW + s.verW special + w then exec (.phSetPn w special pn) s = .next (s.failed 1)
    else
      ∃ t, exec (.phSetPn w special pn) s = .next t ∧
        s.Wrote t ((s.B 0 &&& 0xcf) ||| (BitVec.ofNat 8 (if w = 1 then 0 else w / 2) <<< 4))
          (1 + s.cidW + s.verW special) w (byteOf pn.toNat)

/-- PH.PN (rule R178): a 6-byte number reads as its little-endian value (20_memory.md rule R51). -/
def Obligations.PhPnReadsPacketNumber : Prop :=
  Issues 0x37 false true (fun _ special _ _ => .phPn special) ∧
  ∀ (special : Bool) (s : State), s.ViewInBuf →
    if s.vlen.toNat < 1 then exec (.phPn special) s = .next (s.failed 1)
    else if s.pnW special = 0 then exec (.phPn special) s = .next s.answeredAbsent
    else if s.vlen.toNat < 1 + s.cidW + s.verW special + s.pnW special then
      exec (.phPn special) s = .next (s.failed 1)
    else
      exec (.phPn special) s =
        .next (s.answered (s.fieldValue (1 + s.cidW + s.verW special) (s.pnW special)) (s.pnW special) true
          (1 + s.cidW + s.verW special) (s.pnW special))

/-- PH.LEN (rule R179). -/
def Obligations.PhLenIsHeaderLength : Prop :=
  Issues 0x38 false true (fun _ special _ _ => .phLen special) ∧
  ∀ (special : Bool) (s : State), s.ViewInBuf →
    if s.vlen.toNat < 1 then exec (.phLen special) s = .next (s.failed 1)
    else
      exec (.phLen special) s =
        .next (s.answered (1 + s.cidW + s.verW special + s.pnW special) 0 true 0
          (1 + s.cidW + s.verW special + s.pnW special))

/-! ## 44_packet_kinds.md -/

/-- PR.SETCID (rule R191): ConnectionIDLen 0b10 and the PublicReset flag, then the id. -/
def Obligations.PrSetCidWritesResetHeader : Prop :=
  Issues 0x40 false false (fun _ _ a0 _ => .prSetCid a0) ∧
  ∀ (cid : Operand) (s : State), s.ViewInBuf →
    if s.vlen.toNat < 9 then exec (.prSetCid cid) s = .next (s.failed 1)
    else
      ∃ t, exec (.prSetCid cid) s = .next t ∧
        s.Wrote t ((s.B 0 &&& 0xf3) ||| 0x08 ||| 0x02) 1 8 (byteOf cid.toNat)

/-- PR.LEN, RP.LEN, VN.LEN (rules R192, R197, R203): the view length, with no check. -/
def Obligations.PacketLengthIsViewLength : Prop :=
  Issues 0x42 false false (fun _ _ _ _ => .prLen) ∧ Issues 0x52 false false (fun _ _ _ _ => .rpLen) ∧
  Issues 0x65 false false (fun _ _ _ _ => .vnLen) ∧
  ∀ s : State,
    exec .prLen s = .next (s.answered s.vlen.toNat 0 true 0 s.vlen.toNat) ∧
    exec .rpLen s = .next (s.answered s.vlen.toNat 0 true 0 s.vlen.toNat) ∧
    exec .vnLen s = .next (s.answered s.vlen.toNat 0 true 0 s.vlen.toNat)

/-- RP.SETDATA (rule R195). -/
def Obligations.RpSetDataWritesPayload : Prop :=
  Issues 0x50 false false (fun _ _ a0 _ => .rpSetData a0) ∧
  ∀ (n : Operand) (s : State), s.ViewInBuf →
    if n.toNat ≥ 2 ^ 32 ∨ n.toNat > s.cfg.payCap then exec (.rpSetData n) s = .next (s.failed 6)
    else if s.vlen.toNat < 1 then exec (.rpSetData n) s = .next (s.failed 1)
    else if s.vlen.toNat < s.hdrL false + n.toNat then exec (.rpSetData n) s = .next (s.failed 1)
    else ∃ t, exec (.rpSetData n) s = .next t ∧ s.Wrote t (s.B 0) (s.hdrL false) n.toNat s.payByte

/-- RP.DATA (rule R196). -/
def Obligations.RpDataLocatesPayload : Prop :=
  Issues 0x51 false false (fun _ _ _ _ => .rpData) ∧
  ∀ s : State, s.ViewInBuf →
    if s.vlen.toNat < 1 then exec .rpData s = .next (s.failed 1)
    else if s.vlen.toNat < s.hdrL false then exec .rpData s = .next (s.failed 1)
    else
      exec .rpData s =
        .next (s.answered (s.vlen.toNat - s.hdrL false) 0 true (s.hdrL false) (s.vlen.toNat - s.hdrL false))

/-- VN.SETCID (rule R200): ConnectionIDLen 0b10 and the Version flag, then the id. -/
def Obligations.VnSetCidWritesHeader : Prop :=
  Issues 0x60 false false (fun _ _ a0 _ => .vnSetCid a0) ∧
  ∀ (cid : Operand) (s : State), s.ViewInBuf →
    if s.vlen.toNat < 9 then exec (.vnSetCid cid) s = .next (s.failed 1)
    else
      ∃ t, exec (.vnSetCid cid) s = .next t ∧
        s.Wrote t ((s.B 0 &&& 0xf3) ||| 0x08 ||| 0x01) 1 8 (byteOf cid.toNat)

/-- VN.SETVER (rule R201). -/
def Obligations.VnSetVerWritesEntry : Prop :=
  Issues 0x62 false false (fun _ _ a0 a1 => .vnSetVer a0 a1) ∧
  ∀ (index ver : Operand) (s : State), s.ViewInBuf →
    if index.toNat ≥ 2 ^ 32 ∨ ver.toNat ≥ 2 ^ 32 then exec (.vnSetVer index ver) s = .next (s.failed 6)
    else if s.vlen.toNat < 1 then exec (.vnSetVer index ver) s = .next (s.failed 1)
    else if s.vlen.toNat < s.hdrL true + 4 * index.toNat + 4 then
      exec (.vnSetVer index ver) s = .next (s.failed 1)
    else
      ∃ t, exec (.vnSetVer index ver) s = .next t ∧
        s.Wrote t (s.B 0) (s.hdrL true + 4 * index.toNat) 4 (byteOf ver.toNat)

/-- VN.VER (rule R202). -/
def Obligations.VnVerReadsEntry : Prop :=
  Issues 0x63 false false (fun _ _ a0 _ => .vnVer a0) ∧
  ∀ (index : Operand) (s : State), s.ViewInBuf →
    if index.toNat ≥ 2 ^ 32 then exec (.vnVer index) s = .next (s.failed 6)
    else if s.vlen.toNat < 1 then exec (.vnVer index) s = .next (s.failed 1)
    else if s.vlen.toNat < s.hdrL true + 4 * index.toNat + 4 then exec (.vnVer index) s = .next (s.failed 1)
    else
      exec (.vnVer index) s =
        .next (s.answered (s.fieldValue (s.hdrL true + 4 * index.toNat) 4) 4 true (s.hdrL true + 4 * index.toNat) 4)

/-- VN.COUNT (rule R204). -/
def Obligations.VnCountIsEntryCount : Prop :=
  Issues 0x64 false false (fun _ _ _ _ => .vnCount) ∧
  ∀ s : State, s.ViewInBuf →
    if s.vlen.toNat < 1 then exec .vnCount s = .next (s.failed 1)
    else if s.vlen.toNat < s.hdrL true then exec .vnCount s = .next (s.failed 1)
    else
      exec .vnCount s =
        .next (s.answered ((s.vlen.toNat - s.hdrL true) / 4) 0 true (s.hdrL true)
          (4 * ((s.vlen.toNat - s.hdrL true) / 4)))

/-! ## The whole machine -/

/-- Every command completes: STATUS is then 0x00 or-ed with the old FAULT, or 0x80 or-ed with one of the six codes
(70_reset_and_hazards.md rule R252, 10_state.md rule R25). -/
def Obligations.EveryCommandCompletes : Prop :=
  ∀ (i : Instr) (s : State), s.ViewInBuf →
    ∃ t, exec i s = .next t ∧
      (t.status = s.status &&& 0x80 ∨ ∃ c, 1 ≤ c ∧ c ≤ 6 ∧ t.status = BitVec.ofNat 8 (0x80 + c))

/-- A failing command changes nothing but STATUS (60_exceptions.md rule R212). -/
def Obligations.FailureChangesOnlyStatus : Prop :=
  ∀ (i : Instr) (s t : State), exec i s = .next t → t.status.toNat % 8 ≠ 0 →
    t = { s with status := t.status } ∧ t.status.getLsbD 7 = true

/-- FAULT is cleared by reset alone (10_state.md rule R25, 60_exceptions.md rule R214). -/
def Obligations.OnlyResetClearsFault : Prop :=
  ∀ s t : State, step s = .next t → s.status.getLsbD 7 = true → t.status.getLsbD 7 = false →
    ∃ rest, s.host = .reset :: rest

/-- Among commands only VIEW writes VBASE and VLEN, and no step but VIEW and reset does (10_state.md rule R24). -/
def Obligations.OnlyViewMovesWindow : Prop :=
  ∀ s t : State, step s = .next t → (t.vbase ≠ s.vbase ∨ t.vlen ≠ s.vlen) →
    ∃ rest, s.host = .reset :: rest ∨
      ∃ c base len, s.host = .command c :: rest ∧ decode c = .ok (.view base len)

/-- No setter and no VIEW writes a result register, no getter and no VIEW writes a byte of BUF, and no command writes PAY, the
parameters or the host's list (10_state.md rule R27, 20_memory.md rule R63). -/
def Obligations.CommandClassesKeepApart : Prop :=
  ∀ (i : Instr) (s t : State), exec i s = .next t →
    t.pay = s.pay ∧ t.cfg = s.cfg ∧ t.host = s.host ∧ t.epoch = s.epoch ∧
    (isGetter i = false → t.resVal = s.resVal ∧ t.resW = s.resW ∧ t.resPresent = s.resPresent ∧
      t.resOff = s.resOff ∧ t.resLen = s.resLen) ∧
    (isSetter i = false → t.buf = s.buf)

/-- No command writes a byte of BUF outside the view (20_memory.md rule R63), in any state. -/
def Obligations.WritesStayInsideView : Prop :=
  ∀ (i : Instr) (s t : State), exec i s = .next t →
    ∀ a, a < s.vbase.toNat ∨ s.vbase.toNat + s.vlen.toNat ≤ a → t.bufByte a = s.bufByte a

/-- No command depends on a byte of BUF outside the view (20_memory.md rule R57): two states that differ only there end with
the same STATUS, results and window and the same bytes in the view. -/
def Obligations.ReadsStayInsideView : Prop :=
  ∀ (i : Instr) (s : State) (other : Memory), s.ViewInBuf →
    (∀ j, j < s.vlen.toNat → State.B { s with buf := other } j = s.B j) →
    ∃ t u, exec i s = .next t ∧ exec i { s with buf := other } = .next u ∧ u = { t with buf := u.buf } ∧
      ∀ j, j < s.vlen.toNat → u.bufByte (s.vbase.toNat + j) = t.bufByte (s.vbase.toNat + j)

/-- No command depends on STATUS or on a result register (10_state.md rule R26): a command after a failure runs as it would
have after a success. -/
def Obligations.StatusAndResultsSteerNothing : Prop :=
  ∀ (i : Instr) (s t : State) (status : BitVec 8) (resVal : BitVec 64) (resW : BitVec 4) (resPresent : Bool)
    (resOff resLen : BitVec 32), exec i s = .next t →
    ∃ u, exec i ⟨s.cfg, s.host, s.epoch, s.buf, s.pay, s.vbase, s.vlen, status, resVal, resW, resPresent, resOff, resLen⟩
        = .next u ∧
      u.buf = t.buf ∧ u.pay = t.pay ∧ u.vbase = t.vbase ∧ u.vlen = t.vlen ∧ u.status.toNat % 8 = t.status.toNat % 8 ∧
      (isGetter i = true → t.status.toNat % 8 = 0 → u.resVal = t.resVal ∧ u.resW = t.resW ∧
        u.resPresent = t.resPresent ∧ u.resOff = t.resOff ∧ u.resLen = t.resLen)

/-- The invariant is kept by every step of the host and of the VWC, from every state that meets it. -/
def Obligations.StepKeepsInvariant : Prop :=
  ∀ s t : State, s.Inv → step s = .next t → t.Inv

/-- From every state that meets the invariant the machine goes on, unless the host's next action names an address that does
not exist (70_reset_and_hazards.md rule R252, log entry 5). -/
def Obligations.StepGoesOn : Prop :=
  ∀ s : State, s.Inv → (∀ a rest, s.host = a :: rest → HostAction.inRange s.cfg a) → Goes (step s)

/-- Every setter is idempotent (20_memory.md rule R55): issued again at once it ends, and leaves BUF and STATUS as after the
first time. -/
def Obligations.SetterIsIdempotent : Prop :=
  ∀ (i : Instr) (s t : State), isSetter i = true → s.ViewInBuf → exec i s = .next t →
    ∃ u, exec i t = .next u ∧ u.status = t.status ∧ ∀ a, u.bufByte a = t.bufByte a

/-- Every getter is idempotent (20_memory.md rule R55): issued again at once it changes nothing. -/
def Obligations.GetterIsIdempotent : Prop :=
  ∀ (i : Instr) (s t : State), isGetter i = true → exec i s = .next t → exec i t = .next t

/-! ## Round trips (95_test_vectors.md section 1.3) -/

/-- What SF.SETSID wrote, SF.SID reads: value and width, whatever the type byte held beside the Stream marker. -/
def Obligations.StreamIdRoundTrip : Prop :=
  ∀ (w : Nat) (sid : Operand) (s : State), s.ViewInBuf → w ∈ [1, 2, 4] → sid.toNat < 2 ^ (8 * w) → s.Stream →
    1 + w ≤ s.vlen.toNat →
    ∃ t, exec (.sfSetSid w sid) s = .next t ∧ exec .sfSid t = .next (t.answered sid.toNat w true 1 w)

/-- What SF.ADDOFF wrote, SF.OFF reads: value and width, and absent for width 0. -/
def Obligations.OffsetRoundTrip : Prop :=
  ∀ (w sw : Nat) (off : Operand) (s : State), s.ViewInBuf → w ∈ [0, 2, 4, 8] → off.toNat < 2 ^ (8 * w) → s.Stream →
    s.sidW = some sw → 1 + sw + w ≤ s.vlen.toNat →
    ∃ t, exec (.sfAddOff w off) s = .next t ∧
      exec .sfOff t = .next (if w = 0 then t.answeredAbsent else t.answered off.toNat w true (1 + sw) w)

/-- What SF.SETDATA wrote, SF.DATA finds, and the bytes it finds are the payload. -/
def Obligations.StreamDataRoundTrip : Prop :=
  ∀ (n : Operand) (sw ow : Nat) (s : State), s.ViewInBuf → 1 ≤ n.toNat → n.toNat ≤ 65535 → n.toNat ≤ s.cfg.payCap →
    s.Stream → s.sidW = some sw → s.offW = some ow → 1 + sw + ow + 2 + n.toNat ≤ s.vlen.toNat →
    ∃ t, exec (.sfSetData n) s = .next t ∧
      exec .sfData t = .next (t.answered n.toNat 2 true (1 + sw + ow + 2) n.toNat) ∧
      ∀ j, j < n.toNat → t.B (1 + sw + ow + 2 + j) = s.payByte j

/-- What PH.SETCID wrote, PH.CID reads, for both admissible CID_CODE. -/
def Obligations.ConnectionIdRoundTrip : Prop :=
  ∀ (w : Nat) (cid : Operand) (s : State), s.ViewInBuf → w ∈ [1, 4, 8] → cid.toNat < 2 ^ (8 * w) →
    1 + w ≤ s.vlen.toNat →
    ∃ t, exec (.phSetCid w cid) s = .next t ∧ exec .phCid t = .next (t.answered cid.toNat w true 1 w)

/-- What PH.SETVER and VN.SETVER wrote, PH.VER and VN.VER read. -/
def Obligations.VersionRoundTrip : Prop :=
  ∀ (ver index : Operand) (s : State), s.ViewInBuf → ver.toNat < 2 ^ 32 → index.toNat < 2 ^ 32 →
    (1 + s.cidW + 4 ≤ s.vlen.toNat →
      ∃ t, exec (.phSetVer ver) s = .next t ∧
        exec .phVer t = .next (t.answered ver.toNat 4 true (1 + s.cidW) 4)) ∧
    (s.hdrL true + 4 * index.toNat + 4 ≤ s.vlen.toNat →
      ∃ t, exec (.vnSetVer index ver) s = .next t ∧
        exec (.vnVer index) t = .next (t.answered ver.toNat 4 true (s.hdrL true + 4 * index.toNat) 4))

/-- What PH.SETPN wrote, PH.PN reads in the same mode. -/
def Obligations.PacketNumberRoundTrip : Prop :=
  ∀ (w : Nat) (special : Bool) (pn : Operand) (s : State), s.ViewInBuf → w ∈ [1, 2, 4, 6] →
    ¬(special = true ∧ w = 1) → pn.toNat < 2 ^ (8 * w) → 1 + s.cidW + s.verW special + w ≤ s.vlen.toNat →
    ∃ t, exec (.phSetPn w special pn) s = .next t ∧
      exec (.phPn special) t = .next (t.answered pn.toNat w true (1 + s.cidW + s.verW special) w)

/-- PR.SETCID is PH.SETCID.8 and then PH.SETFLAGS 0x02 in one step (44_packet_kinds.md rule R191), VN.SETCID the same with
0x01 (rule R200). -/
def Obligations.KindSettersAreTwoSteps : Prop :=
  ∀ (cid : Operand) (s : State), s.Inv → 9 ≤ s.vlen.toNat →
    ∃ t u v, exec (.phSetCid 8 cid) s = .next t ∧ exec (.phSetFlags 0x02) t = .next u ∧
      exec (.phSetFlags 0x01) t = .next v ∧ exec (.prSetCid cid) s = .next u ∧ exec (.vnSetCid cid) s = .next v

/-- A stream frame with a payload of at least one byte, written in wire order (70_reset_and_hazards.md rule R243), is the
layout of 30_encoding.md rule R86, and SF.LEN is then its length. A frame without a data field is not the subject:
SfSetDataWritesPayload and SfLenIsFrameLength cover it. -/
def Obligations.StreamFrameBuildsLayout : Prop :=
  ∀ (sw ow : Nat) (sid off n : Operand) (s : State), s.ViewInBuf → sw ∈ [1, 2, 4] → ow ∈ [0, 2, 4, 8] →
    sid.toNat < 2 ^ (8 * sw) → off.toNat < 2 ^ (8 * ow) → 1 ≤ n.toNat → n.toNat ≤ 65535 → n.toNat ≤ s.cfg.payCap →
    1 + sw + ow + 2 + n.toNat ≤ s.vlen.toNat →
    ∃ t, execAll [.ftSetKind 0x80, .sfSetSid sw sid, .sfAddOff ow off, .sfSetData n] s = .next t ∧
      t = { s with status := s.status &&& 0x80, buf := t.buf } ∧
      (t.B 0).toNat = 0x80 + 0x20 + 4 * (if ow = 0 then 0 else ow - 1) + (sw - 1) ∧
      (∀ j, j < sw → t.B (1 + j) = byteOf sid.toNat j) ∧
      (∀ j, j < ow → t.B (1 + sw + j) = byteOf off.toNat j) ∧
      (∀ j, j < 2 → t.B (1 + sw + ow + j) = byteOf n.toNat j) ∧
      (∀ j, j < n.toNat → t.B (1 + sw + ow + 2 + j) = s.payByte j) ∧
      (∀ a, ¬(s.vbase.toNat ≤ a ∧ a < s.vbase.toNat + (1 + sw + ow + 2 + n.toNat)) → t.bufByte a = s.bufByte a) ∧
      exec .sfLen t =
        .next (t.answered (1 + sw + ow + 2 + n.toNat) 0 true 0 (1 + sw + ow + 2 + n.toNat))

/-- VN.SETVERS of a non-empty list that fits the view writes the list in order, directly after the header, and nothing else
(30_encoding.md rule R118, 44_packet_kinds.md rule R201). No command fails here, so the stop at the first failure is not
the subject. -/
def Obligations.VersionListWrittenInOrder : Prop :=
  ∀ (versions : List Operand) (s : State), s.ViewInBuf → 1 ≤ versions.length →
    (∀ v ∈ versions, v.toNat < 2 ^ 32) → s.hdrL true + 4 * versions.length ≤ s.vlen.toNat →
    ∃ t, execPseudo (.vnSetVers versions) s = .next t ∧ t = { s with status := s.status &&& 0x80, buf := t.buf } ∧
      (∀ k v, versions[k]? = some v → t.fieldValue (s.hdrL true + 4 * k) 4 = v.toNat) ∧
      ∀ a, ¬(s.vbase.toNat + s.hdrL true ≤ a ∧ a < s.vbase.toNat + s.hdrL true + 4 * versions.length) →
        t.bufByte a = s.bufByte a
end

