-- ==== Sys2Proof/Laws/Flags.lean ====
section
/-! SUPPORT. The width functions and flag setters of Machine/Flags.lean against the tables of 30_encoding.md. -/

namespace Sys2Proof.Machine

theorem streamFlags_sidCode (b : Byte) : sidCode (streamFlags b) = b.toNat % 4 := by
  revert b; decide

theorem streamFlags_offCode (b : Byte) : offCode (streamFlags b) = b.toNat / 4 % 8 := by
  revert b; decide

theorem streamFlags_hasData (b : Byte) : hasData (streamFlags b) = b.getLsbD 5 := by
  revert b; decide

/-- `sid_w` is table R90. -/
theorem sidWidth_of_some {s : State} {w : Nat} (h : s.sidW = some w) : sidWidth (streamFlags (s.B 0)) = .ok w := by
  unfold State.sidW sidWidthTable at h
  unfold sidWidth
  rw [streamFlags_sidCode]
  split at h <;> cases h <;> simp_all

theorem sidWidth_of_none {s : State} (h : s.sidW = none) :
    sidWidth (streamFlags (s.B 0)) = .error (.failure .unrecognizedFlagCombination) := by
  unfold State.sidW sidWidthTable at h
  unfold sidWidth
  rw [streamFlags_sidCode]
  split at h <;> simp_all
  omega

/-- `off_w` is table R91. -/
theorem offWidth_of_some {s : State} {w : Nat} (h : s.offW = some w) : offWidth (streamFlags (s.B 0)) = .ok w := by
  unfold State.offW offWidthTable at h
  unfold offWidth
  rw [streamFlags_offCode]
  split at h <;> simp_all

theorem offWidth_of_none {s : State} (h : s.offW = none) :
    offWidth (streamFlags (s.B 0)) = .error (.failure .unrecognizedFlagCombination) := by
  unfold State.offW offWidthTable at h
  unfold offWidth
  rw [streamFlags_offCode]
  split at h <;> simp_all

theorem sidW_range {s : State} {w : Nat} (h : s.sidW = some w) : w = 1 ∨ w = 2 ∨ w = 4 := by
  unfold State.sidW sidWidthTable at h
  split at h <;> simp_all

theorem offW_range {s : State} {w : Nat} (h : s.offW = some w) : w = 0 ∨ w = 2 ∨ w = 4 ∨ w = 8 := by
  unfold State.offW offWidthTable at h
  split at h <;> simp_all

/-- `cid_w` is table R96, for both admissible CID_CODE. -/
theorem cidWidth_eq (s : State) : cidWidth s.cfg.cidMap (s.B 0) = s.cidW := by
  unfold State.cidW
  generalize s.cfg.cidMap = m
  generalize s.B 0 = b
  revert b
  cases m <;> decide

/-- `ver_w` is rule R97. -/
theorem verWidth_eq (s : State) (special : Bool) : verWidth (s.B 0) special = s.verW special := by
  unfold verWidth State.verW hasVersion State.Version
  cases special <;> simp

/-- `pn_w` is table R98. -/
theorem pnWidth_eq (s : State) (special : Bool) : pnWidth (s.B 0) special = s.pnW special := by
  unfold State.pnW
  generalize s.B 0 = b
  revert b
  cases special <;> decide

/-- `hdr_len` is rule R99. -/
theorem hdrLen_eq (s : State) (special : Bool) : hdrLen s.cfg.cidMap (s.B 0) special = s.hdrL special := by
  unfold hdrLen State.hdrL
  rw [cidWidth_eq, verWidth_eq, pnWidth_eq]

theorem cidW_range (s : State) : s.cidW = 0 ∨ s.cidW = 1 ∨ s.cidW = 4 ∨ s.cidW = 8 := by
  rw [← cidWidth_eq]
  unfold cidWidth
  split
  · simp
  · split
    · simp
    · split <;> simp

theorem verW_range (s : State) (special : Bool) : s.verW special = 0 ∨ s.verW special = 4 := by
  unfold State.verW
  split <;> simp

theorem pnW_range (s : State) (special : Bool) :
    s.pnW special = 0 ∨ s.pnW special = 1 ∨ s.pnW special = 2 ∨ s.pnW special = 4 ∨ s.pnW special = 6 := by
  rw [← pnWidth_eq]
  generalize s.B 0 = b
  revert b
  cases special <;> decide

/-- A header is 1 to 19 bytes long (30_encoding.md rule R99). -/
theorem hdrL_range (s : State) (special : Bool) : 1 ≤ s.hdrL special ∧ s.hdrL special ≤ 19 := by
  have h1 := cidW_range s
  have h2 := verW_range s special
  have h3 := pnW_range s special
  unfold State.hdrL
  omega

end Sys2Proof.Machine
end

