-- ==== Sys2Proof/Laws/Bytes.lean ====
section
/-! SUPPORT. The laws of little-endian values (20_memory.md rules R50, R51). -/

namespace Sys2Proof.Machine

@[simp] theorem leBytes_length (n v : Nat) : (leBytes n v).length = n := by
  induction n generalizing v with
  | zero => rfl
  | succ n ih => simp [leBytes, ih]

/-- Byte `j` of the little-endian form. -/
theorem leBytes_getElem? (n v j : Nat) (h : j < n) : (leBytes n v)[j]? = some (byteOf v j) := by
  induction n generalizing v j with
  | zero => omega
  | succ n ih =>
    cases j with
    | zero => simp [leBytes, byteOf]
    | succ j =>
      have hs : (v / 256) >>> (8 * j) = v >>> (8 * (j + 1)) := by
        rw [Nat.shiftRight_eq_div_pow, Nat.shiftRight_eq_div_pow, Nat.div_div_eq_div_mul,
          show 8 * (j + 1) = 8 + 8 * j by ring, pow_add]
        rfl
      simp [leBytes, ih (v / 256) j (by omega), byteOf, hs]

theorem leValue_lt (bs : List Byte) : leValue bs < 256 ^ bs.length := by
  induction bs with
  | nil => simp [leValue]
  | cons b bs ih =>
    have hb := b.isLt
    simp only [leValue, List.length_cons, pow_succ]
    omega

/-- Reading back the bytes of a value gives its low bits. -/
theorem leValue_leBytes (n v : Nat) : leValue (leBytes n v) = v % 256 ^ n := by
  induction n generalizing v with
  | zero => simp [leBytes, leValue, Nat.mod_one]
  | succ n ih =>
    simp only [leBytes, leValue, ih, BitVec.toNat_ofNat]
    have h := Nat.mod_mul (a := 256) (b := 256 ^ n) (x := v)
    rw [show 256 ^ (n + 1) = 256 * 256 ^ n by ring, h]

/-- A value that fits its width is read back (20_memory.md rule R50). -/
theorem leValue_leBytes_of_fits {n v : Nat} (h : v < 2 ^ (8 * n)) : leValue (leBytes n v) = v := by
  have h2 : (2 : Nat) ^ (8 * n) = 256 ^ n := by rw [pow_mul]; rfl
  rw [leValue_leBytes, Nat.mod_eq_of_lt (h2 ▸ h)]

theorem leValue_append (bs cs : List Byte) : leValue (bs ++ cs) = leValue bs + 256 ^ bs.length * leValue cs := by
  induction bs with
  | nil => simp [leValue]
  | cons b bs ih =>
    simp only [List.cons_append, leValue, ih, List.length_cons, pow_succ]
    ring

/-- The bytes of the view as a number, as the claims write it (00_scope.md rule R8). -/
theorem leValue_view (s : State) (off n : Nat) :
    leValue ((List.range n).map fun j => s.B (off + j)) = s.fieldValue off n := by
  induction n with
  | zero => rfl
  | succ n ih =>
    rw [List.range_succ, List.map_append, leValue_append, ih]
    have h2 : (2 : Nat) ^ (8 * n) = 256 ^ n := by rw [pow_mul]; rfl
    simp [State.fieldValue, leValue, h2]

theorem fieldValue_lt (s : State) (off n : Nat) : s.fieldValue off n < 2 ^ (8 * n) := by
  have h := leValue_lt ((List.range n).map fun j => s.B (off + j))
  have h2 : (2 : Nat) ^ (8 * n) = 256 ^ n := by rw [pow_mul]; rfl
  rw [leValue_view] at h
  simpa [h2] using h

/-- A field whose bytes are those of `v` has the value `v`. -/
theorem fieldValue_of_bytes (s : State) (off n v : Nat) (hv : v < 2 ^ (8 * n))
    (h : ∀ j, j < n → s.B (off + j) = byteOf v j) : s.fieldValue off n = v := by
  have hb : (List.range n).map (fun j => s.B (off + j)) = leBytes n v := by
    apply List.ext_getElem?
    intro j
    by_cases hj : j < n
    · rw [leBytes_getElem? n v j hj]
      simp [hj, h j hj]
    · have h1 : n ≤ j := by omega
      simp [h1]
  rw [← leValue_view, hb, leValue_leBytes_of_fits hv]

/-- The 4 + 2 split of a 6-byte packet number reads as the 6-byte little-endian number (20_memory.md rule R51). -/
theorem fieldValue_six (s : State) (off : Nat) :
    s.fieldValue off 4 ||| (s.fieldValue (off + 4) 2 <<< 32) = s.fieldValue off 6 := by
  have h4 : s.fieldValue off 4 < 2 ^ 32 := fieldValue_lt s off 4
  rw [Nat.or_comm, ← Nat.shiftLeft_add_eq_or_of_lt h4, Nat.shiftLeft_eq]
  simp only [State.fieldValue, Nat.add_assoc, Nat.reduceAdd]
  ring

/-- The 4 + 2 split of a 6-byte packet number writes its six little-endian bytes (20_memory.md rule R51). -/
theorem leBytes_six (v : Nat) : leBytes 4 (v % 2 ^ 32) ++ leBytes 2 (v / 2 ^ 32) = leBytes 6 v := by
  simp only [leBytes, List.cons_append, List.nil_append, List.cons.injEq, and_true]
  refine ⟨?_, ?_, ?_, ?_, ?_, ?_⟩ <;> (apply BitVec.eq_of_toNat_eq; simp only [BitVec.toNat_ofNat]; omega)

end Sys2Proof.Machine
end

