-- ==== Sys2Proof/Laws/Memory.lean ====
section
/-! SUPPORT. The laws of byte memories: read after write, the frame, and that every operation keeps the canonical form
and the capacity. -/

namespace Sys2Proof.Machine

@[simp] theorem Memory.lookup_nil (a : Nat) : Memory.lookup [] a = none := rfl

@[simp] theorem Memory.storeList_nil (m : Memory) (a : Nat) : Memory.storeList m a [] = m := rfl

theorem Memory.storeList_cons (m : Memory) (a : Nat) (b : Byte) (bs : List Byte) :
    Memory.storeList m a (b :: bs) = Memory.storeList (Memory.store m a b) (a + 1) bs := rfl

/-- No address at or below a lower bound is listed. -/
theorem Memory.lookup_of_above {m : Memory} {k a : Nat} (h : Memory.above k m = true) (ha : a ≤ k) :
    Memory.lookup m a = none := by
  induction m with
  | nil => rfl
  | cons c m ih =>
    simp only [Memory.above, Bool.and_eq_true, decide_eq_true_eq] at h
    have hne : c.1 ≠ a := by omega
    simp [Memory.lookup, hne, ih h.2]

/-- Read after write, at the address written. -/
theorem Memory.lookup_store_same (m : Memory) (a : Nat) (b : Byte) :
    Memory.lookup (Memory.store m a b) a = some b := by
  induction m with
  | nil => simp [Memory.store, Memory.lookup]
  | cons c m ih =>
    simp only [Memory.store]
    split
    · simp [Memory.lookup]
    · split
      · simp [Memory.lookup]
      · have hne : c.1 ≠ a := fun h => by omega
        simp [Memory.lookup, hne, ih]

/-- Read after write, elsewhere. -/
theorem Memory.lookup_store_ne (m : Memory) {a a' : Nat} (b : Byte) (h : a' ≠ a) :
    Memory.lookup (Memory.store m a b) a' = Memory.lookup m a' := by
  induction m with
  | nil => simp [Memory.store, Memory.lookup, Ne.symm h]
  | cons c m ih =>
    simp only [Memory.store]
    split
    · simp [Memory.lookup, Ne.symm h]
    · split
      · rename_i hc
        have hne : c.1 ≠ a' := by omega
        simp [Memory.lookup, Ne.symm h, hne]
      · simp [Memory.lookup, ih]

theorem Memory.lookup_store (m : Memory) (a a' : Nat) (b : Byte) :
    Memory.lookup (Memory.store m a b) a' = if a' = a then some b else Memory.lookup m a' := by
  split
  · rename_i h; rw [h, Memory.lookup_store_same]
  · rename_i h; rw [Memory.lookup_store_ne m b h]

/-- Everything a write of a byte list does to a reading. -/
theorem Memory.lookup_storeList (m : Memory) (a : Nat) (bs : List Byte) (x : Nat) :
    Memory.lookup (Memory.storeList m a bs) x =
      if a ≤ x ∧ x < a + bs.length then bs[x - a]? else Memory.lookup m x := by
  induction bs generalizing m a with
  | nil =>
    have : ¬(a ≤ x ∧ x < a + ([] : List Byte).length) := by simp
    rw [if_neg this, Memory.storeList_nil]
  | cons b bs ih =>
    rw [Memory.storeList_cons, ih, Memory.lookup_store]
    simp only [List.length_cons]
    by_cases hx : x = a
    · subst hx
      simp
    · by_cases hin : a + 1 ≤ x ∧ x < a + 1 + bs.length
      · have h2 : a ≤ x ∧ x < a + (bs.length + 1) := by omega
        have h3 : x - a = (x - (a + 1)) + 1 := by omega
        rw [if_pos hin, if_pos h2, h3, List.getElem?_cons_succ]
      · have h2 : ¬(a ≤ x ∧ x < a + (bs.length + 1)) := by omega
        rw [if_neg hin, if_neg h2, if_neg hx]

/-- Two adjacent writes are one. -/
theorem Memory.storeList_append (m : Memory) (a : Nat) (bs cs : List Byte) :
    Memory.storeList m a (bs ++ cs) = Memory.storeList (Memory.storeList m a bs) (a + bs.length) cs := by
  induction bs generalizing m a with
  | nil => rfl
  | cons b bs ih =>
    rw [List.cons_append, Memory.storeList_cons, ih, Memory.storeList_cons, List.length_cons]
    congr 1
    omega

/-- A write of a byte list leaves every address outside it. -/
theorem Memory.lookup_storeList_outside (m : Memory) (a : Nat) (bs : List Byte) {x : Nat}
    (h : ¬(a ≤ x ∧ x < a + bs.length)) : Memory.lookup (Memory.storeList m a bs) x = Memory.lookup m x := by
  rw [Memory.lookup_storeList, if_neg h]

/-! ## The canonical form -/

theorem Memory.above_store {m : Memory} {k a : Nat} {b : Byte} (h : Memory.above k m = true) (ha : k < a) :
    Memory.above k (Memory.store m a b) = true := by
  induction m with
  | nil => simp [Memory.store, Memory.above, ha]
  | cons c m ih =>
    simp only [Memory.above, Bool.and_eq_true, decide_eq_true_eq] at h
    simp only [Memory.store]
    split
    · simp [Memory.above, ha, h.1, h.2]
    · split
      · simp [Memory.above, ha, h.2]
      · simp [Memory.above, h.1, ih h.2]

theorem Memory.above_mono {m : Memory} {k k' : Nat} (h : Memory.above k m = true) (hk : k' ≤ k) :
    Memory.above k' m = true := by
  induction m with
  | nil => rfl
  | cons c m ih =>
    simp only [Memory.above, Bool.and_eq_true, decide_eq_true_eq] at h ⊢
    exact ⟨by omega, ih h.2⟩

/-- A write of one byte keeps the canonical form. -/
theorem Memory.wf_store {m : Memory} (a : Nat) (b : Byte) (h : Memory.wf m = true) :
    Memory.wf (Memory.store m a b) = true := by
  induction m with
  | nil => simp [Memory.store, Memory.wf, Memory.above]
  | cons c m ih =>
    simp only [Memory.wf, Bool.and_eq_true] at h
    simp only [Memory.store]
    split
    · rename_i hlt
      simp only [Memory.wf, Memory.above, Bool.and_eq_true, decide_eq_true_eq]
      exact ⟨⟨hlt, Memory.above_mono h.1 (by omega)⟩, h⟩
    · split
      · rename_i heq
        simp only [Memory.wf, Bool.and_eq_true]
        exact ⟨heq ▸ h.1, h.2⟩
      · simp only [Memory.wf, Bool.and_eq_true]
        exact ⟨Memory.above_store h.1 (by omega), ih h.2⟩

/-- A write of a byte list keeps the canonical form. -/
theorem Memory.wf_storeList {m : Memory} (a : Nat) (bs : List Byte) (h : Memory.wf m = true) :
    Memory.wf (Memory.storeList m a bs) = true := by
  induction bs generalizing m a with
  | nil => exact h
  | cons b bs ih => exact ih (a + 1) (Memory.wf_store a b h)

/-- A write of one byte below the capacity keeps every address below it. -/
theorem Memory.within_store {m : Memory} {cap a : Nat} (b : Byte) (h : Memory.within cap m = true) (ha : a < cap) :
    Memory.within cap (Memory.store m a b) = true := by
  induction m with
  | nil => simp [Memory.store, Memory.within, ha]
  | cons c m ih =>
    simp only [Memory.within, Bool.and_eq_true, decide_eq_true_eq] at h
    simp only [Memory.store]
    split
    · simp [Memory.within, ha, h.1, h.2]
    · split
      · simp [Memory.within, ha, h.2]
      · simp [Memory.within, h.1, ih h.2]

/-- A write of a byte list below the capacity keeps every address below it. -/
theorem Memory.within_storeList {m : Memory} {cap : Nat} (a : Nat) (bs : List Byte) (h : Memory.within cap m = true)
    (ha : bs = [] ∨ a + bs.length ≤ cap) : Memory.within cap (Memory.storeList m a bs) = true := by
  induction bs generalizing m a with
  | nil => exact h
  | cons b bs ih =>
    have hlen : a + (bs.length + 1) ≤ cap := by simpa using ha
    exact ih (a + 1) (Memory.within_store b h (by omega)) (Or.inr (by omega))

/-- Memories in canonical form that read the same everywhere are the same list. -/
theorem Memory.ext_of_wf {m m' : Memory} (h : Memory.wf m = true) (h' : Memory.wf m' = true)
    (hl : ∀ a, Memory.lookup m a = Memory.lookup m' a) : m = m' := by
  induction m generalizing m' with
  | nil =>
    cases m' with
    | nil => rfl
    | cons c' m' => have := hl c'.1; simp [Memory.lookup] at this
  | cons c m ih =>
    cases m' with
    | nil => have := hl c.1; simp [Memory.lookup] at this
    | cons c' m' =>
      obtain ⟨k, b⟩ := c
      obtain ⟨k', b'⟩ := c'
      simp only [Memory.wf, Bool.and_eq_true] at h h'
      have hk : k = k' := by
        rcases Nat.lt_trichotomy k k' with hlt | heq | hgt
        · have h1 := hl k
          have hne : k' ≠ k := by omega
          simp [Memory.lookup, hne, Memory.lookup_of_above h'.1 (le_of_lt hlt)] at h1
        · exact heq
        · have h1 := hl k'
          have hne : k ≠ k' := by omega
          simp [Memory.lookup, hne, Memory.lookup_of_above h.1 (le_of_lt hgt)] at h1
      subst hk
      have hb : b = b' := by
        have h1 := hl k
        simpa [Memory.lookup] using h1
      subst hb
      have hm : m = m' := by
        refine ih h.2 h'.2 fun a => ?_
        by_cases ha : k = a
        · subst ha
          rw [Memory.lookup_of_above h.1 le_rfl, Memory.lookup_of_above h'.1 le_rfl]
        · have h1 := hl a
          simpa [Memory.lookup, ha] using h1
      rw [hm]

end Sys2Proof.Machine
end

