-- ==== Sys2Proof/Laws/State.lean ====
section
/-! SUPPORT. One lemma per field per update of the state, true by rfl, so that no proof unfolds an update. -/

namespace Sys2Proof.Machine

variable (s : State)

@[simp] theorem State.raiseFailure_cfg (f : Failure) : (s.raiseFailure f).cfg = s.cfg := rfl
@[simp] theorem State.raiseFailure_host (f : Failure) : (s.raiseFailure f).host = s.host := rfl
@[simp] theorem State.raiseFailure_epoch (f : Failure) : (s.raiseFailure f).epoch = s.epoch := rfl
@[simp] theorem State.raiseFailure_buf (f : Failure) : (s.raiseFailure f).buf = s.buf := rfl
@[simp] theorem State.raiseFailure_pay (f : Failure) : (s.raiseFailure f).pay = s.pay := rfl
@[simp] theorem State.raiseFailure_vbase (f : Failure) : (s.raiseFailure f).vbase = s.vbase := rfl
@[simp] theorem State.raiseFailure_vlen (f : Failure) : (s.raiseFailure f).vlen = s.vlen := rfl
@[simp] theorem State.raiseFailure_status (f : Failure) : (s.raiseFailure f).status = statusOnFailure f := rfl
@[simp] theorem State.raiseFailure_resVal (f : Failure) : (s.raiseFailure f).resVal = s.resVal := rfl
@[simp] theorem State.raiseFailure_resW (f : Failure) : (s.raiseFailure f).resW = s.resW := rfl
@[simp] theorem State.raiseFailure_resPresent (f : Failure) : (s.raiseFailure f).resPresent = s.resPresent := rfl
@[simp] theorem State.raiseFailure_resOff (f : Failure) : (s.raiseFailure f).resOff = s.resOff := rfl
@[simp] theorem State.raiseFailure_resLen (f : Failure) : (s.raiseFailure f).resLen = s.resLen := rfl

@[simp] theorem State.raiseFailure_bufByte (f : Failure) (a : Nat) : (s.raiseFailure f).bufByte a = s.bufByte a := rfl
@[simp] theorem State.raiseFailure_payByte (f : Failure) (a : Nat) : (s.raiseFailure f).payByte a = s.payByte a := rfl

@[simp] theorem State.succeed_cfg : (s.succeed).cfg = s.cfg := rfl
@[simp] theorem State.succeed_host : (s.succeed).host = s.host := rfl
@[simp] theorem State.succeed_epoch : (s.succeed).epoch = s.epoch := rfl
@[simp] theorem State.succeed_buf : (s.succeed).buf = s.buf := rfl
@[simp] theorem State.succeed_pay : (s.succeed).pay = s.pay := rfl
@[simp] theorem State.succeed_vbase : (s.succeed).vbase = s.vbase := rfl
@[simp] theorem State.succeed_vlen : (s.succeed).vlen = s.vlen := rfl
@[simp] theorem State.succeed_status : (s.succeed).status = statusOnSuccess s.status := rfl
@[simp] theorem State.succeed_resVal : (s.succeed).resVal = s.resVal := rfl
@[simp] theorem State.succeed_resW : (s.succeed).resW = s.resW := rfl
@[simp] theorem State.succeed_resPresent : (s.succeed).resPresent = s.resPresent := rfl
@[simp] theorem State.succeed_resOff : (s.succeed).resOff = s.resOff := rfl
@[simp] theorem State.succeed_resLen : (s.succeed).resLen = s.resLen := rfl

@[simp] theorem State.succeed_bufByte (a : Nat) : (s.succeed).bufByte a = s.bufByte a := rfl
@[simp] theorem State.succeed_payByte (a : Nat) : (s.succeed).payByte a = s.payByte a := rfl

@[simp] theorem State.withResult_cfg (r : Result) : (s.withResult r).cfg = s.cfg := rfl
@[simp] theorem State.withResult_host (r : Result) : (s.withResult r).host = s.host := rfl
@[simp] theorem State.withResult_epoch (r : Result) : (s.withResult r).epoch = s.epoch := rfl
@[simp] theorem State.withResult_buf (r : Result) : (s.withResult r).buf = s.buf := rfl
@[simp] theorem State.withResult_pay (r : Result) : (s.withResult r).pay = s.pay := rfl
@[simp] theorem State.withResult_vbase (r : Result) : (s.withResult r).vbase = s.vbase := rfl
@[simp] theorem State.withResult_vlen (r : Result) : (s.withResult r).vlen = s.vlen := rfl
@[simp] theorem State.withResult_status (r : Result) : (s.withResult r).status = s.status := rfl
@[simp] theorem State.withResult_resVal (r : Result) : (s.withResult r).resVal = BitVec.ofNat 64 r.val := rfl
@[simp] theorem State.withResult_resW (r : Result) : (s.withResult r).resW = BitVec.ofNat 4 r.w := rfl
@[simp] theorem State.withResult_resPresent (r : Result) : (s.withResult r).resPresent = r.present := rfl
@[simp] theorem State.withResult_resOff (r : Result) : (s.withResult r).resOff = BitVec.ofNat 32 r.off := rfl
@[simp] theorem State.withResult_resLen (r : Result) : (s.withResult r).resLen = BitVec.ofNat 32 r.len := rfl

@[simp] theorem State.withResult_bufByte (r : Result) (a : Nat) : (s.withResult r).bufByte a = s.bufByte a := rfl
@[simp] theorem State.withResult_payByte (r : Result) (a : Nat) : (s.withResult r).payByte a = s.payByte a := rfl

@[simp] theorem State.failed_cfg (code : Nat) : (s.failed code).cfg = s.cfg := rfl
@[simp] theorem State.failed_host (code : Nat) : (s.failed code).host = s.host := rfl
@[simp] theorem State.failed_epoch (code : Nat) : (s.failed code).epoch = s.epoch := rfl
@[simp] theorem State.failed_buf (code : Nat) : (s.failed code).buf = s.buf := rfl
@[simp] theorem State.failed_pay (code : Nat) : (s.failed code).pay = s.pay := rfl
@[simp] theorem State.failed_vbase (code : Nat) : (s.failed code).vbase = s.vbase := rfl
@[simp] theorem State.failed_vlen (code : Nat) : (s.failed code).vlen = s.vlen := rfl
@[simp] theorem State.failed_status (code : Nat) : (s.failed code).status = BitVec.ofNat 8 (0x80 + code) := rfl
@[simp] theorem State.failed_resVal (code : Nat) : (s.failed code).resVal = s.resVal := rfl
@[simp] theorem State.failed_resW (code : Nat) : (s.failed code).resW = s.resW := rfl
@[simp] theorem State.failed_resPresent (code : Nat) : (s.failed code).resPresent = s.resPresent := rfl
@[simp] theorem State.failed_resOff (code : Nat) : (s.failed code).resOff = s.resOff := rfl
@[simp] theorem State.failed_resLen (code : Nat) : (s.failed code).resLen = s.resLen := rfl

@[simp] theorem State.failed_bufByte (code : Nat) (a : Nat) : (s.failed code).bufByte a = s.bufByte a := rfl
@[simp] theorem State.failed_payByte (code : Nat) (a : Nat) : (s.failed code).payByte a = s.payByte a := rfl

@[simp] theorem State.answered_cfg (val w : Nat) (present : Bool) (off len : Nat) : (s.answered val w present off len).cfg = s.cfg := rfl
@[simp] theorem State.answered_host (val w : Nat) (present : Bool) (off len : Nat) : (s.answered val w present off len).host = s.host := rfl
@[simp] theorem State.answered_epoch (val w : Nat) (present : Bool) (off len : Nat) : (s.answered val w present off len).epoch = s.epoch := rfl
@[simp] theorem State.answered_buf (val w : Nat) (present : Bool) (off len : Nat) : (s.answered val w present off len).buf = s.buf := rfl
@[simp] theorem State.answered_pay (val w : Nat) (present : Bool) (off len : Nat) : (s.answered val w present off len).pay = s.pay := rfl
@[simp] theorem State.answered_vbase (val w : Nat) (present : Bool) (off len : Nat) : (s.answered val w present off len).vbase = s.vbase := rfl
@[simp] theorem State.answered_vlen (val w : Nat) (present : Bool) (off len : Nat) : (s.answered val w present off len).vlen = s.vlen := rfl
@[simp] theorem State.answered_status (val w : Nat) (present : Bool) (off len : Nat) : (s.answered val w present off len).status = s.status &&& 0x80 := rfl
@[simp] theorem State.answered_resVal (val w : Nat) (present : Bool) (off len : Nat) : (s.answered val w present off len).resVal = BitVec.ofNat 64 val := rfl
@[simp] theorem State.answered_resW (val w : Nat) (present : Bool) (off len : Nat) : (s.answered val w present off len).resW = BitVec.ofNat 4 w := rfl
@[simp] theorem State.answered_resPresent (val w : Nat) (present : Bool) (off len : Nat) : (s.answered val w present off len).resPresent = present := rfl
@[simp] theorem State.answered_resOff (val w : Nat) (present : Bool) (off len : Nat) : (s.answered val w present off len).resOff = BitVec.ofNat 32 off := rfl
@[simp] theorem State.answered_resLen (val w : Nat) (present : Bool) (off len : Nat) : (s.answered val w present off len).resLen = BitVec.ofNat 32 len := rfl

@[simp] theorem State.answered_bufByte (val w : Nat) (present : Bool) (off len : Nat) (a : Nat) : (s.answered val w present off len).bufByte a = s.bufByte a := rfl
@[simp] theorem State.answered_payByte (val w : Nat) (present : Bool) (off len : Nat) (a : Nat) : (s.answered val w present off len).payByte a = s.payByte a := rfl

@[simp] theorem State.succeeded_cfg : s.succeeded.cfg = s.cfg := rfl
@[simp] theorem State.succeeded_host : s.succeeded.host = s.host := rfl
@[simp] theorem State.succeeded_epoch : s.succeeded.epoch = s.epoch := rfl
@[simp] theorem State.succeeded_buf : s.succeeded.buf = s.buf := rfl
@[simp] theorem State.succeeded_pay : s.succeeded.pay = s.pay := rfl
@[simp] theorem State.succeeded_vbase : s.succeeded.vbase = s.vbase := rfl
@[simp] theorem State.succeeded_vlen : s.succeeded.vlen = s.vlen := rfl
@[simp] theorem State.succeeded_resVal : s.succeeded.resVal = s.resVal := rfl
@[simp] theorem State.succeeded_resW : s.succeeded.resW = s.resW := rfl
@[simp] theorem State.succeeded_resPresent : s.succeeded.resPresent = s.resPresent := rfl
@[simp] theorem State.succeeded_resOff : s.succeeded.resOff = s.resOff := rfl
@[simp] theorem State.succeeded_resLen : s.succeeded.resLen = s.resLen := rfl
@[simp] theorem State.succeeded_status : s.succeeded.status = s.status &&& 0x80 := rfl

@[simp] theorem State.succeeded_bufByte (a : Nat) : s.succeeded.bufByte a = s.bufByte a := rfl
@[simp] theorem State.succeeded_payByte (a : Nat) : s.succeeded.payByte a = s.payByte a := rfl

@[simp] theorem State.withFetchWord_cfg (nbits w : Nat) : (s.withFetchWord nbits w).cfg = s.cfg := rfl
@[simp] theorem State.withFetchWord_host (nbits w : Nat) : (s.withFetchWord nbits w).host = .command (Transaction.ofBits nbits w) :: s.host := rfl
@[simp] theorem State.withFetchWord_epoch (nbits w : Nat) : (s.withFetchWord nbits w).epoch = s.epoch := rfl
@[simp] theorem State.withFetchWord_buf (nbits w : Nat) : (s.withFetchWord nbits w).buf = s.buf := rfl
@[simp] theorem State.withFetchWord_pay (nbits w : Nat) : (s.withFetchWord nbits w).pay = s.pay := rfl
@[simp] theorem State.withFetchWord_vbase (nbits w : Nat) : (s.withFetchWord nbits w).vbase = s.vbase := rfl
@[simp] theorem State.withFetchWord_vlen (nbits w : Nat) : (s.withFetchWord nbits w).vlen = s.vlen := rfl
@[simp] theorem State.withFetchWord_status (nbits w : Nat) : (s.withFetchWord nbits w).status = s.status := rfl
@[simp] theorem State.withFetchWord_resVal (nbits w : Nat) : (s.withFetchWord nbits w).resVal = s.resVal := rfl
@[simp] theorem State.withFetchWord_resW (nbits w : Nat) : (s.withFetchWord nbits w).resW = s.resW := rfl
@[simp] theorem State.withFetchWord_resPresent (nbits w : Nat) : (s.withFetchWord nbits w).resPresent = s.resPresent := rfl
@[simp] theorem State.withFetchWord_resOff (nbits w : Nat) : (s.withFetchWord nbits w).resOff = s.resOff := rfl
@[simp] theorem State.withFetchWord_resLen (nbits w : Nat) : (s.withFetchWord nbits w).resLen = s.resLen := rfl

@[simp] theorem State.withFetchWord_bufByte (nbits w : Nat) (a : Nat) : (s.withFetchWord nbits w).bufByte a = s.bufByte a := rfl
@[simp] theorem State.withFetchWord_payByte (nbits w : Nat) (a : Nat) : (s.withFetchWord nbits w).payByte a = s.payByte a := rfl

/-! The state after reset (10_state.md rule R30). -/

@[simp] theorem State.resetWith_cfg (p : Params) : (State.resetWith p).cfg = p := rfl
@[simp] theorem State.resetWith_host (p : Params) : (State.resetWith p).host = [] := rfl
@[simp] theorem State.resetWith_epoch (p : Params) : (State.resetWith p).epoch = 0 := rfl
@[simp] theorem State.resetWith_buf (p : Params) : (State.resetWith p).buf = [] := rfl
@[simp] theorem State.resetWith_pay (p : Params) : (State.resetWith p).pay = [] := rfl
@[simp] theorem State.resetWith_vbase (p : Params) : (State.resetWith p).vbase = 0 := rfl
@[simp] theorem State.resetWith_vlen (p : Params) : (State.resetWith p).vlen = 0 := rfl
@[simp] theorem State.resetWith_status (p : Params) : (State.resetWith p).status = 0 := rfl
@[simp] theorem State.resetWith_resVal (p : Params) : (State.resetWith p).resVal = 0 := rfl
@[simp] theorem State.resetWith_resW (p : Params) : (State.resetWith p).resW = 0 := rfl
@[simp] theorem State.resetWith_resPresent (p : Params) : (State.resetWith p).resPresent = false := rfl
@[simp] theorem State.resetWith_resOff (p : Params) : (State.resetWith p).resOff = 0 := rfl
@[simp] theorem State.resetWith_resLen (p : Params) : (State.resetWith p).resLen = 0 := rfl

end Sys2Proof.Machine
end

