-- ==== Sys2Proof/Laws/Ops.lean ====
section
/-! SUPPORT. What each shared operation does, once: when it answers and with what (the lemmas named `_ok` and `_fail`), and
what an answer says (the lemmas named `_inv`). -/

namespace Sys2Proof.Machine

/-! ## Sequencing -/

@[simp] theorem Comp.ok_bind {α β : Type} (a : α) (f : α → Comp β) : ((Except.ok a : Comp α) >>= f) = f a := rfl

@[simp] theorem Comp.error_bind {α β : Type} (e : Stop) (f : α → Comp β) :
    ((Except.error e : Comp α) >>= f) = Except.error e := rfl

@[simp] theorem Comp.pure_eq_ok {α : Type} (a : α) : (pure a : Comp α) = Except.ok a := rfl

/-- A sequence answers when both parts do. -/
theorem Comp.bind_inv {α β : Type} {c : Comp α} {f : α → Comp β} {b : β} (h : (c >>= f) = .ok b) :
    ∃ a, c = .ok a ∧ f a = .ok b := by
  cases c with
  | ok a => exact ⟨a, rfl, h⟩
  | error e => cases h

/-! ## Checks -/

@[simp] theorem require_true (f : Failure) : require true f = .ok () := rfl

@[simp] theorem require_false (f : Failure) : require false f = .error (.failure f) := rfl

theorem require_inv {c : Bool} {f : Failure} {u : Unit} (h : require c f = .ok u) : c = true := by
  cases c with
  | true => rfl
  | false => cases h

theorem need_ok {s : State} {k : Nat} (h : k ≤ s.vlen.toNat) : s.need k = .ok () := by
  simp [State.need, Nat.not_lt.mpr h]

theorem need_fail {s : State} {k : Nat} (h : s.vlen.toNat < k) : s.need k = .error (.failure .bufferTooSmall) := by
  simp [State.need, h]

theorem need_inv {s : State} {k : Nat} {u : Unit} (h : s.need k = .ok u) : k ≤ s.vlen.toNat := by
  by_contra hk
  rw [need_fail (by omega)] at h
  cases h

/-! ## The view -/

theorem inBuf_of_view {s : State} (hv : s.ViewInBuf) {off n : Nat} (h : off + n ≤ s.vlen.toNat) :
    s.inBuf off n = true := by
  have : s.vbase.toNat + off + n ≤ s.cfg.bufCap := by unfold State.ViewInBuf at hv; omega
  simp [State.inBuf, this]

theorem viewByte_ok {s : State} (hv : s.ViewInBuf) {off : Nat} (h : off < s.vlen.toNat) :
    s.viewByte off = .ok (s.B off) := by
  simp [State.viewByte, inBuf_of_view hv (show off + 1 ≤ s.vlen.toNat from h), State.B]

theorem viewByte_inv {s : State} {off : Nat} {b : Byte} (h : s.viewByte off = .ok b) : b = s.B off := by
  unfold State.viewByte at h
  split at h
  · exact (Except.ok.inj h).symm
  · cases h

theorem memRead_ok {s : State} (hv : s.ViewInBuf) {off n : Nat} (h : off + n ≤ s.vlen.toNat) :
    s.memRead off n = .ok (s.fieldValue off n) := by
  rw [← leValue_view]
  simp [State.memRead, State.viewBytes, inBuf_of_view hv h, State.B]

theorem memRead_inv {s : State} {off n v : Nat} (h : s.memRead off n = .ok v) : v = s.fieldValue off n := by
  obtain ⟨bs, hb, hv⟩ := Comp.bind_inv h
  unfold State.viewBytes at hb
  split at hb
  · rw [← leValue_view]
    cases hb
    exact (Except.ok.inj hv).symm
  · cases hb

theorem pnRead_ok {s : State} (hv : s.ViewInBuf) {off w : Nat} (h : off + w ≤ s.vlen.toNat) :
    s.pnRead off w = .ok (s.fieldValue off w) := by
  unfold State.pnRead
  split
  · rename_i hw
    subst hw
    rw [memRead_ok hv (show off + 4 ≤ s.vlen.toNat by omega), memRead_ok hv (show off + 4 + 2 ≤ s.vlen.toNat by omega)]
    simp [fieldValue_six]
  · exact memRead_ok hv h

/-! ## Writes -/

theorem writeBytes_ok {s : State} (hv : s.ViewInBuf) {off : Nat} {bs : List Byte}
    (h : off + bs.length ≤ s.vlen.toNat) :
    s.writeBytes off bs = .ok { s with buf := Memory.storeList s.buf (s.vbase.toNat + off) bs } := by
  simp [State.writeBytes, inBuf_of_view hv h]

theorem writeBytes_inv {s t : State} {off : Nat} {bs : List Byte} (h : s.writeBytes off bs = .ok t) :
    t = { s with buf := Memory.storeList s.buf (s.vbase.toNat + off) bs } := by
  unfold State.writeBytes at h
  split at h
  · exact (Except.ok.inj h).symm
  · cases h

/-- `u` is `s` with other contents of BUF inside the view, in canonical form and inside the capacity when `s` is. -/
structure State.BufOnly (s u : State) : Prop where
  eq : u = { s with buf := u.buf }
  outside : ∀ a, ¬(s.vbase.toNat ≤ a ∧ a < s.vbase.toNat + s.vlen.toNat) → Memory.lookup u.buf a = Memory.lookup s.buf a
  wf : Memory.wf s.buf = true → Memory.wf u.buf = true
  within : s.ViewInBuf → Memory.within s.cfg.bufCap s.buf = true → Memory.within s.cfg.bufCap u.buf = true

theorem State.BufOnly.refl (s : State) : s.BufOnly s := ⟨rfl, fun _ _ => rfl, id, fun _ => id⟩

theorem State.BufOnly.trans {s u v : State} (h : s.BufOnly u) (h' : u.BufOnly v) : s.BufOnly v := by
  obtain ⟨e, o, w, i⟩ := h
  obtain ⟨e', o', w', i'⟩ := h'
  rw [e] at e' o' w' i'
  exact ⟨e', fun a ha => (o' a ha).trans (o a ha), fun hs => w' (w hs), fun hv hs => i' hv (i hv hs)⟩

/-- Everything a write of bytes inside the view can do. -/
theorem writeBytes_bufOnly {s t : State} {off : Nat} {bs : List Byte} (h : s.writeBytes off bs = .ok t)
    (hin : off + bs.length ≤ s.vlen.toNat) : s.BufOnly t := by
  rw [writeBytes_inv h]
  refine ⟨rfl, fun a ha => Memory.lookup_storeList_outside _ _ _ (by omega), Memory.wf_storeList _ _, fun hv hs => ?_⟩
  exact Memory.within_storeList _ _ hs (Or.inr (by unfold State.ViewInBuf at hv; omega))

theorem State.BufOnly.vbase {s u : State} (h : s.BufOnly u) : u.vbase = s.vbase := by rw [h.eq]

theorem State.BufOnly.vlen {s u : State} (h : s.BufOnly u) : u.vlen = s.vlen := by rw [h.eq]

theorem memWrite_bufOnly {s t : State} {off n v : Nat} (h : s.memWrite off n v = .ok t)
    (hin : off + n ≤ s.vlen.toNat) : s.BufOnly t :=
  writeBytes_bufOnly h (by simpa using hin)

theorem writeField_bufOnly {s t : State} {b0 : Byte} {off n v : Nat} (h : s.writeField b0 off n v = .ok t)
    (h1 : 1 ≤ s.vlen.toNat) (hin : off + n ≤ s.vlen.toNat) : s.BufOnly t := by
  obtain ⟨u, hu, ht⟩ := Comp.bind_inv h
  have hsu : s.BufOnly u := writeBytes_bufOnly hu (by simpa using h1)
  exact hsu.trans (memWrite_bufOnly ht (by rw [hsu.vlen]; exact hin))

theorem pnWrite_bufOnly {s t : State} {off w v : Nat} (h : s.pnWrite off w v = .ok t)
    (hin : off + w ≤ s.vlen.toNat) : s.BufOnly t := by
  unfold State.pnWrite at h
  split at h
  · obtain ⟨u, hu, ht⟩ := Comp.bind_inv h
    have hsu : s.BufOnly u := memWrite_bufOnly hu (by omega)
    exact hsu.trans (memWrite_bufOnly ht (by rw [hsu.vlen]; omega))
  · exact memWrite_bufOnly h hin

/-- A byte of BUF after a write of a byte list. -/
theorem bufByte_storeList (s : State) (x : Nat) (bs : List Byte) (a : Nat) :
    ({ s with buf := Memory.storeList s.buf x bs } : State).bufByte a =
      if x ≤ a ∧ a < x + bs.length then bs.getD (a - x) 0 else s.bufByte a := by
  unfold State.bufByte
  simp only [Memory.lookup_storeList]
  split
  · rename_i h
    have hlt : a - x < bs.length := by omega
    simp [hlt]
  · rfl

theorem leBytes_getD (n v j : Nat) (h : j < n) : (leBytes n v).getD j 0 = byteOf v j := by
  rw [List.getD_eq_getElem?_getD, leBytes_getElem? n v j h]
  rfl

/-- What one write of a byte list leaves, in the claims' words: byte 0 is not touched. -/
theorem writeBytes_wrote {s : State} (hv : s.ViewInBuf) {off : Nat} {bs : List Byte} {f : Nat → Byte} (h1 : 1 ≤ off)
    (hn : off + bs.length ≤ s.vlen.toNat) (hf : ∀ j, j < bs.length → bs.getD j 0 = f j) :
    ∃ u, s.writeBytes off bs = .ok u ∧ s.Wrote u.succeed (s.B 0) off bs.length f := by
  refine ⟨_, writeBytes_ok hv hn, rfl, ?_, ?_, ?_⟩
  · simp only [State.B, State.succeed_bufByte, bufByte_storeList, State.succeed_vbase]
    rw [if_neg (by omega)]
  · intro j hj
    simp only [State.B, State.succeed_bufByte, bufByte_storeList, State.succeed_vbase]
    rw [if_pos (by omega), ← hf j hj]
    congr 1
    omega
  · intro a _ hout
    simp only [State.succeed_bufByte, bufByte_storeList]
    rw [if_neg hout]

/-- What a write of byte 0 leaves, in the claims' words. -/
theorem writeByte_zero_wrote {s : State} (hv : s.ViewInBuf) (h1 : 1 ≤ s.vlen.toNat) (b0 : Byte) (f : Nat → Byte) :
    ∃ u, s.writeByte 0 b0 = .ok u ∧ s.Wrote u.succeed b0 1 0 f := by
  refine ⟨_, writeBytes_ok hv (off := 0) (bs := [b0]) (by simpa using h1), rfl, ?_, ?_, ?_⟩
  · simp only [State.B, State.succeed_bufByte, bufByte_storeList, State.succeed_vbase]
    rw [if_pos (by simp)]
    simp
  · intro j hj
    omega
  · intro a ha _
    simp only [State.succeed_bufByte, bufByte_storeList]
    rw [if_neg (by simp; omega)]

/-- A write after another: the later one's bytes over the earlier one's. -/
theorem State.Wrote.after {s u t : State} {b0 : Byte} {n : Nat} {f : Nat → Byte} {off : Nat}
    (hu : s.Wrote u.succeed b0 1 0 f) (ht : u.Wrote t.succeed (u.B 0) off n f) :
    s.Wrote t.succeed b0 off n f := by
  obtain ⟨eu, bu, -, ou⟩ := hu
  obtain ⟨et, bt, ft, ot⟩ := ht
  have hvb : u.vbase = s.vbase := (congrArg State.vbase eu : _)
  have hst : statusOnSuccess u.status = s.status &&& 0x80 := (congrArg State.status eu : _)
  refine ⟨?_, ?_, ft, ?_⟩
  · have hcfg : u.cfg = s.cfg := (congrArg State.cfg eu : _)
    have hhost : u.host = s.host := (congrArg State.host eu : _)
    have hepoch : u.epoch = s.epoch := (congrArg State.epoch eu : _)
    have hpay : u.pay = s.pay := (congrArg State.pay eu : _)
    have hvl : u.vlen = s.vlen := (congrArg State.vlen eu : _)
    have h1 : u.resVal = s.resVal := (congrArg State.resVal eu : _)
    have h2 : u.resW = s.resW := (congrArg State.resW eu : _)
    have h3 : u.resPresent = s.resPresent := (congrArg State.resPresent eu : _)
    have h4 : u.resOff = s.resOff := (congrArg State.resOff eu : _)
    have h5 : u.resLen = s.resLen := (congrArg State.resLen eu : _)
    have hs : u.status &&& 0x80 = s.status &&& 0x80 := hst
    rw [et, hcfg, hhost, hepoch, hpay, hvl, hvb, h1, h2, h3, h4, h5, hs]
  · rw [bt]; exact bu
  · intro a ha hout
    rw [ot a (by rw [hvb]; exact ha) (by rw [hvb]; exact hout)]
    exact ou a ha (by omega)

/-- Two adjacent writes inside the view are one. -/
theorem writeBytes_append {s : State} (hv : s.ViewInBuf) {off : Nat} {bs cs : List Byte}
    (hn : off + bs.length + cs.length ≤ s.vlen.toNat) :
    (s.writeBytes off bs >>= fun t => t.writeBytes (off + bs.length) cs) = s.writeBytes off (bs ++ cs) := by
  rw [writeBytes_ok hv (by omega), writeBytes_ok hv (by simp; omega), Comp.ok_bind]
  refine (writeBytes_ok ?_ ?_).trans ?_
  · exact hv
  · exact hn
  · rw [Memory.storeList_append]
    simp [Nat.add_assoc]

/-- The 4 + 2 split of a 6-byte packet number is one 6-byte little-endian write (20_memory.md rule R51). -/
theorem pnWrite_eq {s : State} (hv : s.ViewInBuf) {off w v : Nat} (hn : off + w ≤ s.vlen.toNat) :
    s.pnWrite off w v = s.memWrite off w v := by
  unfold State.pnWrite
  split
  · rename_i hw
    subst hw
    have h := writeBytes_append hv (off := off) (bs := leBytes 4 (v % 2 ^ 32)) (cs := leBytes 2 (v / 2 ^ 32))
      (by simpa using hn)
    rw [leBytes_six, leBytes_length] at h
    exact h
  · rfl

/-- What a setter's two writes leave, the field a list of bytes. -/
theorem writeByte_writeBytes_ok {s : State} (hv : s.ViewInBuf) {b0 : Byte} {off : Nat} {bs : List Byte} {f : Nat → Byte}
    (h1 : 1 ≤ off) (hn : off + bs.length ≤ s.vlen.toNat) (hf : ∀ j, j < bs.length → bs.getD j 0 = f j) :
    ∃ u v, s.writeByte 0 b0 = .ok u ∧ u.ViewInBuf ∧ u.vlen = s.vlen ∧ u.writeBytes off bs = .ok v ∧
      s.Wrote v.succeed b0 off bs.length f := by
  obtain ⟨u, hu, wu⟩ := writeByte_zero_wrote hv (by omega) b0 f
  have hb : s.BufOnly u := writeBytes_bufOnly hu (by simp; omega)
  have hvu : u.ViewInBuf := by
    have := hb.eq
    rw [this]; exact hv
  obtain ⟨t, ht, wt⟩ := writeBytes_wrote (bs := bs) (f := f) hvu h1 (by rw [hb.vlen]; exact hn) hf
  exact ⟨u, t, hu, hvu, hb.vlen, ht, wu.after wt⟩

/-- What a setter's two writes leave, in the claims' words. -/
theorem writeField_ok {s : State} (hv : s.ViewInBuf) {b0 : Byte} {off n v : Nat} (h1 : 1 ≤ off)
    (hn : off + n ≤ s.vlen.toNat) :
    ∃ u, s.writeField b0 off n v = .ok u ∧ s.Wrote u.succeed b0 off n (byteOf v) := by
  obtain ⟨u, t, hu, -, -, ht, wt⟩ := writeByte_writeBytes_ok hv (b0 := b0) (bs := leBytes n v) (f := byteOf v) h1
    (by simpa using hn) (fun j hj => leBytes_getD n v j (by simpa using hj))
  refine ⟨t, ?_, ?_⟩
  · simp [State.writeField, hu, State.memWrite, ht]
  · rwa [leBytes_length] at wt

/-! ## The end of a command -/

@[simp] theorem finish_ok (s t : State) : s.finish (.ok t) = .next t.succeed := rfl

@[simp] theorem finish_failure (s : State) (f : Failure) :
    s.finish (.error (.failure f)) = .next (s.raiseFailure f) := rfl

@[simp] theorem answer_ok (s : State) (r : Result) : s.answer (.ok r) = .next (s.withResult r).succeed := rfl

@[simp] theorem answer_failure (s : State) (f : Failure) :
    s.answer (.error (.failure f)) = .next (s.raiseFailure f) := rfl

/-- A command that ends in a next state succeeded or failed. -/
theorem finish_inv {s t : State} {c : Comp State} (h : s.finish c = .next t) :
    (∃ u, c = .ok u ∧ t = u.succeed) ∨ ∃ f, c = .error (.failure f) ∧ t = s.raiseFailure f := by
  match c, h with
  | .ok u, h => exact .inl ⟨u, rfl, (Host.Outcome.next.inj h).symm⟩
  | .error (.failure f), h => exact .inr ⟨f, rfl, (Host.Outcome.next.inj h).symm⟩
  | .error (.fault _), h => cases h

/-- A getter that ends in a next state succeeded or failed. -/
theorem answer_inv {s t : State} {c : Comp Result} (h : s.answer c = .next t) :
    (∃ r, c = .ok r ∧ t = (s.withResult r).succeed) ∨ ∃ f, c = .error (.failure f) ∧ t = s.raiseFailure f := by
  match c, h with
  | .ok r, h => exact .inl ⟨r, rfl, (Host.Outcome.next.inj h).symm⟩
  | .error (.failure f), h => exact .inr ⟨f, rfl, (Host.Outcome.next.inj h).symm⟩
  | .error (.fault _), h => cases h

/-- A failing command, in the claims' words. -/
theorem raiseFailure_eq_failed (s : State) (f : Failure) : s.raiseFailure f = s.failed f.code.toNat := by
  cases f <;> rfl

/-- A getter's answer, in the claims' words. -/
theorem withResult_succeed (s : State) (r : Result) :
    (s.withResult r).succeed = s.answered r.val r.w r.present r.off r.len := rfl

end Sys2Proof.Machine
end

