-- ==== Sys2Proof/Laws/Exec.lean ====
section
/-! SUPPORT. What a command can do, said once: if `exec i s` answers a next state, that state is one of the four of
`Effect`. Invariants, frames and footprints follow from it without unfolding a meaning. -/

namespace Sys2Proof.Machine

/-- The results a getter can give (10_state.md rule R27). -/
structure Result.Legal (r : Result) : Prop where
  w : r.w = 0 ∨ r.w = 1 ∨ r.w = 2 ∨ r.w = 4 ∨ r.w = 6 ∨ r.w = 8
  absent : r.present = false → r = Result.absent

theorem Result.legal_absent : Result.absent.Legal := ⟨Or.inl rfl, fun _ => rfl⟩

theorem Result.legal_length (n : Nat) : (Result.length n).Legal := ⟨Or.inl rfl, fun h => by cases h⟩

theorem Result.legal_present {v w o l : Nat} (h : w = 0 ∨ w = 1 ∨ w = 2 ∨ w = 4 ∨ w = 6 ∨ w = 8) :
    (Result.mk v w true o l).Legal := ⟨h, fun h => by cases h⟩

/-- Everything a command can do to a state. -/
inductive Effect (i : Instr) (s : State) : State → Prop
  | failed (f : Failure) : Effect i s (s.raiseFailure f)
  | got (hg : isGetter i = true) (r : Result) (hr : r.Legal) : Effect i s (s.withResult r).succeed
  | wrote (hs : isSetter i = true) (u : State) (hb : s.BufOnly u) : Effect i s u.succeed
  | viewed (base len : Operand) (hi : i = .view base len) (hb : base.toNat < 2 ^ 32) (hl : len.toNat < 2 ^ 32)
      (hc : base.toNat + len.toNat ≤ s.cfg.bufCap) :
      Effect i s
        (State.succeed { s with vbase := BitVec.ofNat 32 base.toNat, vlen := BitVec.ofNat 32 len.toNat })

/-- A setter's meaning has one of the effects when every success writes inside the view only. -/
theorem effect_of_finish {i : Instr} {s t : State} {c : Comp State} (hs : isSetter i = true)
    (h : s.finish c = .next t) (hc : ∀ u, c = .ok u → s.BufOnly u) : Effect i s t := by
  rcases finish_inv h with ⟨u, hu, rfl⟩ | ⟨f, -, rfl⟩
  · exact .wrote hs u (hc u hu)
  · exact .failed f

/-- A getter's meaning has one of the effects when every success is a legal result. -/
theorem effect_of_answer {i : Instr} {s t : State} {c : Comp Result} (hg : isGetter i = true)
    (h : s.answer c = .next t) (hc : ∀ r, c = .ok r → r.Legal) : Effect i s t := by
  rcases answer_inv h with ⟨r, hr, rfl⟩ | ⟨f, -, rfl⟩
  · exact .got hg r (hc r hr)
  · exact .failed f

theorem streamByte_inv {s : State} {b : Byte} (h : s.streamByte = .ok b) :
    b = s.B 0 ∧ 1 ≤ s.vlen.toNat ∧ isStream b = true := by
  obtain ⟨_, hn, h⟩ := Comp.bind_inv h
  obtain ⟨c, hv, h⟩ := Comp.bind_inv h
  obtain ⟨_, hr, h⟩ := Comp.bind_inv h
  cases h
  exact ⟨viewByte_inv hv, need_inv hn, require_inv hr⟩

theorem flagsByte_inv {s : State} {p : Byte} (h : s.flagsByte = .ok p) : p = s.B 0 ∧ 1 ≤ s.vlen.toNat := by
  obtain ⟨_, hn, h⟩ := Comp.bind_inv h
  exact ⟨viewByte_inv h, need_inv hn⟩

theorem headerLength_inv {s : State} {special : Bool} {h' : Nat} (h : s.headerLength special = .ok h') :
    h' = s.hdrL special ∧ 1 ≤ s.vlen.toNat := by
  obtain ⟨p, hp, h⟩ := Comp.bind_inv h
  obtain ⟨rfl, h1⟩ := flagsByte_inv hp
  exact ⟨(Except.ok.inj h).symm.trans (hdrLen_eq s special), h1⟩

theorem offWidth_inv {f : Byte} {w : Nat} (h : offWidth f = .ok w) : w = 0 ∨ w = 2 ∨ w = 4 ∨ w = 8 := by
  unfold offWidth at h
  split at h
  · cases h; simp
  · split at h
    · rename_i hc
      cases h
      omega
    · cases h

theorem sidWidth_inv {f : Byte} {w : Nat} (h : sidWidth f = .ok w) : w = 1 ∨ w = 2 ∨ w = 4 := by
  have h4 : sidCode f < 4 := Nat.mod_lt _ (by omega)
  unfold sidWidth at h
  split at h
  · cases h
  · cases h
    omega

theorem writeKindHeader_bufOnly {s u : State} {flag : Byte} {cid : Operand}
    (h : s.writeKindHeader flag cid = .ok u) : s.BufOnly u := by
  obtain ⟨p, hp, h⟩ := Comp.bind_inv h
  obtain ⟨_, hn, h⟩ := Comp.bind_inv h
  exact writeField_bufOnly h (flagsByte_inv hp).2 (by have := need_inv hn; omega)

theorem effect_view {s t : State} (base len : Operand) (h : execView base len s = .next t) :
    Effect (.view base len) s t := by
  rcases finish_inv h with ⟨u, hu, rfl⟩ | ⟨f, -, rfl⟩
  · obtain ⟨_, h1, hu⟩ := Comp.bind_inv hu
    obtain ⟨_, h2, hu⟩ := Comp.bind_inv hu
    obtain ⟨_, h3, hu⟩ := Comp.bind_inv hu
    cases hu
    exact .viewed base len rfl (of_decide_eq_true (require_inv h1)) (of_decide_eq_true (require_inv h2))
      (of_decide_eq_true (require_inv h3))
  · exact .failed f

theorem effect_ftSetKind {s t : State} (kind : Operand) (h : execFtSetKind kind s = .next t) :
    Effect (.ftSetKind kind) s t := by
  refine effect_of_finish rfl h fun u hu => ?_
  obtain ⟨_, -, hu⟩ := Comp.bind_inv hu
  obtain ⟨_, hn, hu⟩ := Comp.bind_inv hu
  exact writeBytes_bufOnly hu (by simpa using need_inv hn)

theorem effect_ftKind {s t : State} (h : execFtKind s = .next t) : Effect .ftKind s t := by
  refine effect_of_answer rfl h fun r hr => ?_
  obtain ⟨_, -, hr⟩ := Comp.bind_inv hr
  obtain ⟨_, -, hr⟩ := Comp.bind_inv hr
  cases hr
  exact Result.legal_present (by simp)

theorem effect_ftSetFlags {s t : State} (bits : Operand) (h : execFtSetFlags bits s = .next t) :
    Effect (.ftSetFlags bits) s t := by
  refine effect_of_finish rfl h fun u hu => ?_
  obtain ⟨_, -, hu⟩ := Comp.bind_inv hu
  obtain ⟨_, hn, hu⟩ := Comp.bind_inv hu
  obtain ⟨b, -, hu⟩ := Comp.bind_inv hu
  split at hu
  · exact writeBytes_bufOnly hu (by simpa using need_inv hn)
  · cases hu
    exact .refl s

theorem effect_ftFlags {s t : State} (h : execFtFlags s = .next t) : Effect .ftFlags s t := by
  refine effect_of_answer rfl h fun r hr => ?_
  obtain ⟨_, -, hr⟩ := Comp.bind_inv hr
  obtain ⟨_, -, hr⟩ := Comp.bind_inv hr
  split at hr <;> cases hr
  · exact Result.legal_present (by simp)
  · exact Result.legal_absent

theorem effect_ftLen {s t : State} (h : execFtLen s = .next t) : Effect .ftLen s t := by
  refine effect_of_answer rfl h fun r hr => ?_
  obtain ⟨_, -, hr⟩ := Comp.bind_inv hr
  cases hr
  exact Result.legal_length 1

theorem effect_sfSetSid {s t : State} (w : Nat) (sid : Operand) (h : execSfSetSid w sid s = .next t) :
    Effect (.sfSetSid w sid) s t := by
  refine effect_of_finish rfl h fun u hu => ?_
  obtain ⟨_, -, hu⟩ := Comp.bind_inv hu
  obtain ⟨_, -, hu⟩ := Comp.bind_inv hu
  obtain ⟨b, hb, hu⟩ := Comp.bind_inv hu
  obtain ⟨_, hn, hu⟩ := Comp.bind_inv hu
  exact writeField_bufOnly hu (streamByte_inv hb).2.1 (need_inv hn)

theorem effect_sfSid {s t : State} (h : execSfSid s = .next t) : Effect .sfSid s t := by
  refine effect_of_answer rfl h fun r hr => ?_
  obtain ⟨b, -, hr⟩ := Comp.bind_inv hr
  obtain ⟨w, hw, hr⟩ := Comp.bind_inv hr
  obtain ⟨_, -, hr⟩ := Comp.bind_inv hr
  obtain ⟨v, -, hr⟩ := Comp.bind_inv hr
  cases hr
  exact Result.legal_present (by have := sidWidth_inv hw; omega)

theorem effect_sfAddOff {s t : State} (w : Nat) (off : Operand) (h : execSfAddOff w off s = .next t) :
    Effect (.sfAddOff w off) s t := by
  refine effect_of_finish rfl h fun u hu => ?_
  obtain ⟨_, -, hu⟩ := Comp.bind_inv hu
  obtain ⟨_, -, hu⟩ := Comp.bind_inv hu
  obtain ⟨b, hb, hu⟩ := Comp.bind_inv hu
  obtain ⟨o, -, hu⟩ := Comp.bind_inv hu
  obtain ⟨_, hn, hu⟩ := Comp.bind_inv hu
  exact writeField_bufOnly hu (streamByte_inv hb).2.1 (need_inv hn)

theorem effect_sfOff {s t : State} (h : execSfOff s = .next t) : Effect .sfOff s t := by
  refine effect_of_answer rfl h fun r hr => ?_
  obtain ⟨b, -, hr⟩ := Comp.bind_inv hr
  obtain ⟨o, -, hr⟩ := Comp.bind_inv hr
  obtain ⟨w, hw, hr⟩ := Comp.bind_inv hr
  split at hr
  · cases hr
    exact Result.legal_absent
  · obtain ⟨_, -, hr⟩ := Comp.bind_inv hr
    obtain ⟨v, -, hr⟩ := Comp.bind_inv hr
    cases hr
    exact Result.legal_present (by have := offWidth_inv hw; omega)

theorem effect_sfSetData {s t : State} (n : Operand) (h : execSfSetData n s = .next t) :
    Effect (.sfSetData n) s t := by
  refine effect_of_finish rfl h fun u hu => ?_
  obtain ⟨_, -, hu⟩ := Comp.bind_inv hu
  obtain ⟨_, -, hu⟩ := Comp.bind_inv hu
  obtain ⟨b, hb, hu⟩ := Comp.bind_inv hu
  split at hu
  · cases hu
    exact .refl s
  · obtain ⟨o, -, hu⟩ := Comp.bind_inv hu
    obtain ⟨_, hn, hu⟩ := Comp.bind_inv hu
    obtain ⟨v, hv, hu⟩ := Comp.bind_inv hu
    have hle := need_inv hn
    have hsv : s.BufOnly v := writeField_bufOnly hv (streamByte_inv hb).2.1 (by omega)
    exact hsv.trans (writeBytes_bufOnly hu (by rw [hsv.vlen]; simpa [State.payload] using hle))

theorem effect_sfData {s t : State} (h : execSfData s = .next t) : Effect .sfData s t := by
  refine effect_of_answer rfl h fun r hr => ?_
  obtain ⟨b, -, hr⟩ := Comp.bind_inv hr
  split at hr
  · obtain ⟨o, -, hr⟩ := Comp.bind_inv hr
    obtain ⟨_, -, hr⟩ := Comp.bind_inv hr
    obtain ⟨n, -, hr⟩ := Comp.bind_inv hr
    obtain ⟨_, -, hr⟩ := Comp.bind_inv hr
    cases hr
    exact Result.legal_present (by simp)
  · cases hr
    exact Result.legal_present (by simp)

theorem effect_sfLen {s t : State} (h : execSfLen s = .next t) : Effect .sfLen s t := by
  refine effect_of_answer rfl h fun r hr => ?_
  obtain ⟨b, -, hr⟩ := Comp.bind_inv hr
  obtain ⟨o, -, hr⟩ := Comp.bind_inv hr
  split at hr
  · obtain ⟨_, -, hr⟩ := Comp.bind_inv hr
    obtain ⟨n, -, hr⟩ := Comp.bind_inv hr
    cases hr
    exact Result.legal_length _
  · cases hr
    exact Result.legal_length _

theorem effect_phSetFlags {s t : State} (bits : Operand) (h : execPhSetFlags bits s = .next t) :
    Effect (.phSetFlags bits) s t := by
  refine effect_of_finish rfl h fun u hu => ?_
  obtain ⟨_, -, hu⟩ := Comp.bind_inv hu
  obtain ⟨p, hp, hu⟩ := Comp.bind_inv hu
  exact writeBytes_bufOnly hu (by simpa using (flagsByte_inv hp).2)

theorem effect_phFlags {s t : State} (h : execPhFlags s = .next t) : Effect .phFlags s t := by
  refine effect_of_answer rfl h fun r hr => ?_
  obtain ⟨p, -, hr⟩ := Comp.bind_inv hr
  cases hr
  exact Result.legal_present (by simp)

theorem effect_phSetCid {s t : State} (w : Nat) (cid : Operand) (h : execPhSetCid w cid s = .next t) :
    Effect (.phSetCid w cid) s t := by
  refine effect_of_finish rfl h fun u hu => ?_
  obtain ⟨_, -, hu⟩ := Comp.bind_inv hu
  obtain ⟨_, -, hu⟩ := Comp.bind_inv hu
  obtain ⟨p, hp, hu⟩ := Comp.bind_inv hu
  obtain ⟨_, hn, hu⟩ := Comp.bind_inv hu
  exact writeField_bufOnly hu (flagsByte_inv hp).2 (need_inv hn)

theorem effect_phCid {s t : State} (h : execPhCid s = .next t) : Effect .phCid s t := by
  refine effect_of_answer rfl h fun r hr => ?_
  obtain ⟨p, hp, hr⟩ := Comp.bind_inv hr
  obtain ⟨rfl, -⟩ := flagsByte_inv hp
  simp only [cidWidth_eq] at hr
  split at hr
  · cases hr
    exact Result.legal_absent
  · obtain ⟨_, -, hr⟩ := Comp.bind_inv hr
    obtain ⟨v, -, hr⟩ := Comp.bind_inv hr
    cases hr
    exact Result.legal_present (by have := cidW_range s; omega)

theorem effect_phSetVer {s t : State} (ver : Operand) (h : execPhSetVer ver s = .next t) :
    Effect (.phSetVer ver) s t := by
  refine effect_of_finish rfl h fun u hu => ?_
  obtain ⟨_, -, hu⟩ := Comp.bind_inv hu
  obtain ⟨p, hp, hu⟩ := Comp.bind_inv hu
  obtain ⟨_, hn, hu⟩ := Comp.bind_inv hu
  exact writeField_bufOnly hu (flagsByte_inv hp).2 (need_inv hn)

theorem effect_phVer {s t : State} (h : execPhVer s = .next t) : Effect .phVer s t := by
  refine effect_of_answer rfl h fun r hr => ?_
  obtain ⟨p, -, hr⟩ := Comp.bind_inv hr
  split at hr
  · obtain ⟨_, -, hr⟩ := Comp.bind_inv hr
    obtain ⟨v, -, hr⟩ := Comp.bind_inv hr
    cases hr
    exact Result.legal_present (by simp)
  · cases hr
    exact Result.legal_absent

theorem effect_phSetPn {s t : State} (w : Nat) (special : Bool) (pn : Operand)
    (h : execPhSetPn w special pn s = .next t) : Effect (.phSetPn w special pn) s t := by
  refine effect_of_finish rfl h fun u hu => ?_
  obtain ⟨_, -, hu⟩ := Comp.bind_inv hu
  obtain ⟨_, -, hu⟩ := Comp.bind_inv hu
  obtain ⟨p, hp, hu⟩ := Comp.bind_inv hu
  obtain ⟨_, hn, hu⟩ := Comp.bind_inv hu
  obtain ⟨v, hv, hu⟩ := Comp.bind_inv hu
  have hsv : s.BufOnly v := writeBytes_bufOnly hv (by simpa using (flagsByte_inv hp).2)
  exact hsv.trans (pnWrite_bufOnly hu (by rw [hsv.vlen]; exact need_inv hn))

theorem effect_phPn {s t : State} (special : Bool) (h : execPhPn special s = .next t) :
    Effect (.phPn special) s t := by
  refine effect_of_answer rfl h fun r hr => ?_
  obtain ⟨p, hp, hr⟩ := Comp.bind_inv hr
  obtain ⟨rfl, -⟩ := flagsByte_inv hp
  simp only [pnWidth_eq] at hr
  split at hr
  · cases hr
    exact Result.legal_absent
  · obtain ⟨_, -, hr⟩ := Comp.bind_inv hr
    obtain ⟨v, -, hr⟩ := Comp.bind_inv hr
    cases hr
    exact Result.legal_present (by have := pnW_range s special; omega)

theorem effect_phLen {s t : State} (special : Bool) (h : execPhLen special s = .next t) :
    Effect (.phLen special) s t := by
  refine effect_of_answer rfl h fun r hr => ?_
  obtain ⟨p, -, hr⟩ := Comp.bind_inv hr
  cases hr
  exact Result.legal_length _

theorem effect_prSetCid {s t : State} (cid : Operand) (h : execPrSetCid cid s = .next t) :
    Effect (.prSetCid cid) s t :=
  effect_of_finish rfl h fun _ hu => writeKindHeader_bufOnly hu

theorem effect_prLen {s t : State} (h : execPrLen s = .next t) : Effect .prLen s t :=
  effect_of_answer rfl h fun _ hr => by cases hr; exact Result.legal_length _

theorem effect_rpSetData {s t : State} (n : Operand) (h : execRpSetData n s = .next t) :
    Effect (.rpSetData n) s t := by
  refine effect_of_finish rfl h fun u hu => ?_
  obtain ⟨_, -, hu⟩ := Comp.bind_inv hu
  obtain ⟨_, -, hu⟩ := Comp.bind_inv hu
  obtain ⟨l, -, hu⟩ := Comp.bind_inv hu
  obtain ⟨_, hn, hu⟩ := Comp.bind_inv hu
  exact writeBytes_bufOnly hu (by simpa [State.payload] using need_inv hn)

theorem effect_rpData {s t : State} (h : execRpData s = .next t) : Effect .rpData s t := by
  refine effect_of_answer rfl h fun r hr => ?_
  obtain ⟨l, -, hr⟩ := Comp.bind_inv hr
  obtain ⟨_, -, hr⟩ := Comp.bind_inv hr
  cases hr
  exact Result.legal_present (by simp)

theorem effect_rpLen {s t : State} (h : execRpLen s = .next t) : Effect .rpLen s t :=
  effect_of_answer rfl h fun _ hr => by cases hr; exact Result.legal_length _

theorem effect_vnSetCid {s t : State} (cid : Operand) (h : execVnSetCid cid s = .next t) :
    Effect (.vnSetCid cid) s t :=
  effect_of_finish rfl h fun _ hu => writeKindHeader_bufOnly hu

theorem effect_vnSetVer {s t : State} (index ver : Operand) (h : execVnSetVer index ver s = .next t) :
    Effect (.vnSetVer index ver) s t := by
  refine effect_of_finish rfl h fun u hu => ?_
  obtain ⟨_, -, hu⟩ := Comp.bind_inv hu
  obtain ⟨_, -, hu⟩ := Comp.bind_inv hu
  obtain ⟨l, -, hu⟩ := Comp.bind_inv hu
  obtain ⟨_, hn, hu⟩ := Comp.bind_inv hu
  exact memWrite_bufOnly hu (need_inv hn)

theorem effect_vnVer {s t : State} (index : Operand) (h : execVnVer index s = .next t) :
    Effect (.vnVer index) s t := by
  refine effect_of_answer rfl h fun r hr => ?_
  obtain ⟨_, -, hr⟩ := Comp.bind_inv hr
  obtain ⟨l, -, hr⟩ := Comp.bind_inv hr
  obtain ⟨_, -, hr⟩ := Comp.bind_inv hr
  obtain ⟨v, -, hr⟩ := Comp.bind_inv hr
  cases hr
  exact Result.legal_present (by simp)

theorem effect_vnCount {s t : State} (h : execVnCount s = .next t) : Effect .vnCount s t := by
  refine effect_of_answer rfl h fun r hr => ?_
  obtain ⟨l, -, hr⟩ := Comp.bind_inv hr
  obtain ⟨_, -, hr⟩ := Comp.bind_inv hr
  cases hr
  exact Result.legal_present (by simp)

theorem effect_vnLen {s t : State} (h : execVnLen s = .next t) : Effect .vnLen s t :=
  effect_of_answer rfl h fun _ hr => by cases hr; exact Result.legal_length _

/-- Everything `exec` can do when it answers a next state, for every command and every state. -/
theorem exec_effect {i : Instr} {s t : State} (h : exec i s = .next t) : Effect i s t := by
  cases i with
  | view base len => exact effect_view base len h
  | ftSetKind kind => exact effect_ftSetKind kind h
  | ftKind => exact effect_ftKind h
  | ftSetFlags bits => exact effect_ftSetFlags bits h
  | ftFlags => exact effect_ftFlags h
  | ftLen => exact effect_ftLen h
  | sfSetSid w sid => exact effect_sfSetSid w sid h
  | sfSid => exact effect_sfSid h
  | sfAddOff w off => exact effect_sfAddOff w off h
  | sfOff => exact effect_sfOff h
  | sfSetData n => exact effect_sfSetData n h
  | sfData => exact effect_sfData h
  | sfLen => exact effect_sfLen h
  | phSetFlags bits => exact effect_phSetFlags bits h
  | phFlags => exact effect_phFlags h
  | phSetCid w cid => exact effect_phSetCid w cid h
  | phCid => exact effect_phCid h
  | phSetVer ver => exact effect_phSetVer ver h
  | phVer => exact effect_phVer h
  | phSetPn w special pn => exact effect_phSetPn w special pn h
  | phPn special => exact effect_phPn special h
  | phLen special => exact effect_phLen special h
  | prSetCid cid => exact effect_prSetCid cid h
  | prLen => exact effect_prLen h
  | rpSetData n => exact effect_rpSetData n h
  | rpData => exact effect_rpData h
  | rpLen => exact effect_rpLen h
  | vnSetCid cid => exact effect_vnSetCid cid h
  | vnSetVer index ver => exact effect_vnSetVer index ver h
  | vnVer index => exact effect_vnVer index h
  | vnCount => exact effect_vnCount h
  | vnLen => exact effect_vnLen h

end Sys2Proof.Machine
end

