-- ==== Sys2Proof/Laws/Access.lean ====
section
/-! SUPPORT. What the preludes and the offset computations of the families answer: byte 0, the field offsets, the header
length, in the claims' words. -/

namespace Sys2Proof.Machine

/-! ## The preludes -/

theorem streamByte_short {s : State} (h : s.vlen.toNat < 1) :
    s.streamByte = .error (.failure .bufferTooSmall) := by
  simp [State.streamByte, need_fail h]

theorem streamByte_other_kind {s : State} (hv : s.ViewInBuf) (h : 1 ≤ s.vlen.toNat) (hk : ¬s.Stream) :
    s.streamByte = .error (.failure .kindMismatch) := by
  have hs : isStream (s.B 0) = false := Bool.not_eq_true _ ▸ hk
  simp [State.streamByte, need_ok h, viewByte_ok hv h, hs]

theorem streamByte_ok {s : State} (hv : s.ViewInBuf) (h : 1 ≤ s.vlen.toNat) (hk : s.Stream) :
    s.streamByte = .ok (s.B 0) := by
  have hs : isStream (s.B 0) = true := hk
  simp [State.streamByte, need_ok h, viewByte_ok hv h, hs]

theorem flagsByte_short {s : State} (h : s.vlen.toNat < 1) :
    s.flagsByte = .error (.failure .bufferTooSmall) := by
  simp [State.flagsByte, need_fail h]

theorem flagsByte_ok {s : State} (hv : s.ViewInBuf) (h : 1 ≤ s.vlen.toNat) : s.flagsByte = .ok (s.B 0) := by
  simp [State.flagsByte, need_ok h, viewByte_ok hv h]

theorem headerLength_short {s : State} {special : Bool} (h : s.vlen.toNat < 1) :
    s.headerLength special = .error (.failure .bufferTooSmall) := by
  simp [State.headerLength, flagsByte_short h]

theorem headerLength_ok {s : State} {special : Bool} (hv : s.ViewInBuf) (h : 1 ≤ s.vlen.toNat) :
    s.headerLength special = .ok (s.hdrL special) := by
  simp [State.headerLength, flagsByte_ok hv h, hdrLen_eq]

/-! ## Kinds, in the claims' words -/

theorem isStream_of_stream {s : State} (h : s.Stream) : isStream (s.B 0) = true := h

theorem isStream_of_other {s : State} (h : ¬s.Stream) : isStream (s.B 0) = false := Bool.not_eq_true _ ▸ h

theorem isAcknowledge_of_ack {s : State} (h : s.Ack) : isAcknowledge (s.B 0) = true := by
  unfold isAcknowledge
  rw [h.1, h.2]
  rfl

theorem isAcknowledge_of_other {s : State} (h : ¬s.Stream) (h' : ¬s.Ack) : isAcknowledge (s.B 0) = false := by
  have h1 : (s.B 0).getLsbD 7 = false := isStream_of_other h
  unfold State.Ack at h'
  unfold isAcknowledge
  rw [h1] at h' ⊢
  simpa using h'

/-- The ten kind codes are those `requireKind` accepts. -/
theorem kindOfCode_isSome_iff (n : Nat) :
    (kindOfCode n).isSome = true ↔ n ∈ [0x80, 0x40, 0x00, 0x01, 0x02, 0x03, 0x04, 0x05, 0x06, 0x07] := by
  rw [kindOfCode, List.find?_isSome]
  simp only [kindCode, beq_iff_eq, List.mem_cons]
  simp [eq_comm]

/-! ## The setter of PR.SETCID and VN.SETCID -/

theorem writeKindHeader_short {s : State} (hv : s.ViewInBuf) (h : s.vlen.toNat < 9) (flag : Byte) (cid : Operand) :
    s.writeKindHeader flag cid = .error (.failure .bufferTooSmall) := by
  unfold State.writeKindHeader
  by_cases h1 : s.vlen.toNat < 1
  · rw [flagsByte_short h1, Comp.error_bind]
  · rw [flagsByte_ok hv (not_lt.mp h1), Comp.ok_bind, need_fail h, Comp.error_bind]

/-! ## Field offsets -/

theorem offsetFieldAt_ok {s : State} {sw : Nat} (h : s.sidW = some sw) :
    offsetFieldAt (streamFlags (s.B 0)) = .ok (1 + sw) := by
  simp [offsetFieldAt, sidWidth_of_some h]

theorem offsetFieldAt_none {s : State} (h : s.sidW = none) :
    offsetFieldAt (streamFlags (s.B 0)) = .error (.failure .unrecognizedFlagCombination) := by
  simp [offsetFieldAt, sidWidth_of_none h]

theorem dataFieldAt_ok {s : State} {sw ow : Nat} (h : s.sidW = some sw) (ho : s.offW = some ow) :
    dataFieldAt (streamFlags (s.B 0)) = .ok (1 + sw + ow) := by
  simp [dataFieldAt, offsetFieldAt_ok h, offWidth_of_some ho]

theorem dataFieldAt_sid_none {s : State} (h : s.sidW = none) :
    dataFieldAt (streamFlags (s.B 0)) = .error (.failure .unrecognizedFlagCombination) := by
  simp [dataFieldAt, offsetFieldAt_none h]

theorem dataFieldAt_off_none {s : State} {sw : Nat} (h : s.sidW = some sw) (ho : s.offW = none) :
    dataFieldAt (streamFlags (s.B 0)) = .error (.failure .unrecognizedFlagCombination) := by
  simp [dataFieldAt, offsetFieldAt_ok h, offWidth_of_none ho]

theorem pnFieldAt_eq (s : State) (special : Bool) :
    pnFieldAt s.cfg.cidMap (s.B 0) special = 1 + s.cidW + s.verW special := by
  simp [pnFieldAt, cidWidth_eq, verWidth_eq]

/-! ## Operand checks -/

theorem require_ok {c : Bool} {f : Failure} (h : c = true) : require c f = .ok () := by rw [h]; rfl

theorem require_fail {c : Bool} {f : Failure} (h : c = false) : require c f = .error (.failure f) := by rw [h]; rfl

theorem requireWidth_ok {w : Nat} {ws : List Nat} (h : w ∈ ws) : requireWidth w ws = .ok () :=
  require_ok (by simpa using h)

theorem requireWidth_fail {w : Nat} {ws : List Nat} (h : w ∉ ws) :
    requireWidth w ws = .error (.failure .unsupportedWidth) :=
  require_fail (by simpa using h)

theorem requireFits_ok {a : Operand} {w : Nat} (h : a.toNat < 2 ^ (8 * w)) : requireFits a w = .ok () :=
  require_ok (by simpa using h)

theorem requireFits_fail {a : Operand} {w : Nat} (h : a.toNat ≥ 2 ^ (8 * w)) :
    requireFits a w = .error (.failure .operandRange) :=
  require_fail (by simpa using h)

/-! ## The flag setters, in the claims' words -/

theorem withSidWidth_eq (b : Byte) (w : Nat) : withSidWidth b w = (b &&& 0xfc) ||| BitVec.ofNat 8 (w - 1) := rfl

theorem withOffWidth_eq (b : Byte) (w : Nat) :
    withOffWidth b w = (b &&& 0xe3) ||| (BitVec.ofNat 8 (if w = 0 then 0 else w - 1) <<< 2) := rfl

theorem withPnWidth_eq (p : Byte) (w : Nat) :
    withPnWidth p w = (p &&& 0xcf) ||| (BitVec.ofNat 8 (if w = 1 then 0 else w / 2) <<< 4) := rfl

theorem cidCode_eq_table {m : CidMap} {w : Nat} (h : w ∈ [1, 4, 8]) : cidCode m w = cidCodeTable m w := by
  simp only [List.mem_cons, List.not_mem_nil, or_false] at h
  rcases h with rfl | rfl | rfl <;> cases m <;> rfl

theorem withCidWidth_eq {m : CidMap} {w : Nat} (p : Byte) (h : w ∈ [1, 4, 8]) :
    withCidWidth m p w = (p &&& 0xf3) ||| (BitVec.ofNat 8 (cidCodeTable m w) <<< 2) := by
  rw [← cidCode_eq_table h]
  rfl

/-! ## What a setter leaves, field by field -/

theorem State.Wrote.fields {s t : State} {b0 : Byte} {off n : Nat} {v : Nat → Byte} (h : s.Wrote t b0 off n v) :
    t.vlen = s.vlen ∧ t.vbase = s.vbase ∧ t.cfg = s.cfg ∧ t.pay = s.pay ∧ t.epoch = s.epoch ∧
      t.status = s.status &&& 0x80 := by
  have e := h.1
  refine ⟨?_, ?_, ?_, ?_, ?_, ?_⟩ <;> rw [e]

theorem State.Wrote.viewInBuf {s t : State} {b0 : Byte} {off n : Nat} {v : Nat → Byte} (h : s.Wrote t b0 off n v)
    (hv : s.ViewInBuf) : t.ViewInBuf := by
  obtain ⟨hl, hb, hc, -⟩ := h.fields
  unfold State.ViewInBuf at *
  rw [hl, hb, hc]
  exact hv

/-- The header widths depend on byte 0 and CID_CODE only (30_encoding.md rules R96 to R99). -/
theorem hdrL_congr {s t : State} (hb : t.B 0 = s.B 0) (hc : t.cfg = s.cfg) (special : Bool) :
    t.hdrL special = s.hdrL special := by
  unfold State.hdrL State.cidW State.verW State.pnW State.Version
  rw [hb, hc]

/-- PAY[0] .. PAY[n-1] as the bytes a payload copy writes (10_state.md rule R23). -/
theorem payload_length (s : State) (n : Nat) : (s.payload n).length = n := by simp [State.payload]

theorem payload_getD (s : State) (n j : Nat) (h : j < n) : (s.payload n).getD j 0 = s.payByte j := by
  simp [State.payload, h]

end Sys2Proof.Machine
end

