-- ==== Sys2Proof/Laws/Decode.lean ====
section
/-! SUPPORT. The laws of the command word: its four fields, and what the decoder answers (30_encoding.md rules R110, R113). -/

namespace Sys2Proof

/-! ## The fields of a word the encoder writes -/

theorem commandWord_toNat {op w : Nat} {special : Bool} (ho : op < 256) (hw : w < 16) :
    (commandWord op w special).toNat = op + 256 * w + if special then 4096 else 0 := by
  unfold commandWord
  rw [BitVec.toNat_ofNat]
  exact Nat.mod_eq_of_lt (by split <;> omega)

theorem zeroField_commandWord {op w : Nat} {special : Bool} (ho : op < 256) (hw : w < 16) :
    zeroField (commandWord op w special) = 0 := by
  rw [zeroField, commandWord_toNat ho hw]
  split <;> omega

theorem opField_commandWord {op w : Nat} {special : Bool} (ho : op < 256) (hw : w < 16) :
    opField (commandWord op w special) = op := by
  rw [opField, commandWord_toNat ho hw]
  split <;> omega

theorem wField_commandWord {op w : Nat} {special : Bool} (ho : op < 256) (hw : w < 16) :
    wField (commandWord op w special) = w := by
  rw [wField, commandWord_toNat ho hw]
  split <;> omega

theorem sField_commandWord {op w : Nat} {special : Bool} (ho : op < 256) (hw : w < 16) :
    sField (commandWord op w special) = special := by
  rw [sField, commandWord_toNat ho hw]
  cases special <;> simp <;> omega

/-- A word is its four fields. -/
theorem cmd_eq_fields (cmd : CmdWord) :
    cmd.toNat = opField cmd + 256 * wField cmd + (if sField cmd then 4096 else 0) + 8192 * zeroField cmd := by
  unfold opField wField sField zeroField
  have h : cmd.toNat / 4096 % 2 = 0 ∨ cmd.toNat / 4096 % 2 = 1 := by omega
  rcases h with h | h <;> simp [h] <;> omega

/-! ## What the decoder answers -/

/-- A word whose row takes the W and S it carries decodes to the row's command. -/
theorem decode_of_row {t : Transaction} {r : OpcodeRow} (hz : zeroField t.cmd = 0)
    (hr : opcodeMap.find? (fun r => r.op == opField t.cmd) = some r) (hw : r.takesW = false → wField t.cmd = 0)
    (hs : r.takesS = false → sField t.cmd = false) :
    decode t = .ok (r.build (wField t.cmd) (sField t.cmd) t.a0 t.a1) := by
  unfold decode
  rw [if_neg (by simpa using hz), hr]
  simp only []
  rw [if_neg (by tauto), if_neg (by intro h; simp [hs h.2] at h)]

/-- A row the decoder finds is a row of the map, with the word's OP. -/
theorem row_of_find {op : Nat} {r : OpcodeRow} (h : opcodeMap.find? (fun r => r.op == op) = some r) :
    r ∈ opcodeMap ∧ r.op = op :=
  ⟨List.mem_of_find?_eq_some h, by simpa using List.find?_some h⟩

/-- Everything a decoded word says about its fields. -/
theorem decode_inv {t : Transaction} {i : Instr} (h : decode t = .ok i) :
    ∃ r, zeroField t.cmd = 0 ∧ opcodeMap.find? (fun r => r.op == opField t.cmd) = some r ∧
      (r.takesW = false → wField t.cmd = 0) ∧ (r.takesS = false → sField t.cmd = false) ∧
      i = r.build (wField t.cmd) (sField t.cmd) t.a0 t.a1 := by
  unfold decode at h
  split at h
  · cases h
  · rename_i hz
    split at h
    · cases h
    · rename_i r hr
      split at h
      · cases h
      · rename_i hw
        split at h
        · cases h
        · rename_i hs
          refine ⟨r, not_not.mp hz, hr, ?_, ?_, (Except.ok.inj h).symm⟩
          · intro hf
            by_contra hne
            exact hw ⟨hne, hf⟩
          · intro hf
            by_contra hne
            exact hs ⟨(Bool.not_eq_false _).mp hne, hf⟩

end Sys2Proof
end

