-- ==== Sys2Proof/Laws/PerInstr.lean ====
section
/-! SUPPORT. The per-instruction family RowOf: the word the encoder writes for a well-formed command matches that command's
row of spec/opcode_table.json, its match under its mask. -/

namespace Sys2Proof.Laws.RowOf

/-- The row of spec/opcode_table.json: match and mask. -/
def row : Instr → CmdWord × CmdWord
  | .view _ _ => (0x0001, 0xffff)
  | .ftSetKind _ => (0x0010, 0xffff)
  | .ftKind => (0x0011, 0xffff)
  | .ftSetFlags _ => (0x0012, 0xffff)
  | .ftFlags => (0x0013, 0xffff)
  | .ftLen => (0x0014, 0xffff)
  | .sfSetSid _ _ => (0x0020, 0xf0ff)
  | .sfSid => (0x0021, 0xffff)
  | .sfAddOff _ _ => (0x0022, 0xf0ff)
  | .sfOff => (0x0023, 0xffff)
  | .sfSetData _ => (0x0024, 0xffff)
  | .sfData => (0x0025, 0xffff)
  | .sfLen => (0x0026, 0xffff)
  | .phSetFlags _ => (0x0030, 0xffff)
  | .phFlags => (0x0031, 0xffff)
  | .phSetCid _ _ => (0x0032, 0xf0ff)
  | .phCid => (0x0033, 0xffff)
  | .phSetVer _ => (0x0034, 0xffff)
  | .phVer => (0x0035, 0xffff)
  | .phSetPn _ _ _ => (0x0036, 0xe0ff)
  | .phPn _ => (0x0037, 0xefff)
  | .phLen _ => (0x0038, 0xefff)
  | .prSetCid _ => (0x0040, 0xffff)
  | .prLen => (0x0042, 0xffff)
  | .rpSetData _ => (0x0050, 0xffff)
  | .rpData => (0x0051, 0xffff)
  | .rpLen => (0x0052, 0xffff)
  | .vnSetCid _ => (0x0060, 0xffff)
  | .vnSetVer _ _ => (0x0062, 0xffff)
  | .vnVer _ => (0x0063, 0xffff)
  | .vnCount => (0x0064, 0xffff)
  | .vnLen => (0x0065, 0xffff)

/-- The encoded word matches the row. -/
def Statement (i : Instr) : Prop := i.WellFormed → (encode i).cmd &&& (row i).2 = (row i).1

/-- The bits a word of `commandWord` has under the masks of the rows that take W, S or both. -/
theorem masked_words : ∀ w : Fin 16,
    commandWord 0x20 w false &&& 0xf0ff = 0x0020 ∧ commandWord 0x22 w false &&& 0xf0ff = 0x0022 ∧
    commandWord 0x32 w false &&& 0xf0ff = 0x0032 ∧ commandWord 0x36 w false &&& 0xe0ff = 0x0036 ∧
    commandWord 0x36 w true &&& 0xe0ff = 0x0036 := by decide

theorem width_of_wellFormed {w : Nat} (h : decide (FitsWidthField w) = true) : w < 16 := of_decide_eq_true h

theorem view (base len : Operand) : Statement (.view base len) :=
  fun _ => (by decide : commandWord 0x01 0 false &&& 0xffff = 0x0001)

theorem ftSetKind (kind : Operand) : Statement (.ftSetKind kind) :=
  fun _ => (by decide : commandWord 0x10 0 false &&& 0xffff = 0x0010)

theorem ftKind : Statement (.ftKind) :=
  fun _ => (by decide : commandWord 0x11 0 false &&& 0xffff = 0x0011)

theorem ftSetFlags (bits : Operand) : Statement (.ftSetFlags bits) :=
  fun _ => (by decide : commandWord 0x12 0 false &&& 0xffff = 0x0012)

theorem ftFlags : Statement (.ftFlags) :=
  fun _ => (by decide : commandWord 0x13 0 false &&& 0xffff = 0x0013)

theorem ftLen : Statement (.ftLen) :=
  fun _ => (by decide : commandWord 0x14 0 false &&& 0xffff = 0x0014)

theorem sfSetSid (w : Nat) (sid : Operand) : Statement (.sfSetSid w sid) :=
  fun h => (masked_words ⟨w, width_of_wellFormed h⟩).1

theorem sfSid : Statement (.sfSid) :=
  fun _ => (by decide : commandWord 0x21 0 false &&& 0xffff = 0x0021)

theorem sfAddOff (w : Nat) (off : Operand) : Statement (.sfAddOff w off) :=
  fun h => (masked_words ⟨w, width_of_wellFormed h⟩).2.1

theorem sfOff : Statement (.sfOff) :=
  fun _ => (by decide : commandWord 0x23 0 false &&& 0xffff = 0x0023)

theorem sfSetData (n : Operand) : Statement (.sfSetData n) :=
  fun _ => (by decide : commandWord 0x24 0 false &&& 0xffff = 0x0024)

theorem sfData : Statement (.sfData) :=
  fun _ => (by decide : commandWord 0x25 0 false &&& 0xffff = 0x0025)

theorem sfLen : Statement (.sfLen) :=
  fun _ => (by decide : commandWord 0x26 0 false &&& 0xffff = 0x0026)

theorem phSetFlags (bits : Operand) : Statement (.phSetFlags bits) :=
  fun _ => (by decide : commandWord 0x30 0 false &&& 0xffff = 0x0030)

theorem phFlags : Statement (.phFlags) :=
  fun _ => (by decide : commandWord 0x31 0 false &&& 0xffff = 0x0031)

theorem phSetCid (w : Nat) (cid : Operand) : Statement (.phSetCid w cid) :=
  fun h => (masked_words ⟨w, width_of_wellFormed h⟩).2.2.1

theorem phCid : Statement (.phCid) :=
  fun _ => (by decide : commandWord 0x33 0 false &&& 0xffff = 0x0033)

theorem phSetVer (ver : Operand) : Statement (.phSetVer ver) :=
  fun _ => (by decide : commandWord 0x34 0 false &&& 0xffff = 0x0034)

theorem phVer : Statement (.phVer) :=
  fun _ => (by decide : commandWord 0x35 0 false &&& 0xffff = 0x0035)

theorem phSetPn (w : Nat) (special : Bool) (pn : Operand) : Statement (.phSetPn w special pn) := by
  intro h
  cases special with
  | false => exact (masked_words ⟨w, width_of_wellFormed h⟩).2.2.2.1
  | true => exact (masked_words ⟨w, width_of_wellFormed h⟩).2.2.2.2

theorem phPn (special : Bool) : Statement (.phPn special) := by
  intro _
  cases special with
  | false => exact (by decide : commandWord 0x37 0 false &&& 0xefff = 0x0037)
  | true => exact (by decide : commandWord 0x37 0 true &&& 0xefff = 0x0037)

theorem phLen (special : Bool) : Statement (.phLen special) := by
  intro _
  cases special with
  | false => exact (by decide : commandWord 0x38 0 false &&& 0xefff = 0x0038)
  | true => exact (by decide : commandWord 0x38 0 true &&& 0xefff = 0x0038)

theorem prSetCid (cid : Operand) : Statement (.prSetCid cid) :=
  fun _ => (by decide : commandWord 0x40 0 false &&& 0xffff = 0x0040)

theorem prLen : Statement (.prLen) :=
  fun _ => (by decide : commandWord 0x42 0 false &&& 0xffff = 0x0042)

theorem rpSetData (n : Operand) : Statement (.rpSetData n) :=
  fun _ => (by decide : commandWord 0x50 0 false &&& 0xffff = 0x0050)

theorem rpData : Statement (.rpData) :=
  fun _ => (by decide : commandWord 0x51 0 false &&& 0xffff = 0x0051)

theorem rpLen : Statement (.rpLen) :=
  fun _ => (by decide : commandWord 0x52 0 false &&& 0xffff = 0x0052)

theorem vnSetCid (cid : Operand) : Statement (.vnSetCid cid) :=
  fun _ => (by decide : commandWord 0x60 0 false &&& 0xffff = 0x0060)

theorem vnSetVer (index ver : Operand) : Statement (.vnSetVer index ver) :=
  fun _ => (by decide : commandWord 0x62 0 false &&& 0xffff = 0x0062)

theorem vnVer (index : Operand) : Statement (.vnVer index) :=
  fun _ => (by decide : commandWord 0x63 0 false &&& 0xffff = 0x0063)

theorem vnCount : Statement (.vnCount) :=
  fun _ => (by decide : commandWord 0x64 0 false &&& 0xffff = 0x0064)

theorem vnLen : Statement (.vnLen) :=
  fun _ => (by decide : commandWord 0x65 0 false &&& 0xffff = 0x0065)

end Sys2Proof.Laws.RowOf
end

