-- ==== Sys2Proof/Laws/Step.lean ====
section
/-! SUPPORT. What a step can do, said once, and how a list of commands runs. -/

namespace Sys2Proof.Machine

/-- Everything a step can do: nothing is left to do, a command runs, a word is rejected, the host writes, reads or resets. -/
inductive Stepped (s : State) : State → Prop
  | idle (h : s.host = []) : Stepped s s
  | ran (c : Transaction) (i : Instr) (rest : List HostAction) (t : State) (h : s.host = .command c :: rest)
      (hd : decode c = .ok i) (he : exec i { s with host := rest } = .next t) : Stepped s t
  | rejected (c : Transaction) (r : Reject) (rest : List HostAction) (h : s.host = .command c :: rest)
      (hd : decode c = .error r) : Stepped s (State.raiseFailure { s with host := rest } .illegalCommand)
  | wroteBuf (a : Nat) (b : Byte) (rest : List HostAction) (h : s.host = .writeBuf a b :: rest)
      (ha : a < s.cfg.bufCap) : Stepped s { s with host := rest, buf := Memory.store s.buf a b }
  | wrotePay (a : Nat) (b : Byte) (rest : List HostAction) (h : s.host = .writePay a b :: rest)
      (ha : a < s.cfg.payCap) : Stepped s { s with host := rest, pay := Memory.store s.pay a b }
  | wasRead (what : HostRead) (rest : List HostAction) (h : s.host = .read what :: rest) :
      Stepped s { s with host := rest }
  | wasReset (rest : List HostAction) (h : s.host = .reset :: rest) :
      Stepped s { State.resetWith s.cfg with host := rest, epoch := s.epoch + 1 }

/-- A host read that answers a next state leaves the state as it was. -/
theorem hostRead_next {what : HostRead} {s t : State} (h : hostRead what s = .next t) : t = s := by
  unfold hostRead at h
  split at h <;> cases h
  rfl

/-- A step that answers a next state did one of these. -/
theorem step_stepped {s t : State} (h : step s = .next t) : Stepped s t := by
  unfold step at h
  cases hh : s.host with
  | nil =>
    rw [hh] at h
    cases h
    exact .idle hh
  | cons a rest =>
    rw [hh] at h
    simp only [] at h
    cases a with
    | command c =>
      simp only [hostAct] at h
      unfold issue at h
      split at h
      · rename_i i hi
        exact .ran c i rest t hh hi h
      · rename_i r hr
        cases h
        exact .rejected c r rest hh hr
    | writeBuf a b =>
      simp only [hostAct, hostWriteBuf] at h
      split at h <;> cases h
      exact .wroteBuf a b rest hh (by assumption)
    | writePay a b =>
      simp only [hostAct, hostWritePay] at h
      split at h <;> cases h
      exact .wrotePay a b rest hh (by assumption)
    | read what =>
      cases hostRead_next h
      exact .wasRead what rest hh
    | reset =>
      cases h
      exact .wasReset rest hh

/-- A word that decodes runs its command. -/
theorem issue_of_decode {t : Transaction} {i : Instr} (h : decode t = .ok i) (s : State) : issue t s = exec i s := by
  unfold issue
  rw [h]

/-- A word that does not decode fails with IllegalCommand. -/
theorem issue_of_reject {t : Transaction} {r : Reject} (h : decode t = .error r) (s : State) :
    issue t s = .next (s.failed 5) := by
  unfold issue
  rw [h]
  rfl

/-- Every row of the opcode map is issued as the claims say it is. -/
theorem issues_of_row {op : Nat} {takesW takesS : Bool} {command : Nat → Bool → Operand → Operand → Instr}
    (h : opcodeMap.find? (fun r => r.op == op) = some ⟨op, takesW, takesS, command⟩) : Issues op takesW takesS command := by
  intro t s ho
  have hr : opcodeMap.find? (fun r => r.op == opField t.cmd) = some ⟨op, takesW, takesS, command⟩ := by
    rw [show opField t.cmd = op from ho]
    exact h
  split
  · rename_i hc
    refine issue_of_decode (decode_of_row (r := ⟨op, takesW, takesS, command⟩) hc.1 hr ?_ ?_) s
    · intro hf
      exact hc.2.1.resolve_left (by simp at hf; simp [hf])
    · intro hf
      have h0 := hc.2.2.resolve_left (by simp at hf; simp [hf])
      simp [sField, h0]
  · rename_i hc
    cases hd : decode t with
    | error r => exact issue_of_reject hd s
    | ok i =>
      exfalso
      obtain ⟨r, hz, hf, hw, hs, -⟩ := decode_inv hd
      rw [hr] at hf
      cases hf
      refine hc ⟨hz, ?_, ?_⟩
      · cases takesW with
        | true => exact .inl rfl
        | false => exact .inr (hw rfl)
      · cases takesS with
        | true => exact .inl rfl
        | false =>
          have h0 := hs rfl
          simp [sField] at h0
          exact .inr h0

/-- The first command of a list that succeeds hands its state to the others. -/
theorem execAll_cons {i : Instr} {is : List Instr} {s t : State} (h : exec i s = .next t)
    (hc : statusCode t.status = 0) : execAll (i :: is) s = execAll is t := by
  simp [execAll, h, hc]

/-- The first command of a list that fails ends it. -/
theorem execAll_cons_failed {i : Instr} {is : List Instr} {s t : State} (h : exec i s = .next t)
    (hc : statusCode t.status ≠ 0) : execAll (i :: is) s = .next t := by
  simp [execAll, h, hc]

/-- CODE is 0 after a success. -/
theorem statusCode_masked (status : BitVec 8) : statusCode (status &&& 0x80) = 0 := by
  revert status; decide

end Sys2Proof.Machine
end

