-- ==== Sys2Proof/Machine/Assembler.lean ====
section
/-! DEFINITION. The assembler notation (30_encoding.md rule R117): printing a command or a host action, and reading a line.
No step uses this file. Log entry 16. -/

namespace Sys2Proof.Machine

/-! ## Printing -/

/-- The kind names of the notation (30_encoding.md rule R117). -/
def kindName : FrameKind → String
  | .stream => "STREAM"
  | .acknowledge => "ACK"
  | .padding => "PADDING"
  | .resetStream => "RESET_STREAM"
  | .connectionClose => "CONNECTION_CLOSE"
  | .goAway => "GOAWAY"
  | .windowUpdate => "WINDOW_UPDATE"
  | .blocked => "BLOCKED"
  | .stopWaiting => "STOP_WAITING"
  | .ping => "PING"

/-- A decimal operand (30_encoding.md rule R117). -/
def asmNumber (a : Operand) : String := toString a.toNat

/-- The operand of FT.SETKIND: a kind name where the code has one (30_encoding.md rule R117). -/
def asmKind (a : Operand) : String :=
  match kindOfCode a.toNat with
  | some k => kindName k
  | none => asmNumber a

/-- `.w`, written exactly when the command takes a width (30_encoding.md rule R117). -/
def asmWidth (w : Nat) : String := "." ++ toString w

/-- `.S`, written exactly when S = 1 (30_encoding.md rule R117). -/
def asmSpecial (special : Bool) : String := if special then ".S" else ""

/-- A command in the assembler notation (30_encoding.md rule R117). -/
def asmLine : Instr → String
  | .view base len => "VIEW " ++ asmNumber base ++ ", " ++ asmNumber len
  | .ftSetKind kind => "FT.SETKIND " ++ asmKind kind
  | .ftKind => "FT.KIND"
  | .ftSetFlags bits => "FT.SETFLAGS " ++ asmNumber bits
  | .ftFlags => "FT.FLAGS"
  | .ftLen => "FT.LEN"
  | .sfSetSid w sid => "SF.SETSID" ++ asmWidth w ++ " " ++ asmNumber sid
  | .sfSid => "SF.SID"
  | .sfAddOff w off => "SF.ADDOFF" ++ asmWidth w ++ " " ++ asmNumber off
  | .sfOff => "SF.OFF"
  | .sfSetData n => "SF.SETDATA " ++ asmNumber n
  | .sfData => "SF.DATA"
  | .sfLen => "SF.LEN"
  | .phSetFlags bits => "PH.SETFLAGS " ++ asmNumber bits
  | .phFlags => "PH.FLAGS"
  | .phSetCid w cid => "PH.SETCID" ++ asmWidth w ++ " " ++ asmNumber cid
  | .phCid => "PH.CID"
  | .phSetVer ver => "PH.SETVER " ++ asmNumber ver
  | .phVer => "PH.VER"
  | .phSetPn w special pn => "PH.SETPN" ++ asmWidth w ++ asmSpecial special ++ " " ++ asmNumber pn
  | .phPn special => "PH.PN" ++ asmSpecial special
  | .phLen special => "PH.LEN" ++ asmSpecial special
  | .prSetCid cid => "PR.SETCID " ++ asmNumber cid
  | .prLen => "PR.LEN"
  | .rpSetData n => "RP.SETDATA " ++ asmNumber n
  | .rpData => "RP.DATA"
  | .rpLen => "RP.LEN"
  | .vnSetCid cid => "VN.SETCID " ++ asmNumber cid
  | .vnSetVer index ver => "VN.SETVER " ++ asmNumber index ++ ", " ++ asmNumber ver
  | .vnVer index => "VN.VER " ++ asmNumber index
  | .vnCount => "VN.COUNT"
  | .vnLen => "VN.LEN"


/-- A command word's transaction as a line; none where the word selects no command. -/
def asmTransaction (t : Transaction) : Option String := (decode t).toOption.map asmLine

/-- A byte, two hexadecimal digits (the examples of 30_encoding.md rule R117). -/
def asmByte (b : Byte) : String :=
  "0x" ++ String.ofList [Nat.digitChar (b.toNat / 16), Nat.digitChar (b.toNat % 16)]

/-- What the host reads, by the name of 10_state.md. -/
def asmRead : HostRead → String
  | .buf addr => "BUF[" ++ toString addr ++ "]"
  | .pay addr => "PAY[" ++ toString addr ++ "]"
  | .vbase => "VBASE"
  | .vlen => "VLEN"
  | .status => "STATUS"
  | .resVal => "RES_VAL"
  | .resW => "RES_W"
  | .resPresent => "RES_PRESENT"
  | .resOff => "RES_OFF"
  | .resLen => "RES_LEN"

/-- A host action as a line; none for a command word that has no notation. An action that is not a command is a `host:`
line (30_encoding.md rule R117); the words of a read and of a reset are the model's, DESIGN CHOICE, log entry 16. -/
def asmHost : HostAction → Option String
  | .command t => asmTransaction t
  | .writeBuf addr b => some ("host: BUF[" ++ toString addr ++ "] <- " ++ asmByte b)
  | .writePay addr b => some ("host: PAY[" ++ toString addr ++ "] <- " ++ asmByte b)
  | .read what => some ("host: read " ++ asmRead what)
  | .reset => some "host: reset"

/-! ## Reading -/

/-- The pieces between the separators. -/
def asmSplit (sep : Char) : List Char → List (List Char)
  | [] => [[]]
  | c :: cs =>
    if c = sep then [] :: asmSplit sep cs
    else match asmSplit sep cs with
      | [] => [[c]]
      | p :: ps => (c :: p) :: ps

/-- Without the blanks at both ends. -/
def asmTrim (cs : List Char) : List Char :=
  ((cs.dropWhile (· == ' ')).reverse.dropWhile (· == ' ')).reverse

/-- The value of a digit. -/
def asmDigit (c : Char) : Option Nat :=
  if '0' ≤ c ∧ c ≤ '9' then some (c.toNat - '0'.toNat)
  else if 'a' ≤ c ∧ c ≤ 'f' then some (c.toNat - 'a'.toNat + 10)
  else if 'A' ≤ c ∧ c ≤ 'F' then some (c.toNat - 'A'.toNat + 10)
  else none

/-- The number with digits `cs` in a base, after the digits already read as `acc`. -/
def asmDigits (base : Nat) : List Char → Nat → Option Nat
  | [], acc => some acc
  | c :: cs, acc =>
    match asmDigit c with
    | some d => if d < base then asmDigits base cs (base * acc + d) else none
    | none => none

/-- A decimal number. -/
def readDecimal : List Char → Option Nat
  | [] => none
  | cs => asmDigits 10 cs 0

/-- A decimal or 0x hexadecimal number, or a kind name (30_encoding.md rule R117). -/
def readNumber (cs : List Char) : Option Nat :=
  match [FrameKind.stream, .acknowledge, .padding, .resetStream, .connectionClose, .goAway, .windowUpdate, .blocked,
      .stopWaiting, .ping].find? (fun k => (kindName k).toList == cs) with
  | some k => some (kindCode k)
  | none =>
    match cs with
    | '0' :: 'x' :: c :: ds => asmDigits 16 (c :: ds) 0
    | _ => readDecimal cs

/-- An operand: a number of 64 bits. -/
def readOperand (cs : List Char) : Option Operand :=
  match readNumber (asmTrim cs) with
  | some n => if n < 2 ^ 64 then some (BitVec.ofNat 64 n) else none
  | none => none

/-- The operands of a line. -/
def readOperands (cs : List Char) : Option (List Operand) :=
  if asmTrim cs = [] then some [] else (asmSplit ',' cs).mapM readOperand

/-- The width and mode that follow a mnemonic: `.w` exactly when the command takes a width, `.S` only where it takes the
special mode (30_encoding.md rule R117). -/
def readSuffix (takesW takesS : Bool) (parts : List (List Char)) : Option (Nat × Bool) :=
  match takesW, parts with
  | false, [] => some (0, false)
  | false, [['S']] => if takesS then some (0, true) else none
  | true, [w] => (readDecimal w).bind fun n => if n < 16 then some (n, false) else none
  | true, [w, ['S']] => (readDecimal w).bind fun n => if n < 16 ∧ takesS = true then some (n, true) else none
  | _, _ => none

/-- The opcode of a mnemonic (30_encoding.md table R114). -/
def opcodeNames : List (String × Nat) := [
  ("VIEW", 0x01), ("FT.SETKIND", 0x10), ("FT.KIND", 0x11), ("FT.SETFLAGS", 0x12), ("FT.FLAGS", 0x13), ("FT.LEN", 0x14),
  ("SF.SETSID", 0x20), ("SF.SID", 0x21), ("SF.ADDOFF", 0x22), ("SF.OFF", 0x23), ("SF.SETDATA", 0x24), ("SF.DATA", 0x25),
  ("SF.LEN", 0x26), ("PH.SETFLAGS", 0x30), ("PH.FLAGS", 0x31), ("PH.SETCID", 0x32), ("PH.CID", 0x33),
  ("PH.SETVER", 0x34), ("PH.VER", 0x35), ("PH.SETPN", 0x36), ("PH.PN", 0x37), ("PH.LEN", 0x38), ("PR.SETCID", 0x40),
  ("PR.LEN", 0x42), ("RP.SETDATA", 0x50), ("RP.DATA", 0x51), ("RP.LEN", 0x52), ("VN.SETCID", 0x60),
  ("VN.SETVER", 0x62), ("VN.VER", 0x63), ("VN.COUNT", 0x64), ("VN.LEN", 0x65)]

/-- A command line: its transaction, an omitted operand 0 (30_encoding.md rule R117). -/
def readCommand (name : List Char) (parts : List (List Char)) (operands : List Operand) : Option Transaction := do
  let (_, op) ← opcodeNames.find? (fun r => r.1.toList == name)
  let row ← opcodeMap.find? (fun r => r.op == op)
  let (w, special) ← readSuffix row.takesW row.takesS parts
  if operands.length ≤ 2 then
    some ⟨commandWord op w special, operands.getD 0 0, operands.getD 1 0⟩
  else none

/-- A pseudo-instruction's line (30_encoding.md table R118). VN.SETVERS with no operand, which the table does not show and no
rule covers, is accepted as the empty list of versions: DESIGN CHOICE, log entry 18, safe. -/
def readPseudo (name : List Char) (parts : List (List Char)) (operands : List Operand) : Option Pseudo :=
  let v := operands.getD 0 0
  let plain (p : Pseudo) : Option Pseudo := if parts = [] ∧ operands = [] then some p else none
  let width (p : Nat → Pseudo) : Option Pseudo :=
    if operands.length ≤ 1 then (readSuffix true false parts).map fun ws => p ws.1 else none
  if name = "SF.INIT".toList then plain .sfInit
  else if name = "SF.NOOFF".toList then plain .sfNoOff
  else if name = "PR.CID".toList then plain .prCid
  else if name = "VN.CID".toList then plain .vnCid
  else if name = "VN.HLEN".toList then plain .vnHLen
  else if name = "VN.SETVERS".toList then if parts = [] then some (.vnSetVers operands) else none
  else if name = "RP.SETCID".toList then width (.rpSetCid · v)
  else if name = "RP.CID".toList then plain .rpCid
  else if name = "RP.SETVER".toList then
    if parts = [] ∧ operands.length ≤ 1 then some (.rpSetVer v) else none
  else if name = "RP.VER".toList then plain .rpVer
  else if name = "RP.SETPN".toList then width (.rpSetPn · v)
  else if name = "RP.PN".toList then plain .rpPn
  else if name = "RP.HLEN".toList then plain .rpHLen
  else none

/-- The mnemonic of a line's first word, and what follows it: every mnemonic but VIEW has one dot. -/
def splitMnemonic (word : List Char) : List Char × List (List Char) :=
  match asmSplit '.' word with
  | family :: name :: parts => (family ++ '.' :: name, parts)
  | parts => (parts.flatten, [])

/-- The transactions of a line: none where it is not one of the notation; no transaction for an empty line, a comment or a
`host:` line, which is comment-like (30_encoding.md rule R117). -/
def assembleChars (line : List Char) : Option (List Transaction) :=
  let text := asmTrim (line.takeWhile (· != ';'))
  if text = [] ∨ "host:".toList.isPrefixOf text = true then some []
  else
    let word := text.takeWhile (· != ' ')
    let (name, parts) := splitMnemonic word
    (readOperands (text.drop word.length)).bind fun operands =>
      match readCommand name parts operands with
      | some t => some [t]
      | none => (readPseudo name parts operands).map fun p => (expandPseudo p).map encode

/-- The transactions of a line (30_encoding.md rule R117). -/
def assemble (line : String) : Option (List Transaction) := assembleChars line.toList

end Sys2Proof.Machine
end

