-- ==== Sys2Proof/Tests/Slice0.lean ====
section
/-! SUPPORT. The model's own tests: ill-formed commands, decoding of words written out from 30_encoding.md, vectors of
95_test_vectors.md, and a witness for the hypotheses of every obligation that has any. -/

namespace Sys2Proof.Tests

open Sys2Proof Sys2Proof.Machine

/-! ## Well-formedness: every check refuses an ill-formed term (30_encoding.md rule R110: W has four bits) -/

theorem test_wf_sfSetSid : ¬(Instr.sfSetSid 16 0).WellFormed := by decide
theorem test_wf_sfAddOff : ¬(Instr.sfAddOff 16 0).WellFormed := by decide
theorem test_wf_phSetCid : ¬(Instr.phSetCid 16 0).WellFormed := by decide
theorem test_wf_phSetPn : ¬(Instr.phSetPn 16 true 0).WellFormed := by decide
theorem test_wf_largest_width : (Instr.phSetPn 15 true 0).WellFormed ∧ (Instr.sfAddOff 15 0).WellFormed := by decide

/-! ## Decoding: words written out bit by bit, zero[15:13] S[12] W[11:8] OP[7:0] (30_encoding.md tables R110, R114) -/

/-- The command of a word, with operands 5 and 6. -/
def word (cmd : CmdWord) : Option Instr := (decode ⟨cmd, 5, 6⟩).toOption

theorem test_decode_view : word 0b0000000000000001 = some (.view 5 6) := by decide

theorem test_decode_frame_type :
    word 0b0000000000010000 = some (.ftSetKind 5) ∧ word 0b0000000000010001 = some .ftKind ∧
    word 0b0000000000010010 = some (.ftSetFlags 5) ∧ word 0b0000000000010011 = some .ftFlags ∧
    word 0b0000000000010100 = some .ftLen := by decide

theorem test_decode_stream_frame :
    word 0b0000010000100000 = some (.sfSetSid 4 5) ∧ word 0b0000000000100001 = some .sfSid ∧
    word 0b0000100000100010 = some (.sfAddOff 8 5) ∧ word 0b0000000000100011 = some .sfOff ∧
    word 0b0000000000100100 = some (.sfSetData 5) ∧ word 0b0000000000100101 = some .sfData ∧
    word 0b0000000000100110 = some .sfLen := by decide

theorem test_decode_packet_header :
    word 0b0000000000110000 = some (.phSetFlags 5) ∧ word 0b0000000000110001 = some .phFlags ∧
    word 0b0000100000110010 = some (.phSetCid 8 5) ∧ word 0b0000000000110011 = some .phCid ∧
    word 0b0000000000110100 = some (.phSetVer 5) ∧ word 0b0000000000110101 = some .phVer ∧
    word 0b0001011000110110 = some (.phSetPn 6 true 5) ∧ word 0b0000011000110110 = some (.phSetPn 6 false 5) ∧
    word 0b0001000000110111 = some (.phPn true) ∧ word 0b0000000000111000 = some (.phLen false) := by decide

theorem test_decode_packet_kinds :
    word 0b0000000001000000 = some (.prSetCid 5) ∧ word 0b0000000001000010 = some .prLen ∧
    word 0b0000000001010000 = some (.rpSetData 5) ∧ word 0b0000000001010001 = some .rpData ∧
    word 0b0000000001010010 = some .rpLen ∧ word 0b0000000001100000 = some (.vnSetCid 5) ∧
    word 0b0000000001100010 = some (.vnSetVer 5 6) ∧ word 0b0000000001100011 = some (.vnVer 5) ∧
    word 0b0000000001100100 = some .vnCount ∧ word 0b0000000001100101 = some .vnLen := by decide

/-- 95_test_vectors.md section 2.2: reserved opcodes, reserved bits, W or S where the command takes none. -/
theorem test_decode_refuses :
    [0x0000, 0x0002, 0x0015, 0x0027, 0x0039, 0x0041, 0x0061, 0x00ff, 0x2011, 0x4011, 0x8011, 0x0111, 0x1011, 0x1020, 0x1032,
      0x0137, 0x0138, 0x0862, 0xffff].map word = List.replicate 19 none := by decide

/-- 95_test_vectors.md section 2.2: a width that is no width of the field still decodes. -/
theorem test_decode_odd_width : word 0x0320 = some (.sfSetSid 3 5) ∧ word 0x1136 = some (.phSetPn 1 true 5) := by decide

theorem test_decodeTableWord :
    decodeTableWord 16 0x0820 = some (.sfSetSid 8 0) ∧
    decodeTableWord 144 (0x0001 + 9 * 2 ^ 16 + 18 * 2 ^ 80) = some (.view 9 18) := by decide

/-! ## Small states -/

/-- Cells from address `a`. -/
def cells : Nat → List Nat → Memory
  | _, [] => []
  | a, b :: bs => (a, BitVec.ofNat 8 b) :: cells (a + 1) bs

/-- The vectors' machine: BUF_CAP = PAY_CAP = 64, the default CID_CODE, the view over `bytes` at address 2, PAY 03 04 05. -/
def viewing (bytes : List Nat) : State :=
  { State.resetWith ⟨64, 64, .standard⟩ with buf := cells 2 bytes, pay := cells 0 [0x03, 0x04, 0x05], vbase := 2, vlen := BitVec.ofNat 32 bytes.length }

/-- STATUS and the view's bytes after a command, none where it stops. -/
def wrote (i : Instr) (bytes : List Nat) : Option (Nat × List Nat) :=
  match exec i (viewing bytes) with
  | .next t => some (t.status.toNat, t.buf.map fun c => c.2.toNat)
  | _ => none

/-- STATUS and the result registers after a command, none where it stops. -/
def got (i : Instr) (bytes : List Nat) : Option (Nat × List Nat) :=
  match exec i (viewing bytes) with
  | .next t =>
    some (t.status.toNat, [t.resVal.toNat, t.resW.toNat, if t.resPresent then 1 else 0, t.resOff.toNat, t.resLen.toNat])
  | _ => none

/-- The next state of a command, if it has one. -/
def next? (i : Instr) (s : State) : Option State :=
  match exec i s with
  | .next t => some t
  | _ => none

theorem exec_of_next? {i : Instr} {s t : State} (h : next? i s = some t) : exec i s = .next t := by
  unfold next? at h
  split at h
  · rename_i u hu
    rw [hu, Option.some.inj h]
  · cases h

/-- The next state of a step, if it has one. -/
def stepped? (s : State) : Option State :=
  match step s with
  | .next t => some t
  | _ => none

theorem step_of_stepped? {s t : State} (h : stepped? s = some t) : step s = .next t := by
  unfold stepped? at h
  split at h
  · rename_i u hu
    rw [hu, Option.some.inj h]
  · cases h

/-! ## Vectors of 95_test_vectors.md, section 2 -/

/-- Section 2.1, rows 2 and 9. -/
theorem test_view :
    ((next? (.view 9 0x12) (viewing [])).map fun t => [t.vbase.toNat, t.vlen.toNat, t.status.toNat]) = some [9, 18, 0] ∧
    ((next? (.view 0xffffffff 0xffffffff) (viewing [])).map fun t => [t.vbase.toNat, t.vlen.toNat, t.status.toNat])
      = some [2, 0, 0x86] := by decide

theorem test_ftSetKind :
    wrote (.ftSetKind 7) [0xbf] = some (0, [0x07]) ∧ wrote (.ftSetKind 8) [0x00] = some (0x86, [0x00]) := by decide
theorem test_ftKind :
    got .ftKind [0xc0] = some (0, [0x80, 1, 1, 0, 1]) ∧ got .ftKind [0x7f] = some (0, [0x40, 1, 1, 0, 1]) := by decide
theorem test_ftSetFlags :
    wrote (.ftSetFlags 0xc5) [0x40] = some (0, [0x45]) ∧ wrote (.ftSetFlags 0xff) [0x07] = some (0, [0x07]) := by decide
theorem test_ftFlags :
    got .ftFlags [0xbf] = some (0, [0x3f, 1, 1, 0, 1]) ∧ got .ftFlags [] = some (0x81, [0, 0, 0, 0, 0]) := by decide
theorem test_ftLen :
    got .ftLen [0xbf] = some (0, [1, 0, 1, 0, 1]) ∧ got .ftLen [] = some (0x81, [0, 0, 0, 0, 0]) := by decide

theorem test_sfSetSid :
    wrote (.sfSetSid 4 1) [0x80, 0xee, 0xee, 0xee, 0xee] = some (0, [0x83, 0x01, 0x00, 0x00, 0x00]) ∧
    wrote (.sfSetSid 4 7) [0x80, 0xee, 0xee, 0xee] = some (0x81, [0x80, 0xee, 0xee, 0xee]) := by decide
theorem test_sfSid :
    got .sfSid [0x81, 0x07, 0x00, 0xee] = some (0, [7, 2, 1, 1, 2]) ∧ got .sfSid [0x82, 0x07] = some (0x83, [0, 0, 0, 0, 0]) := by
  decide
theorem test_sfAddOff :
    wrote (.sfAddOff 2 0x1234) [0x80, 0x09, 0xee, 0xee] = some (0, [0x84, 0x09, 0x34, 0x12]) ∧
    wrote (.sfAddOff 2 0x1234) [0x81, 0x07, 0x00, 0xee] = some (0x81, [0x81, 0x07, 0x00, 0xee]) := by decide
theorem test_sfOff :
    got .sfOff [0x81, 0x07, 0x00, 0xee] = some (0, [0, 0, 0, 0, 0]) ∧
    got .sfOff [0x84, 0x01, 0x00, 0x00] = some (0, [0, 2, 1, 2, 2]) := by decide
/-- Section 2.4, SF.SETDATA, the source's example (section 1.1). -/
theorem test_sfSetData :
    wrote (.sfSetData 3) [0x9f, 1, 0, 0, 0, 2, 0, 0, 0, 0, 0, 0, 0, 0xee, 0xee, 0xee, 0xee, 0xee]
      = some (0, [0xbf, 1, 0, 0, 0, 2, 0, 0, 0, 0, 0, 0, 0, 3, 0, 3, 4, 5]) ∧
    wrote (.sfSetData 0) [0x80, 0x09, 0xee, 0xee] = some (0, [0x80, 0x09, 0xee, 0xee]) := by decide
theorem test_sfData :
    got .sfData [0xa0, 0x09, 0x00, 0x00] = some (0, [0, 2, 1, 4, 0]) ∧
    got .sfData [0xa0, 0x09, 0x03, 0x00, 0xaa, 0xbb] = some (0x81, [0, 0, 0, 0, 0]) := by decide
theorem test_sfLen :
    got .sfLen [0x81, 0x07, 0x00, 0xee] = some (0, [3, 0, 1, 0, 3]) ∧
    got .sfLen [0xa0, 0x05, 0x03, 0x00, 0x68, 0x69, 0x21] = some (0, [7, 0, 1, 0, 7]) := by decide

theorem test_phSetFlags :
    wrote (.phSetFlags 0x02) [0x08] = some (0, [0x0a]) ∧ wrote (.phSetFlags 0x100) [0x08] = some (0x86, [0x08]) := by decide
theorem test_phFlags :
    got .phFlags [0x0a] = some (0, [0x0a, 1, 1, 0, 1]) ∧ got .phFlags [] = some (0x81, [0, 0, 0, 0, 0]) := by decide
theorem test_phSetCid :
    wrote (.phSetCid 8 0x1122334455667788) [0x00, 0xee, 0xee, 0xee, 0xee, 0xee, 0xee, 0xee, 0xee]
      = some (0, [0x08, 0x88, 0x77, 0x66, 0x55, 0x44, 0x33, 0x22, 0x11]) ∧
    wrote (.phSetCid 4 1) [0x00, 0xee, 0xee, 0xee, 0xee] = some (0, [0x0c, 1, 0, 0, 0]) := by decide
theorem test_phCid :
    got .phCid [0x09, 1, 0, 0, 0, 0, 0, 0, 0] = some (0, [1, 8, 1, 1, 8]) ∧ got .phCid [0xf3] = some (0, [0, 0, 0, 0, 0]) := by
  decide
theorem test_phSetVer :
    wrote (.phSetVer 0x51303235) [0x04, 0xaa, 0xee, 0xee, 0xee, 0xee] = some (0, [0x05, 0xaa, 0x35, 0x32, 0x30, 0x51]) ∧
    wrote (.phSetVer 0x100000000) [0x00] = some (0x86, [0x00]) := by decide
theorem test_phVer :
    got .phVer [0x05, 0xaa, 0x35, 0x32, 0x30, 0x51] = some (0, [0x51303235, 4, 1, 2, 4]) ∧
    got .phVer [0x0c] = some (0, [0, 0, 0, 0, 0]) := by decide
/-- 20_memory.md rule R51: six bytes, low word first. -/
theorem test_phSetPn :
    wrote (.phSetPn 6 false 0x060504030201) [0x00, 0xee, 0xee, 0xee, 0xee, 0xee, 0xee] = some (0, [0x30, 1, 2, 3, 4, 5, 6]) ∧
    wrote (.phSetPn 1 true 1) [0x00, 0xee] = some (0x82, [0x00, 0xee]) := by decide
theorem test_phPn :
    got (.phPn false) [0x30, 1, 2, 3, 4, 5, 6] = some (0, [0x060504030201, 6, 1, 1, 6]) ∧
    got (.phPn true) [0x09] = some (0, [0, 0, 0, 0, 0]) := by decide
/-- 95_test_vectors.md section 1.2: hdr_len(0x09) is 14, and 9 in special mode. -/
theorem test_phLen :
    got (.phLen false) [0x09] = some (0, [14, 0, 1, 0, 14]) ∧ got (.phLen true) [0x09] = some (0, [9, 0, 1, 0, 9]) := by decide

/-- 95_test_vectors.md P4. -/
theorem test_prSetCid :
    wrote (.prSetCid 0xcafebabedeadbeef) [0, 0xee, 0xee, 0xee, 0xee, 0xee, 0xee, 0xee, 0xee]
      = some (0, [0x0a, 0xef, 0xbe, 0xad, 0xde, 0xbe, 0xba, 0xfe, 0xca]) := by decide
theorem test_prLen : got .prLen [1, 2, 3] = some (0, [3, 0, 1, 0, 3]) ∧ got .prLen [] = some (0, [0, 0, 1, 0, 0]) := by decide
theorem test_rpSetData :
    wrote (.rpSetData 3) [0x10, 0x2a, 0x00, 0xee, 0xee, 0xee] = some (0, [0x10, 0x2a, 0x00, 0x03, 0x04, 0x05]) ∧
    wrote (.rpSetData 0x41) [0x10, 0x2a, 0x00, 0xee] = some (0x86, [0x10, 0x2a, 0x00, 0xee]) := by decide
theorem test_rpData :
    got .rpData [0x10, 0x2a, 0x00] = some (0, [0, 0, 1, 3, 0]) ∧ got .rpData [0x10, 0x2a] = some (0x81, [0, 0, 0, 0, 0]) := by
  decide
theorem test_rpLen : got .rpLen [0x10, 0x2a, 0x00] = some (0, [3, 0, 1, 0, 3]) := by decide
/-- 95_test_vectors.md P2. -/
theorem test_vnSetCid :
    wrote (.vnSetCid 1) [0, 0xee, 0xee, 0xee, 0xee, 0xee, 0xee, 0xee, 0xee] = some (0, [0x09, 1, 0, 0, 0, 0, 0, 0, 0]) := by
  decide
theorem test_vnSetVer :
    wrote (.vnSetVer 1 2) [0x09, 1, 0, 0, 0, 0, 0, 0, 0, 1, 0, 0, 0, 0xee, 0xee, 0xee, 0xee]
      = some (0, [0x09, 1, 0, 0, 0, 0, 0, 0, 0, 1, 0, 0, 0, 2, 0, 0, 0]) := by decide
theorem test_vnVer :
    got (.vnVer 1) [0x09, 1, 0, 0, 0, 0, 0, 0, 0, 1, 0, 0, 0, 2, 0, 0, 0] = some (0, [2, 4, 1, 13, 4]) ∧
    got (.vnVer 2) [0x09, 1, 0, 0, 0, 0, 0, 0, 0, 1, 0, 0, 0, 2, 0, 0, 0] = some (0x81, [0, 0, 0, 0, 0]) := by decide
theorem test_vnCount :
    got .vnCount [0x09, 1, 0, 0, 0, 0, 0, 0, 0, 1, 0, 0, 0, 2, 0, 0, 0] = some (0, [2, 0, 1, 9, 8]) ∧
    got .vnCount [0x00, 0xee, 0xee, 0xee, 0xee, 0xee] = some (0, [1, 0, 1, 1, 4]) := by decide
theorem test_vnLen : got .vnLen [0x09, 1] = some (0, [2, 0, 1, 0, 2]) := by decide

/-- The other admissible CID_CODE (00_scope.md rule R4): 4 bytes is 0b01. -/
theorem test_swapped_cid :
    ((next? (.phSetCid 4 1) { viewing [0x00, 0xee, 0xee, 0xee, 0xee] with cfg := ⟨64, 64, .swapped⟩ }).map fun t =>
      t.buf.map fun c => c.2.toNat) = some [0x04, 1, 0, 0, 0] := by decide

/-- A command as the first action after reset (log entry 3). -/
theorem test_step_after_reset :
    ((stepped? (State.reset.withFetchWord 16 0x0021)).map fun t => (t.status.toNat, t.host)) = some (0x81, []) := by decide

/-! ## Witnesses: for each obligation with hypotheses, operands and a state that meet those of each of its clauses, in the
order of the clauses, at the boundary of each range -/

theorem witness_DecodeOfEncode : (Instr.phSetPn 15 true 0xffffffffffffffff).WellFormed := by decide

theorem witness_IllegalCommandExactly :
    (0x2001#16).toNat / 8192 ≠ 0 ∧ (0x0002#16).toNat % 256 ∉ [0x01, 0x10] ∧
    ((0x0101#16).toNat / 256 % 16 ≠ 0 ∧ (0x0101#16).toNat % 256 ∉ [0x20, 0x22, 0x32, 0x36]) ∧
    ((0x1001#16).toNat / 4096 % 2 ≠ 0 ∧ (0x1001#16).toNat % 256 ∉ [0x36, 0x37, 0x38]) ∧
    ((0x1f36#16).toNat / 8192 = 0 ∧ (0x1f36#16).toNat % 256 ∈ [0x20, 0x22, 0x32, 0x36]) := by decide

theorem witness_UnusedOperandsIgnored :
    (0x0010#16).toNat % 256 ∉ [0x01, 0x62] ∧ (0x0065#16).toNat % 256 ∈ [0x11, 0x65] := by decide

theorem witness_StepRunsDecodedCommand :
    decode ⟨0x0011, 0, 0⟩ = .ok .ftKind ∧ decode ⟨0x0111, 0, 0⟩ = .error .widthNotTaken ∧
    ({ viewing [] with host := [.command ⟨0x0011, 0, 0⟩] } : State).host = HostAction.command ⟨0x0011, 0, 0⟩ :: [] := by
  decide

theorem witness_HostWriteChangesOneByte :
    ({ viewing [] with host := [.writeBuf 63 9] } : State).host = HostAction.writeBuf 63 9 :: [] ∧
    63 < (viewing []).cfg.bufCap ∧ 63 < (viewing []).cfg.payCap := by decide

theorem witness_HostReadChangesNothing :
    ({ viewing [] with host := [.read (.buf 63)] } : State).host = HostAction.read (.buf 63) :: [] ∧
    HostAction.inRange (viewing []).cfg (.read (.buf 63)) :=
  ⟨rfl, (by decide : 63 < 64)⟩

theorem witness_HostReadChangesNothing_pay :
    ({ viewing [] with host := [.read (.pay 63)] } : State).host = HostAction.read (.pay 63) :: [] ∧
    HostAction.inRange (viewing []).cfg (.read (.pay 63)) :=
  ⟨rfl, (by decide : 63 < 64)⟩

/-- The host reads back a byte of PAY that it wrote (20_memory.md rule R58). -/
theorem test_host_reads_pay :
    State.readByHost { viewing [] with pay := Memory.store [] 63 9 } (.pay 63) = .ok 9 := by rfl
/-- PAY has no address 64 here (10_state.md rule R23). -/
theorem test_host_read_outside_pay :
    hostRead (.pay 64) (viewing []) = .fault .hostPayAddress := by rfl

theorem witness_ResetLeavesRegistersZero :
    ({ viewing [0x80] with host := [.reset] } : State).host = HostAction.reset :: [] := by decide

theorem witness_ResetSatisfiesInvariant :
    Params.Valid ⟨1, 0, .swapped⟩ ∧ Params.Valid ⟨0xffffffff, 0xffffffff, .standard⟩ := by decide

/-! ### The commands. `reaches i bytes status`: the hypothesis of the command's obligation holds and the command ends with
that STATUS, so that the clause of that outcome is the one taken. -/

/-- The view is inside BUF and the command ends with `status`. -/
def reaches (i : Instr) (bytes : List Nat) (status : Nat) : Bool :=
  decide (viewing bytes).ViewInBuf && (next? i (viewing bytes)).any fun t => t.status.toNat == status

/-- Each OP has a word that carries it and a word with a reserved bit set. -/
theorem witness_Issues :
    ∀ op ∈ [0x01, 0x10, 0x11, 0x12, 0x13, 0x14, 0x20, 0x21, 0x22, 0x23, 0x24, 0x25, 0x26, 0x30, 0x31, 0x32, 0x33, 0x34, 0x35,
      0x36, 0x37, 0x38, 0x40, 0x42, 0x50, 0x51, 0x52, 0x60, 0x62, 0x63, 0x64, 0x65],
      (BitVec.ofNat 16 op).toNat % 256 = op ∧ (BitVec.ofNat 16 (op + 0x2000)).toNat % 256 = op ∧
      (BitVec.ofNat 16 (op + 0x2000)).toNat / 8192 ≠ 0 := by decide

/-- Every view of these tests is inside BUF, and so is the view that ends BUF and the empty one at its end. -/
theorem witness_ViewInBuf :
    (viewing [0x80, 0xee]).ViewInBuf ∧ ({ viewing [] with vbase := 60, vlen := 4 } : State).ViewInBuf ∧
    ({ viewing [] with vbase := 64, vlen := 0 } : State).ViewInBuf := by decide

theorem witness_ViewSelectsWindow :
    ((0x100000000 : Operand).toNat ≥ 2 ^ 32 ∧ (60 : Operand).toNat + (5 : Operand).toNat > (viewing []).cfg.bufCap) ∧
    ((60 : Operand).toNat < 2 ^ 32 ∧ (60 : Operand).toNat + (4 : Operand).toNat ≤ (viewing []).cfg.bufCap) := by decide

theorem witness_FtSetKindWritesKindCode :
    reaches (.ftSetKind 0x81) [] 0x86 ∧ reaches (.ftSetKind 7) [] 0x81 ∧ reaches (.ftSetKind 7) [0xee] 0x00 ∧
    (0x81 : Operand).toNat ∉ [0x80, 0x40, 0x00, 0x01, 0x02, 0x03, 0x04, 0x05, 0x06, 0x07] ∧
    (0x07 : Operand).toNat ∈ [0x80, 0x40, 0x00, 0x01, 0x02, 0x03, 0x04, 0x05, 0x06, 0x07] ∧
    (viewing []).vlen.toNat < 1 ∧ ¬(viewing [0xee]).vlen.toNat < 1 := by decide

/-- The kinds a type byte can have: Stream, Acknowledge, another. -/
theorem witness_kinds :
    (viewing []).vlen.toNat < 1 ∧ ¬(viewing [0x80]).vlen.toNat < 1 ∧ (viewing [0x80]).Stream ∧
    (¬(viewing [0x40]).Stream ∧ (viewing [0x40]).Ack) ∧ (¬(viewing [0x3f]).Stream ∧ ¬(viewing [0x3f]).Ack) := by decide

theorem witness_FtKindReadsKindCode :
    reaches .ftKind [] 0x81 ∧ reaches .ftKind [0x80] 0x00 ∧ reaches .ftKind [0x40] 0x00 ∧
    reaches .ftKind [0x3f] 0x00 ∧
    (viewing [0xc0]).ViewInBuf ∧ (viewing [0xc0]).Stream ∧ ¬(viewing [0x7f]).Stream := by
  decide

theorem witness_FtSetFlagsOrsMaskedBits :
    reaches (.ftSetFlags 256) [] 0x86 ∧ reaches (.ftSetFlags 255) [] 0x81 ∧ reaches (.ftSetFlags 255) [0x80] 0x00 ∧
    reaches (.ftSetFlags 255) [0x40] 0x00 ∧ reaches (.ftSetFlags 255) [0x07] 0x00 ∧
    (256 : Operand).toNat ≥ 256 ∧ ¬(255 : Operand).toNat ≥ 256 ∧ (viewing [0x80]).Stream ∧ (viewing [0x40]).Ack ∧
    ¬(viewing [0x07]).Stream ∧ ¬(viewing [0x07]).Ack := by decide

theorem witness_FtFlagsReadsMaskedBits :
    reaches .ftFlags [] 0x81 ∧ reaches .ftFlags [0xff] 0x00 ∧ reaches .ftFlags [0x7f] 0x00 ∧
    reaches .ftFlags [0x3f] 0x00 ∧
    (viewing [0xff]).Stream ∧ (viewing [0x7f]).Ack ∧ ¬(viewing [0x3f]).Ack := by decide

theorem witness_SfSetSidWritesStreamId :
    reaches (.sfSetSid 3 0) [0x80, 0xee] 0x82 ∧ reaches (.sfSetSid 1 256) [0x80, 0xee] 0x86 ∧
    reaches (.sfSetSid 1 255) [] 0x81 ∧ reaches (.sfSetSid 1 255) [0x7f, 0xee] 0x84 ∧
    reaches (.sfSetSid 1 255) [0x80] 0x81 ∧ reaches (.sfSetSid 1 255) [0x80, 0xee] 0x00 ∧
    (3 : Nat) ∉ [1, 2, 4] ∧ (1 : Nat) ∈ [1, 2, 4] ∧ (256 : Operand).toNat ≥ 2 ^ (8 * 1) ∧ (255 : Operand).toNat < 2 ^ (8 * 1) ∧
    (viewing []).vlen.toNat < 1 ∧ ¬(viewing [0x7f]).Stream ∧
    ((viewing [0x80]).Stream ∧ (viewing [0x80]).vlen.toNat < 1 + 1) ∧
    ((viewing [0x80, 0xee]).Stream ∧ ¬(viewing [0x80, 0xee]).vlen.toNat < 1 + 1) := by decide

theorem witness_SfSidReadsStreamId :
    reaches .sfSid [] 0x81 ∧ reaches .sfSid [0x41] 0x84 ∧ reaches .sfSid [0x82] 0x83 ∧ reaches .sfSid [0x80] 0x81 ∧
    reaches .sfSid [0x80, 5] 0x00 ∧
    ¬(viewing [0x41]).Stream ∧ (viewing [0x82]).sidW = none ∧
    ((viewing [0x80]).sidW = some 1 ∧ (viewing [0x80]).vlen.toNat < 1 + 1) ∧
    ((viewing [0x80, 5]).sidW = some 1 ∧ ¬(viewing [0x80, 5]).vlen.toNat < 1 + 1) := by decide

theorem witness_SfAddOffWritesOffset :
    reaches (.sfAddOff 1 0) [0x80, 5] 0x82 ∧ reaches (.sfAddOff 0 1) [0x80, 5] 0x86 ∧
    reaches (.sfAddOff 0 0) [] 0x81 ∧ reaches (.sfAddOff 0 0) [0x7f] 0x84 ∧ reaches (.sfAddOff 0 0) [0x82] 0x83 ∧
    reaches (.sfAddOff 0 0) [0x80] 0x81 ∧ reaches (.sfAddOff 0 0) [0x80, 5] 0x00 ∧
    (1 : Nat) ∉ [0, 2, 4, 8] ∧ (0 : Nat) ∈ [0, 2, 4, 8] ∧ (1 : Operand).toNat ≥ 2 ^ (8 * 0) ∧ (0 : Operand).toNat < 2 ^ (8 * 0) ∧
    (viewing [0x82]).sidW = none ∧
    ((viewing [0x80]).sidW = some 1 ∧ (viewing [0x80]).vlen.toNat < 1 + 1 + 0) ∧
    ((viewing [0x80, 5]).sidW = some 1 ∧ ¬(viewing [0x80, 5]).vlen.toNat < 1 + 1 + 0) := by decide

theorem witness_SfOffReadsOffset :
    reaches .sfOff [] 0x81 ∧ reaches .sfOff [0x7f] 0x84 ∧ reaches .sfOff [0x82] 0x83 ∧ reaches .sfOff [0x88] 0x83 ∧
    reaches .sfOff [0x80] 0x00 ∧ reaches .sfOff [0x84, 5, 6] 0x81 ∧ reaches .sfOff [0x84, 5, 6, 7] 0x00 ∧
    (viewing [0x82]).sidW = none ∧ ((viewing [0x88]).sidW = some 1 ∧ (viewing [0x88]).offW = none) ∧
    ((viewing [0x80]).sidW = some 1 ∧ (viewing [0x80]).offW = some 0) ∧
    ((viewing [0x84, 5, 6]).offW = some 2 ∧ (viewing [0x84, 5, 6]).vlen.toNat < 1 + 1 + 2) ∧
    ((viewing [0x84, 5, 6, 7]).offW = some 2 ∧ ¬(viewing [0x84, 5, 6, 7]).vlen.toNat < 1 + 1 + 2) := by decide

theorem witness_SfSetDataWritesPayload :
    reaches (.sfSetData 65) [0x80] 0x86 ∧ reaches (.sfSetData 64) [] 0x81 ∧ reaches (.sfSetData 1) [0x7f] 0x84 ∧
    reaches (.sfSetData 0) [0x82] 0x00 ∧ reaches (.sfSetData 1) [0x82] 0x83 ∧ reaches (.sfSetData 1) [0x88] 0x83 ∧
    reaches (.sfSetData 1) [0x80, 5, 0, 0] 0x81 ∧ reaches (.sfSetData 1) [0x80, 5, 0, 0, 0] 0x00 ∧
    (65536 : Operand).toNat > 65535 ∧ (65 : Operand).toNat > (viewing []).cfg.payCap ∧
    ¬(64 : Operand).toNat > (viewing []).cfg.payCap ∧ (0 : Operand).toNat = 0 ∧ (viewing [0x82]).sidW = none ∧
    (viewing [0x88]).offW = none ∧
    ((viewing [0x80, 5, 0, 0]).offW = some 0 ∧ (viewing [0x80, 5, 0, 0]).vlen.toNat < 1 + 1 + 0 + 2 + (1 : Operand).toNat) ∧
    ((viewing [0x80, 5, 0, 0, 0]).sidW = some 1 ∧
      ¬(viewing [0x80, 5, 0, 0, 0]).vlen.toNat < 1 + 1 + 0 + 2 + (1 : Operand).toNat) := by decide

theorem witness_SfDataLocatesPayload :
    reaches .sfData [] 0x81 ∧ reaches .sfData [0x7f] 0x84 ∧ reaches .sfData [0x80] 0x00 ∧
    reaches .sfData [0xa2] 0x83 ∧ reaches .sfData [0xa8] 0x83 ∧ reaches .sfData [0xa0, 5, 1] 0x81 ∧
    reaches .sfData [0xa0, 5, 1, 0] 0x81 ∧ reaches .sfData [0xa0, 5, 1, 0, 9] 0x00 ∧
    ¬(viewing [0x80]).DataLen ∧ (viewing [0xa2]).DataLen ∧ (viewing [0xa2]).sidW = none ∧ (viewing [0xa8]).offW = none ∧
    (viewing [0xa0, 5, 1]).vlen.toNat < 1 + 1 + 0 + 2 ∧
    (viewing [0xa0, 5, 1, 0]).vlen.toNat < 1 + 1 + 0 + 2 + (viewing [0xa0, 5, 1, 0]).fieldValue (1 + 1 + 0) 2 ∧
    ¬(viewing [0xa0, 5, 1, 0, 9]).vlen.toNat < 1 + 1 + 0 + 2 + (viewing [0xa0, 5, 1, 0, 9]).fieldValue (1 + 1 + 0) 2 := by
  decide

theorem witness_SfLenIsFrameLength :
    reaches .sfLen [] 0x81 ∧ reaches .sfLen [0x7f] 0x84 ∧ reaches .sfLen [0x82] 0x83 ∧ reaches .sfLen [0x88] 0x83 ∧
    reaches .sfLen [0x80] 0x00 ∧ reaches .sfLen [0xa0, 5, 1] 0x81 ∧ reaches .sfLen [0xa0, 5, 1, 0] 0x00 ∧
    (viewing [0x82]).sidW = none ∧ (viewing [0x88]).offW = none ∧ ¬(viewing [0x80]).DataLen ∧
    ((viewing [0xa0, 5, 1]).DataLen ∧ (viewing [0xa0, 5, 1]).vlen.toNat < 1 + 1 + 0 + 2) ∧
    ((viewing [0xa0, 5, 1, 0]).DataLen ∧ ¬(viewing [0xa0, 5, 1, 0]).vlen.toNat < 1 + 1 + 0 + 2) := by decide

theorem witness_FtLenIsOne : reaches .ftLen [] 0x81 ∧ reaches .ftLen [0xee] 0x00 := by decide

theorem witness_PhSetFlagsOrsBits :
    reaches (.phSetFlags 256) [] 0x86 ∧ reaches (.phSetFlags 255) [] 0x81 ∧ reaches (.phSetFlags 255) [0] 0x00 ∧
    (256 : Operand).toNat ≥ 256 ∧ ¬(255 : Operand).toNat ≥ 256 ∧ (viewing []).vlen.toNat < 1 ∧ ¬(viewing [0]).vlen.toNat < 1 := by
  decide

theorem witness_PhFlagsReadsByte :
    reaches .phFlags [] 0x81 ∧ reaches .phFlags [0xff] 0x00 ∧
    (viewing [0xff]).ViewInBuf ∧ ¬(viewing [0xff]).vlen.toNat < 1 := by decide

theorem witness_PhSetCidWritesConnectionId :
    reaches (.phSetCid 2 0) [0, 0] 0x82 ∧ reaches (.phSetCid 1 256) [0, 0] 0x86 ∧
    reaches (.phSetCid 1 255) [0] 0x81 ∧ reaches (.phSetCid 1 255) [0, 0] 0x00 ∧
    (2 : Nat) ∉ [1, 4, 8] ∧ (1 : Nat) ∈ [1, 4, 8] ∧ (256 : Operand).toNat ≥ 2 ^ (8 * 1) ∧ (255 : Operand).toNat < 2 ^ (8 * 1) ∧
    (viewing [0]).vlen.toNat < 1 + 1 ∧ ¬(viewing [0, 0]).vlen.toNat < 1 + 1 := by decide

theorem witness_PhCidReadsConnectionId :
    reaches .phCid [] 0x81 ∧ reaches .phCid [0xf3] 0x00 ∧ reaches .phCid [4] 0x81 ∧ reaches .phCid [4, 7] 0x00 ∧
    (viewing [0xf3]).cidW = 0 ∧ ((viewing [4]).cidW = 1 ∧ (viewing [4]).vlen.toNat < 1 + 1) ∧
    ((viewing [4, 7]).cidW = 1 ∧ ¬(viewing [4, 7]).vlen.toNat < 1 + 1) := by decide

theorem witness_PhSetVerWritesVersion :
    reaches (.phSetVer 0x100000000) [] 0x86 ∧ reaches (.phSetVer 0xffffffff) [] 0x81 ∧
    reaches (.phSetVer 0xffffffff) [0, 1, 2, 3] 0x81 ∧ reaches (.phSetVer 0xffffffff) [0, 1, 2, 3, 4] 0x00 ∧
    (0x100000000 : Operand).toNat ≥ 2 ^ 32 ∧ ¬(0xffffffff : Operand).toNat ≥ 2 ^ 32 ∧
    (viewing [0, 1, 2, 3]).vlen.toNat < 1 + (viewing [0, 1, 2, 3]).cidW + 4 ∧
    ¬(viewing [0, 1, 2, 3, 4]).vlen.toNat < 1 + (viewing [0, 1, 2, 3, 4]).cidW + 4 := by decide

theorem witness_PhVerReadsVersion :
    reaches .phVer [] 0x81 ∧ reaches .phVer [0] 0x00 ∧ reaches .phVer [1, 1, 2, 3] 0x81 ∧
    reaches .phVer [1, 1, 2, 3, 4] 0x00 ∧
    ¬(viewing [0]).Version ∧
    ((viewing [1, 1, 2, 3]).Version ∧ (viewing [1, 1, 2, 3]).vlen.toNat < 1 + (viewing [1, 1, 2, 3]).cidW + 4) ∧
    ((viewing [1, 1, 2, 3, 4]).Version ∧ ¬(viewing [1, 1, 2, 3, 4]).vlen.toNat < 1 + (viewing [1, 1, 2, 3, 4]).cidW + 4) := by
  decide

theorem witness_PhSetPnWritesPacketNumber :
    reaches (.phSetPn 3 false 0) [0, 0] 0x82 ∧ reaches (.phSetPn 1 true 0) [0, 0] 0x82 ∧
    reaches (.phSetPn 1 false 256) [0, 0] 0x86 ∧ reaches (.phSetPn 1 false 255) [] 0x81 ∧
    reaches (.phSetPn 1 false 255) [0] 0x81 ∧ reaches (.phSetPn 1 false 255) [0, 0] 0x00 ∧
    ((3 : Nat) ∉ [1, 2, 4, 6] ∨ (true = true ∧ (3 : Nat) = 1)) ∧ ((1 : Nat) ∉ [1, 2, 4, 6] ∨ (true = true ∧ (1 : Nat) = 1)) ∧
    ¬((1 : Nat) ∉ [1, 2, 4, 6] ∨ (false = true ∧ (1 : Nat) = 1)) ∧ (256 : Operand).toNat ≥ 2 ^ (8 * 1) ∧
    (255 : Operand).toNat < 2 ^ (8 * 1) ∧
    (viewing [0]).vlen.toNat < 1 + (viewing [0]).cidW + (viewing [0]).verW false + 1 ∧
    ¬(viewing [0, 0]).vlen.toNat < 1 + (viewing [0, 0]).cidW + (viewing [0, 0]).verW false + 1 := by decide

theorem witness_PhPnReadsPacketNumber :
    reaches (.phPn false) [] 0x81 ∧ reaches (.phPn true) [0] 0x00 ∧ reaches (.phPn false) [0] 0x81 ∧
    reaches (.phPn false) [0, 9] 0x00 ∧
    (viewing [0]).pnW true = 0 ∧ (viewing [0]).pnW false = 1 ∧
    (viewing [0]).vlen.toNat < 1 + (viewing [0]).cidW + (viewing [0]).verW false + (viewing [0]).pnW false ∧
    ¬(viewing [0, 9]).vlen.toNat < 1 + (viewing [0, 9]).cidW + (viewing [0, 9]).verW false + (viewing [0, 9]).pnW false := by
  decide

theorem witness_PhLenIsHeaderLength :
    reaches (.phLen true) [] 0x81 ∧ reaches (.phLen true) [0x09] 0x00 ∧
    (viewing []).vlen.toNat < 1 ∧ ¬(viewing [0x09]).vlen.toNat < 1 := by decide

theorem witness_PrSetCidWritesResetHeader :
    reaches (.prSetCid 1) [0, 1, 2, 3, 4, 5, 6, 7] 0x81 ∧ reaches (.prSetCid 1) [0, 1, 2, 3, 4, 5, 6, 7, 8] 0x00 ∧
    (viewing [0, 1, 2, 3, 4, 5, 6, 7]).vlen.toNat < 9 ∧ ¬(viewing [0, 1, 2, 3, 4, 5, 6, 7, 8]).vlen.toNat < 9 := by decide

theorem witness_VnSetCidWritesHeader :
    reaches (.vnSetCid 1) [0, 1, 2, 3, 4, 5, 6, 7] 0x81 ∧ reaches (.vnSetCid 1) [0, 1, 2, 3, 4, 5, 6, 7, 8] 0x00 ∧
    (viewing [0, 1, 2, 3, 4, 5, 6, 7]).vlen.toNat < 9 ∧ ¬(viewing [0, 1, 2, 3, 4, 5, 6, 7, 8]).vlen.toNat < 9 := by decide

theorem witness_RpSetDataWritesPayload :
    reaches (.rpSetData 65) [0, 1, 2] 0x86 ∧ reaches (.rpSetData 64) [] 0x81 ∧ reaches (.rpSetData 1) [0, 1] 0x81 ∧
    reaches (.rpSetData 1) [0, 1, 2] 0x00 ∧
    (0x100000000 : Operand).toNat ≥ 2 ^ 32 ∧ (65 : Operand).toNat > (viewing []).cfg.payCap ∧
    ¬(64 : Operand).toNat > (viewing []).cfg.payCap ∧
    (viewing [0, 1]).vlen.toNat < (viewing [0, 1]).hdrL false + (1 : Operand).toNat ∧
    ¬(viewing [0, 1, 2]).vlen.toNat < (viewing [0, 1, 2]).hdrL false + (1 : Operand).toNat := by decide

theorem witness_RpDataLocatesPayload :
    reaches .rpData [] 0x81 ∧ reaches .rpData [0] 0x81 ∧ reaches .rpData [0, 1] 0x00 ∧
    (viewing [0]).vlen.toNat < (viewing [0]).hdrL false ∧ ¬(viewing [0, 1]).vlen.toNat < (viewing [0, 1]).hdrL false := by decide

theorem witness_VnSetVerWritesEntry :
    reaches (.vnSetVer 0x100000000 0) [0] 0x86 ∧ reaches (.vnSetVer 0 0x100000000) [0] 0x86 ∧
    reaches (.vnSetVer 0 1) [] 0x81 ∧ reaches (.vnSetVer 0 1) [0, 1, 2, 3] 0x81 ∧
    reaches (.vnSetVer 0 1) [0, 1, 2, 3, 4] 0x00 ∧
    (0x100000000 : Operand).toNat ≥ 2 ^ 32 ∧ ¬(0xffffffff : Operand).toNat ≥ 2 ^ 32 ∧
    (viewing [0, 1, 2, 3]).vlen.toNat < (viewing [0, 1, 2, 3]).hdrL true + 4 * (0 : Operand).toNat + 4 ∧
    ¬(viewing [0, 1, 2, 3, 4]).vlen.toNat < (viewing [0, 1, 2, 3, 4]).hdrL true + 4 * (0 : Operand).toNat + 4 := by decide

theorem witness_VnVerReadsEntry :
    reaches (.vnVer 0x100000000) [0] 0x86 ∧ reaches (.vnVer 0) [] 0x81 ∧ reaches (.vnVer 0) [0, 1, 2, 3] 0x81 ∧
    reaches (.vnVer 0) [0, 1, 2, 3, 4] 0x00 ∧
    (0x100000000 : Operand).toNat ≥ 2 ^ 32 ∧
    (viewing [0, 1, 2, 3]).vlen.toNat < (viewing [0, 1, 2, 3]).hdrL true + 4 * (0 : Operand).toNat + 4 ∧
    ¬(viewing [0, 1, 2, 3, 4]).vlen.toNat < (viewing [0, 1, 2, 3, 4]).hdrL true + 4 * (0 : Operand).toNat + 4 := by decide

theorem witness_VnCountIsEntryCount :
    reaches .vnCount [] 0x81 ∧ reaches .vnCount [4] 0x81 ∧ reaches .vnCount [4, 9] 0x00 ∧
    (viewing [4]).vlen.toNat < (viewing [4]).hdrL true ∧ ¬(viewing [4, 9]).vlen.toNat < (viewing [4, 9]).hdrL true := by decide

/-! ### The whole machine -/

theorem witness_EveryCommandCompletes : ({ viewing [] with vbase := 60, vlen := 4 } : State).ViewInBuf := by decide

/-- FT.KIND on an empty view fails. -/
theorem witness_FailureChangesOnlyStatus :
    exec .ftKind (viewing []) = .next ((viewing []).failed 1) ∧ ((viewing []).failed 1).status.toNat % 8 ≠ 0 :=
  ⟨exec_of_next? (by decide), by decide⟩

/-- FAULT set, then reset. -/
theorem witness_OnlyResetClearsFault :
    step { (viewing []).failed 1 with host := [.reset] }
      = .next { State.resetWith ⟨64, 64, .standard⟩ with epoch := 1 } ∧
    ((viewing []).failed 1).status.getLsbD 7 = true ∧ (State.resetWith ⟨64, 64, .standard⟩).status.getLsbD 7 = false :=
  ⟨step_of_stepped? (by decide), by decide, by decide⟩

/-- VIEW 9, 18 moves the window; so does reset. -/
theorem witness_OnlyViewMovesWindow :
    step { viewing [] with host := [.command ⟨0x0001, 9, 18⟩] } = .next { viewing [] with vbase := 9, vlen := 18 } ∧
    step { viewing [] with host := [.reset] } = .next { State.resetWith ⟨64, 64, .standard⟩ with epoch := 1 } :=
  ⟨step_of_stepped? (by decide), step_of_stepped? (by decide)⟩

/-- A getter that answers and a setter that writes. -/
theorem witness_CommandClassesKeepApart :
    (exec .ftKind (viewing [0x80]) = .next ((viewing [0x80]).answered 0x80 1 true 0 1) ∧ isSetter .ftKind = false) ∧
    (exec (.ftSetKind 7) (viewing [0x80]) = .next (viewing [0x07]) ∧ isGetter (.ftSetKind 7) = false) :=
  ⟨⟨exec_of_next? (by decide), rfl⟩, exec_of_next? (by decide), rfl⟩

/-- The view is 2 .. 2: the addresses next to it are 1 and 3. -/
theorem witness_WritesStayInsideView :
    exec (.ftSetKind 7) (viewing [0x80]) = .next (viewing [0x07]) ∧
    1 < (viewing [0x80]).vbase.toNat ∧ (viewing [0x80]).vbase.toNat + (viewing [0x80]).vlen.toNat ≤ 3 :=
  ⟨exec_of_next? (by decide), by decide, by decide⟩

/-- Another memory with the same view and another byte before and after it. -/
theorem witness_ReadsStayInsideView :
    (viewing [0x80]).ViewInBuf ∧
    ∀ j, j < (viewing [0x80]).vlen.toNat →
      State.B { viewing [0x80] with buf := [(1, 5), (2, 0x80), (3, 6)] } j = (viewing [0x80]).B j := by decide

theorem witness_StatusAndResultsSteerNothing :
    exec .ftKind (viewing [0x80]) = .next ((viewing [0x80]).answered 0x80 1 true 0 1) ∧ isGetter .ftKind = true ∧
    ((viewing [0x80]).answered 0x80 1 true 0 1).status.toNat % 8 = 0 :=
  ⟨exec_of_next? (by decide), rfl, by decide⟩

theorem witness_StepKeepsInvariant :
    State.Inv { viewing [0x80] with host := [.command ⟨0x0010, 7, 0⟩] } ∧
    step { viewing [0x80] with host := [.command ⟨0x0010, 7, 0⟩] } = .next (viewing [0x07]) :=
  ⟨by decide, step_of_stepped? (by decide)⟩

theorem witness_StepGoesOn :
    State.Inv { viewing [0x80] with host := [.writeBuf 63 1] } ∧
    ∀ a rest, ({ viewing [0x80] with host := [.writeBuf 63 1] } : State).host = a :: rest →
      HostAction.inRange (viewing [0x80]).cfg a :=
  ⟨by decide, fun _ _ h => by cases h; exact (by decide : 63 < 64)⟩

theorem witness_SetterIsIdempotent :
    isSetter (.ftSetKind 7) = true ∧ (viewing [0x80]).ViewInBuf ∧ exec (.ftSetKind 7) (viewing [0x80]) = .next (viewing [0x07]) :=
  ⟨rfl, by decide, exec_of_next? (by decide)⟩

theorem witness_GetterIsIdempotent :
    isGetter .ftKind = true ∧ exec .ftKind (viewing [0x80]) = .next ((viewing [0x80]).answered 0x80 1 true 0 1) :=
  ⟨rfl, exec_of_next? (by decide)⟩

/-! ### Round trips -/

theorem witness_StreamIdRoundTrip :
    (viewing [0x80, 0, 0, 0, 0]).ViewInBuf ∧ (4 : Nat) ∈ [1, 2, 4] ∧ (0xffffffff : Operand).toNat < 2 ^ (8 * 4) ∧
    (viewing [0x80, 0, 0, 0, 0]).Stream ∧ 1 + 4 ≤ (viewing [0x80, 0, 0, 0, 0]).vlen.toNat := by decide

theorem witness_OffsetRoundTrip :
    ((2 : Nat) ∈ [0, 2, 4, 8] ∧ (0xffff : Operand).toNat < 2 ^ (8 * 2) ∧ (viewing [0x80, 5, 0, 0]).Stream ∧
      (viewing [0x80, 5, 0, 0]).sidW = some 1 ∧ 1 + 1 + 2 ≤ (viewing [0x80, 5, 0, 0]).vlen.toNat) ∧
    ((0 : Nat) ∈ [0, 2, 4, 8] ∧ (0 : Operand).toNat < 2 ^ (8 * 0) ∧ (viewing [0x80, 5]).sidW = some 1 ∧
      1 + 1 + 0 ≤ (viewing [0x80, 5]).vlen.toNat) := by decide

theorem witness_StreamDataRoundTrip :
    1 ≤ (1 : Operand).toNat ∧ (1 : Operand).toNat ≤ 65535 ∧ (1 : Operand).toNat ≤ (viewing [0x80, 5, 0, 0, 0]).cfg.payCap ∧
    (viewing [0x80, 5, 0, 0, 0]).Stream ∧ (viewing [0x80, 5, 0, 0, 0]).sidW = some 1 ∧
    (viewing [0x80, 5, 0, 0, 0]).offW = some 0 ∧
    1 + 1 + 0 + 2 + (1 : Operand).toNat ≤ (viewing [0x80, 5, 0, 0, 0]).vlen.toNat := by decide

theorem witness_ConnectionIdRoundTrip :
    (4 : Nat) ∈ [1, 4, 8] ∧ (0xffffffff : Operand).toNat < 2 ^ (8 * 4) ∧ (viewing [0, 1, 2, 3, 4]).ViewInBuf ∧
    1 + 4 ≤ (viewing [0, 1, 2, 3, 4]).vlen.toNat := by decide

theorem witness_VersionRoundTrip :
    (0xffffffff : Operand).toNat < 2 ^ 32 ∧ (0 : Operand).toNat < 2 ^ 32 ∧
    1 + (viewing [0, 1, 2, 3, 4]).cidW + 4 ≤ (viewing [0, 1, 2, 3, 4]).vlen.toNat ∧
    (viewing [0, 1, 2, 3, 4]).hdrL true + 4 * (0 : Operand).toNat + 4 ≤ (viewing [0, 1, 2, 3, 4]).vlen.toNat := by decide

theorem witness_PacketNumberRoundTrip :
    ((1 : Nat) ∈ [1, 2, 4, 6] ∧ ¬(false = true ∧ (1 : Nat) = 1) ∧ (255 : Operand).toNat < 2 ^ (8 * 1) ∧
      1 + (viewing [0, 0]).cidW + (viewing [0, 0]).verW false + 1 ≤ (viewing [0, 0]).vlen.toNat) ∧
    ((6 : Nat) ∈ [1, 2, 4, 6] ∧ ¬(true = true ∧ (6 : Nat) = 1) ∧ (0xffffffffffff : Operand).toNat < 2 ^ (8 * 6) ∧
      1 + (viewing [1, 1, 2, 3, 4, 5, 6]).cidW + (viewing [1, 1, 2, 3, 4, 5, 6]).verW true + 6
        ≤ (viewing [1, 1, 2, 3, 4, 5, 6]).vlen.toNat) := by decide

theorem witness_KindSettersAreTwoSteps :
    (viewing [0, 1, 2, 3, 4, 5, 6, 7, 8]).Inv ∧ 9 ≤ (viewing [0, 1, 2, 3, 4, 5, 6, 7, 8]).vlen.toNat := by decide

theorem witness_StreamFrameBuildsLayout :
    (1 : Nat) ∈ [1, 2, 4] ∧ (0 : Nat) ∈ [0, 2, 4, 8] ∧ (255 : Operand).toNat < 2 ^ (8 * 1) ∧ (0 : Operand).toNat < 2 ^ (8 * 0) ∧
    1 ≤ (1 : Operand).toNat ∧ (1 : Operand).toNat ≤ 65535 ∧ (1 : Operand).toNat ≤ (viewing [0, 0, 0, 0, 0]).cfg.payCap ∧
    (viewing [0, 0, 0, 0, 0]).ViewInBuf ∧ 1 + 1 + 0 + 2 + (1 : Operand).toNat ≤ (viewing [0, 0, 0, 0, 0]).vlen.toNat := by decide

theorem witness_VersionListWrittenInOrder :
    1 ≤ ([0xffffffff] : List Operand).length ∧ (∀ v ∈ ([0xffffffff] : List Operand), v.toNat < 2 ^ 32) ∧
    (viewing [0, 1, 2, 3, 4]).ViewInBuf ∧
    (viewing [0, 1, 2, 3, 4]).hdrL true + 4 * ([0xffffffff] : List Operand).length
      ≤ (viewing [0, 1, 2, 3, 4]).vlen.toNat :=
  ⟨by decide, by simp, by decide, by decide⟩

/-! ## The notation (30_encoding.md rules R117, R118) -/

theorem test_notation_reads_width_and_mode :
    assemble "PH.SETPN.2.S 0x12c ; special" = some [⟨0x1236, 300, 0⟩] := by decide
theorem test_notation_reads_pseudo :
    assemble "VN.SETVERS 7, 8" = some [⟨0x0062, 0, 7⟩, ⟨0x0062, 1, 8⟩] := by decide
theorem test_notation_refuses_missing_width : assemble "SF.SETSID 4" = none := by decide
theorem test_notation_prints_width_and_mode : asmLine (.phSetPn 2 true 300) = "PH.SETPN.2.S 300" := by decide
theorem test_notation_prints_host_line : asmHost (.writeBuf 0 0) = some "host: BUF[0] <- 0x00" := by decide

end Sys2Proof.Tests
end

section
/-! PROOFS. The step of the machine, the host, reset, and what every step keeps (10_state.md). -/

namespace Sys2Proof.Machine

/-! ## One step -/

/-- A step performs the first of the host's actions (70_reset_and_hazards.md rule R252). -/
theorem step_of_host {s : State} {a : HostAction} {rest : List HostAction} (h : s.host = a :: rest) :
    step s = hostAct a { s with host := rest } := by
  unfold step
  rw [h]

/-- A byte of BUF after a write of one byte. -/
theorem bufByte_store (s : State) (a : Nat) (b : Byte) (x : Nat) :
    ({ s with buf := Memory.store s.buf a b } : State).bufByte x = if x = a then b else s.bufByte x := by
  unfold State.bufByte
  rw [Memory.lookup_store]
  split <;> rfl

/-- A byte of PAY after a write of one byte. -/
theorem payByte_store (s : State) (a : Nat) (b : Byte) (x : Nat) :
    ({ s with pay := Memory.store s.pay a b } : State).payByte x = if x = a then b else s.payByte x := by
  unfold State.payByte
  rw [Memory.lookup_store]
  split <;> rfl

theorem hostWriteBuf_next {s : State} {a : Nat} (b : Byte) (ha : a < s.cfg.bufCap) :
    hostWriteBuf a b s = .next { s with buf := Memory.store s.buf a b } := if_pos ha

theorem hostWritePay_next {s : State} {a : Nat} (b : Byte) (ha : a < s.cfg.payCap) :
    hostWritePay a b s = .next { s with pay := Memory.store s.pay a b } := if_pos ha

/-! ## STATUS -/

theorem legalStatus_onSuccess (status : BitVec 8) : LegalStatus (statusOnSuccess status) := by
  revert status; decide

theorem legalStatus_onFailure (f : Failure) : LegalStatus (statusOnFailure f) := by
  cases f <;> decide

theorem statusCode_onSuccess (status : BitVec 8) : (statusOnSuccess status).toNat % 8 = 0 :=
  statusCode_masked status

theorem statusCode_onFailure_ne_zero (f : Failure) : (statusOnFailure f).toNat % 8 ≠ 0 := by
  cases f <;> decide

theorem fault_onSuccess (status : BitVec 8) : (statusOnSuccess status).getLsbD 7 = status.getLsbD 7 := by
  revert status; decide

theorem fault_onFailure (f : Failure) : (statusOnFailure f).getLsbD 7 = true := by
  cases f <;> rfl

/-! ## The invariant -/

/-- Legal results are written as legal registers: no width class is cut by RES_W's four bits. -/
theorem State.legalResult_withResult (s : State) {r : Result} (hr : r.Legal) : (s.withResult r).LegalResult := by
  obtain ⟨hw, habs⟩ := hr
  refine ⟨?_, fun hp => ?_⟩
  · rcases hw with h | h | h | h | h | h <;> simp [h]
  · have hp' : r.present = false := hp
    rw [habs hp']
    exact ⟨rfl, rfl, rfl, rfl⟩

/-- The invariant says nothing of the host's list. -/
theorem State.Inv.withHost {s : State} (h : s.Inv) (rest : List HostAction) : State.Inv { s with host := rest } := h

theorem State.Inv.raiseFailure {s : State} (h : s.Inv) (f : Failure) : (s.raiseFailure f).Inv := by
  obtain ⟨hcfg, hbuf, hpay, hbufIn, hpayIn, hview, -, hres⟩ := h
  exact ⟨hcfg, hbuf, hpay, hbufIn, hpayIn, hview, legalStatus_onFailure f, hres⟩

theorem State.Inv.succeed {s : State} (h : s.Inv) : s.succeed.Inv := by
  obtain ⟨hcfg, hbuf, hpay, hbufIn, hpayIn, hview, -, hres⟩ := h
  exact ⟨hcfg, hbuf, hpay, hbufIn, hpayIn, hview, legalStatus_onSuccess s.status, hres⟩

theorem State.Inv.withResult {s : State} (h : s.Inv) {r : Result} (hr : r.Legal) : (s.withResult r).Inv := by
  obtain ⟨hcfg, hbuf, hpay, hbufIn, hpayIn, hview, hst, -⟩ := h
  exact ⟨hcfg, hbuf, hpay, hbufIn, hpayIn, hview, hst, s.legalResult_withResult hr⟩

/-- Writes of BUF that stay inside the view keep the invariant. -/
theorem State.Inv.bufOnly {s u : State} (h : s.Inv) (hu : s.BufOnly u) : u.Inv := by
  obtain ⟨hcfg, hbuf, hpay, hbufIn, hpayIn, hview, hst, hres⟩ := h
  rw [hu.eq]
  exact ⟨hcfg, hu.wf hbuf, hpay, hu.within hview hbufIn, hpayIn, hview, hst, hres⟩

/-- A window inside BUF keeps the invariant. -/
theorem State.Inv.withView {s : State} (h : s.Inv) {base len : Nat} (hb : base < 2 ^ 32) (hl : len < 2 ^ 32)
    (hc : base + len ≤ s.cfg.bufCap) :
    State.Inv { s with vbase := BitVec.ofNat 32 base, vlen := BitVec.ofNat 32 len } := by
  obtain ⟨hcfg, hbuf, hpay, hbufIn, hpayIn, -, hst, hres⟩ := h
  refine ⟨hcfg, hbuf, hpay, hbufIn, hpayIn, ?_, hst, hres⟩
  show (BitVec.ofNat 32 base).toNat + (BitVec.ofNat 32 len).toNat ≤ s.cfg.bufCap
  rwa [BitVec.toNat_ofNat, BitVec.toNat_ofNat, Nat.mod_eq_of_lt hb, Nat.mod_eq_of_lt hl]

theorem State.Inv.storeBuf {s : State} (h : s.Inv) {a : Nat} (b : Byte) (ha : a < s.cfg.bufCap) :
    State.Inv { s with buf := Memory.store s.buf a b } := by
  obtain ⟨hcfg, hbuf, hpay, hbufIn, hpayIn, hview, hst, hres⟩ := h
  exact ⟨hcfg, Memory.wf_store a b hbuf, hpay, Memory.within_store b hbufIn ha, hpayIn, hview, hst, hres⟩

theorem State.Inv.storePay {s : State} (h : s.Inv) {a : Nat} (b : Byte) (ha : a < s.cfg.payCap) :
    State.Inv { s with pay := Memory.store s.pay a b } := by
  obtain ⟨hcfg, hbuf, hpay, hbufIn, hpayIn, hview, hst, hres⟩ := h
  exact ⟨hcfg, hbuf, Memory.wf_store a b hpay, hbufIn, Memory.within_store b hpayIn ha, hview, hst, hres⟩

/-- The state after reset has empty memories, an empty window at 0 and every register 0 (10_state.md rule R30). -/
theorem State.resetWith_inv {p : Params} (hp : p.Valid) : (State.resetWith p).Inv :=
  ⟨hp, rfl, rfl, rfl, rfl, Nat.zero_le _, (by decide : LegalStatus 0), List.mem_cons_self, fun _ => ⟨rfl, rfl, rfl, rfl⟩⟩

/-- No command breaks the invariant. -/
theorem Effect.inv {i : Instr} {s t : State} (he : Effect i s t) (h : s.Inv) : t.Inv := by
  cases he with
  | failed f => exact h.raiseFailure f
  | got _ r hr => exact (h.withResult hr).succeed
  | wrote _ u hu => exact (h.bufOnly hu).succeed
  | viewed base len _ hb hl hc => exact (h.withView hb hl hc).succeed

/-- No action of the host breaks the invariant. -/
theorem Stepped.inv {s t : State} (hs : Stepped s t) (h : s.Inv) : t.Inv := by
  cases hs with
  | idle _ => exact h
  | ran c i rest t _ _ he => exact (exec_effect he).inv (h.withHost rest)
  | rejected c r rest _ _ => exact (h.withHost rest).raiseFailure _
  | wroteBuf a b rest _ ha => exact (h.withHost rest).storeBuf b ha
  | wrotePay a b rest _ ha => exact (h.withHost rest).storePay b ha
  | wasRead what rest _ => exact h.withHost rest
  | wasReset rest _ => exact (State.resetWith_inv h.1).withHost rest

/-- Settles O48: a step is one of the cases of `Stepped`, a command one of the four of `Effect`, and each keeps the
invariant. -/
theorem stepKeepsInvariant : Obligations.StepKeepsInvariant :=
  fun _ _ h hs => (step_stepped hs).inv h

/-! ## FAULT and the window -/

theorem State.BufOnly.status {s u : State} (h : s.BufOnly u) : u.status = s.status := by rw [h.eq]

/-- No command clears FAULT (10_state.md rule R25). -/
theorem Effect.fault {i : Instr} {s t : State} (he : Effect i s t) (h : s.status.getLsbD 7 = true) :
    t.status.getLsbD 7 = true := by
  cases he with
  | failed f => exact fault_onFailure f
  | got _ r _ => exact (fault_onSuccess s.status).trans h
  | wrote _ u hu => rw [State.succeed_status, fault_onSuccess, hu.status, h]
  | viewed base len _ _ _ _ => exact (fault_onSuccess s.status).trans h

/-- A step from a state with FAULT set leaves it set, or is a reset. -/
theorem Stepped.fault {s t : State} (hs : Stepped s t) (h : s.status.getLsbD 7 = true) :
    t.status.getLsbD 7 = true ∨ ∃ rest, s.host = .reset :: rest := by
  cases hs with
  | wasReset rest hh => exact .inr ⟨rest, hh⟩
  | ran c i rest t _ _ he => exact .inl ((exec_effect he).fault h)
  | rejected c r rest _ _ => exact .inl (fault_onFailure _)
  | idle _ => exact .inl h
  | wroteBuf a b rest _ _ => exact .inl h
  | wrotePay a b rest _ _ => exact .inl h
  | wasRead what rest _ => exact .inl h

/-- Settles O42, by the cases of a step. -/
theorem onlyResetClearsFault : Obligations.OnlyResetClearsFault := by
  intro s t hstep hset hclear
  exact ((step_stepped hstep).fault hset).resolve_left (ne_true_of_eq_false hclear)

/-- A command keeps the window or is VIEW (10_state.md rule R24). -/
theorem Effect.window {i : Instr} {s t : State} (he : Effect i s t) :
    (t.vbase = s.vbase ∧ t.vlen = s.vlen) ∨ ∃ base len, i = .view base len := by
  cases he with
  | failed f => exact .inl ⟨rfl, rfl⟩
  | got _ r _ => exact .inl ⟨rfl, rfl⟩
  | wrote _ u hu => exact .inl ⟨hu.vbase, hu.vlen⟩
  | viewed base len hi _ _ _ => exact .inr ⟨base, len, hi⟩

/-- A step keeps the window, or is a reset or VIEW. -/
theorem Stepped.window {s t : State} (hs : Stepped s t) :
    (t.vbase = s.vbase ∧ t.vlen = s.vlen) ∨
      ∃ rest, s.host = .reset :: rest ∨
        ∃ c base len, s.host = .command c :: rest ∧ decode c = .ok (.view base len) := by
  cases hs with
  | ran c i rest t hh hd he =>
    rcases (exec_effect he).window with hkept | ⟨base, len, rfl⟩
    · exact .inl hkept
    · exact .inr ⟨rest, .inr ⟨c, base, len, hh, hd⟩⟩
  | wasReset rest hh => exact .inr ⟨rest, .inl hh⟩
  | idle _ => exact .inl ⟨rfl, rfl⟩
  | rejected c r rest _ _ => exact .inl ⟨rfl, rfl⟩
  | wroteBuf a b rest _ _ => exact .inl ⟨rfl, rfl⟩
  | wrotePay a b rest _ _ => exact .inl ⟨rfl, rfl⟩
  | wasRead what rest _ => exact .inl ⟨rfl, rfl⟩

/-- Settles O43, by the cases of a step. -/
theorem onlyViewMovesWindow : Obligations.OnlyViewMovesWindow := by
  intro s t hstep hmoved
  rcases (step_stepped hstep).window with ⟨hbase, hlen⟩ | hmover
  · exact absurd hmoved (not_or.mpr ⟨not_not.mpr hbase, not_not.mpr hlen⟩)
  · exact hmover

/-! ## The classes of commands -/

/-- Settles O44, by the effects of a command: a failure changes STATUS alone, and each class writes its own part of the
state. -/
theorem commandClassesKeepApart : Obligations.CommandClassesKeepApart := by
  intro i s t hexec
  cases exec_effect hexec with
  | failed f => exact ⟨rfl, rfl, rfl, rfl, fun _ => ⟨rfl, rfl, rfl, rfl, rfl⟩, fun _ => rfl⟩
  | got hg r _ =>
    refine ⟨rfl, rfl, rfl, rfl, fun hng => ?_, fun _ => rfl⟩
    rw [hg] at hng
    cases hng
  | wrote hset u hu =>
    rw [hu.eq]
    refine ⟨rfl, rfl, rfl, rfl, fun _ => ⟨rfl, rfl, rfl, rfl, rfl⟩, fun hns => ?_⟩
    rw [hset] at hns
    cases hns
  | viewed base len _ _ _ _ => exact ⟨rfl, rfl, rfl, rfl, fun _ => ⟨rfl, rfl, rfl, rfl, rfl⟩, fun _ => rfl⟩

/-! ## STATUS and the results steer nothing (10_state.md rule R26) -/

/-- `s` with STATUS and the result registers of `r`: what no command may depend on. -/
def State.withRegs (s r : State) : State :=
  { s with
    status := r.status, resVal := r.resVal, resW := r.resW, resPresent := r.resPresent, resOff := r.resOff,
    resLen := r.resLen }

/-- A write of bytes does the same to BUF under other registers. The other reads and checks of a command are equal under
other registers by definition. -/
theorem writeBytes_withRegs (s r : State) (off : Nat) (bs : List Byte) :
    (s.withRegs r).writeBytes off bs = (·.withRegs r) <$> s.writeBytes off bs := by
  have hin : (s.withRegs r).inBuf off bs.length = s.inBuf off bs.length := rfl
  unfold State.writeBytes
  rw [hin]
  split <;> rfl

theorem writeByte_withRegs (s r : State) (off : Nat) (b : Byte) :
    (s.withRegs r).writeByte off b = (·.withRegs r) <$> s.writeByte off b := writeBytes_withRegs s r off [b]

theorem memWrite_withRegs (s r : State) (off n v : Nat) :
    (s.withRegs r).memWrite off n v = (·.withRegs r) <$> s.memWrite off n v := writeBytes_withRegs s r off _

theorem writeField_withRegs (s r : State) (b0 : Byte) (off n v : Nat) :
    (s.withRegs r).writeField b0 off n v = (·.withRegs r) <$> s.writeField b0 off n v := by
  simp only [State.writeField, writeByte_withRegs, memWrite_withRegs, bind_map_left, map_bind]

theorem pnWrite_withRegs (s r : State) (off w v : Nat) :
    (s.withRegs r).pnWrite off w v = (·.withRegs r) <$> s.pnWrite off w v := by
  unfold State.pnWrite
  split
  · simp only [memWrite_withRegs, bind_map_left, map_bind]
  · exact memWrite_withRegs s r off w v

theorem writeKindHeader_withRegs (s r : State) (flag : Byte) (cid : Operand) :
    (s.withRegs r).writeKindHeader flag cid = (·.withRegs r) <$> s.writeKindHeader flag cid := by
  simp only [State.writeKindHeader, writeField_withRegs, map_bind]
  rfl

/-- How a command treats STATUS and the result registers: a setter or VIEW carries them through the one computation, a getter
computes its result without them (10_state.md rule R26). -/
inductive Unsteered (i : Instr) (s r : State) : Prop
  | changes (hg : isGetter i = false) (c c' : Comp State) (h : exec i s = s.finish c)
      (h' : exec i (s.withRegs r) = (s.withRegs r).finish c') (hc : c' = (·.withRegs r) <$> c)
  | reads (c : Comp Result) (h : exec i s = s.answer c) (h' : exec i (s.withRegs r) = (s.withRegs r).answer c)

theorem unsteered_ftSetFlags (s r : State) (bits : Operand) : Unsteered (.ftSetFlags bits) s r := by
  refine .changes rfl _ _ rfl rfl ?_
  simp only [map_bind]
  refine bind_congr fun _ => bind_congr fun _ => bind_congr fun b => ?_
  cases flagMask b with
  | some mask => exact writeByte_withRegs s r 0 _
  | none => rfl

theorem unsteered_sfSetData (s r : State) (n : Operand) : Unsteered (.sfSetData n) s r := by
  refine .changes rfl _ _ rfl rfl ?_
  simp only [map_bind]
  refine bind_congr fun _ => bind_congr fun _ => bind_congr fun b => ?_
  split
  · rfl
  · simp only [writeField_withRegs, writeBytes_withRegs, bind_map_left, map_bind]
    rfl

theorem unsteered_phSetPn (s r : State) (w : Nat) (special : Bool) (pn : Operand) :
    Unsteered (.phSetPn w special pn) s r := by
  refine .changes rfl _ _ rfl rfl ?_
  simp only [writeByte_withRegs, pnWrite_withRegs, bind_map_left, map_bind]
  rfl

/-- No command is steered by STATUS or the result registers: a getter's computation is the same by definition, a setter's by
the laws of its writes. -/
theorem exec_unsteered (i : Instr) (s r : State) : Unsteered i s r := by
  cases i with
  | ftKind | ftFlags | ftLen | sfSid | sfOff | sfData | sfLen | phFlags | phCid | phVer | phPn | phLen | rpData | vnVer
  | vnCount => exact .reads _ rfl rfl
  | prLen | rpLen | vnLen => exact .reads (.ok (Result.length s.vlen.toNat)) rfl rfl
  | view | ftSetKind | sfSetSid | sfAddOff | phSetFlags | phSetCid | phSetVer | rpSetData | vnSetVer =>
    refine .changes rfl _ _ rfl rfl ?_
    simp only [writeByte_withRegs, writeBytes_withRegs, memWrite_withRegs, writeField_withRegs, map_bind]
    rfl
  | prSetCid cid => exact .changes rfl _ _ rfl rfl (writeKindHeader_withRegs s r _ cid)
  | vnSetCid cid => exact .changes rfl _ _ rfl rfl (writeKindHeader_withRegs s r _ cid)
  | ftSetFlags bits => exact unsteered_ftSetFlags s r bits
  | sfSetData n => exact unsteered_sfSetData s r n
  | phSetPn w special pn => exact unsteered_phSetPn s r w special pn

/-- A command under other registers ends as it would have, but for FAULT and the registers it does not write: a success is
one computation's, and a failure has the same code. -/
theorem exec_withRegs {i : Instr} {s t : State} (r : State) (hexec : exec i s = .next t) :
    ∃ u, exec i (s.withRegs r) = .next u ∧
      u.buf = t.buf ∧ u.pay = t.pay ∧ u.vbase = t.vbase ∧ u.vlen = t.vlen ∧ u.status.toNat % 8 = t.status.toNat % 8 ∧
      (isGetter i = true → t.status.toNat % 8 = 0 → u.resVal = t.resVal ∧ u.resW = t.resW ∧
        u.resPresent = t.resPresent ∧ u.resOff = t.resOff ∧ u.resLen = t.resLen) := by
  cases exec_unsteered i s r with
  | changes hg c c' h h' hc =>
    subst hc
    have hno : isGetter i ≠ true := ne_true_of_eq_false hg
    rcases finish_inv (h.symm.trans hexec) with ⟨u, rfl, rfl⟩ | ⟨f, rfl, rfl⟩
    · refine ⟨_, h', rfl, rfl, rfl, rfl, ?_, fun hget => absurd hget hno⟩
      exact (statusCode_onSuccess r.status).trans (statusCode_onSuccess u.status).symm
    · exact ⟨_, h', rfl, rfl, rfl, rfl, rfl, fun hget => absurd hget hno⟩
  | reads c h h' =>
    rcases answer_inv (h.symm.trans hexec) with ⟨res, rfl, rfl⟩ | ⟨f, rfl, rfl⟩
    · refine ⟨_, h', rfl, rfl, rfl, rfl, ?_, fun _ _ => ⟨rfl, rfl, rfl, rfl, rfl⟩⟩
      exact (statusCode_onSuccess r.status).trans (statusCode_onSuccess s.status).symm
    · exact ⟨_, h', rfl, rfl, rfl, rfl, rfl, fun _ hok => absurd hok (statusCode_onFailure_ne_zero f)⟩

/-- Settles O47: the obligation's second state is `s` with the registers of some state. -/
theorem statusAndResultsSteerNothing : Obligations.StatusAndResultsSteerNothing :=
  fun _ s _ status resVal resW resPresent resOff resLen hexec =>
    exec_withRegs ⟨s.cfg, s.host, s.epoch, s.buf, s.pay, s.vbase, s.vlen, status, resVal, resW, resPresent, resOff, resLen⟩
      hexec

/-! ## The host and reset -/

/-- Settles O5. -/
theorem stepRunsDecodedCommand : Obligations.StepRunsDecodedCommand := by
  intro s t rest hh
  have hstep : step s = issue t { s with host := rest } := step_of_host hh
  exact ⟨fun i hi => hstep.trans (issue_of_decode hi _), fun r hr => hstep.trans (issue_of_reject hr _)⟩

/-- Settles O6, by read after write of a byte memory. -/
theorem hostWriteChangesOneByte : Obligations.HostWriteChangesOneByte := by
  intro s a b rest
  constructor
  · intro hh ha
    refine ⟨_, (step_of_host hh).trans (hostWriteBuf_next b ha), rfl, ?_, fun x hx => ?_⟩
    · exact (bufByte_store s a b a).trans (if_pos rfl)
    · exact (bufByte_store s a b x).trans (if_neg hx)
  · intro hh ha
    refine ⟨_, (step_of_host hh).trans (hostWritePay_next b ha), rfl, ?_, fun x hx => ?_⟩
    · exact (payByte_store s a b a).trans (if_pos rfl)
    · exact (payByte_store s a b x).trans (if_neg hx)

/-- Settles O8: a reset step is the state `resetWith` gives, with the host's remaining actions and the next epoch. -/
theorem resetLeavesRegistersZero : Obligations.ResetLeavesRegistersZero :=
  ⟨fun _ => rfl, fun s _ hh => ⟨s.epoch + 1, step_of_host hh, Nat.succ_ne_self _⟩⟩

/-- Settles O9. -/
theorem resetSatisfiesInvariant : Obligations.ResetSatisfiesInvariant :=
  ⟨fun _ hp => State.resetWith_inv hp, State.resetWith_inv (by decide)⟩

end Sys2Proof.Machine
end

section
/-! PROOFS. The view as the memory of a command (20_memory.md): what the host reads, the footprint of a command, and a
getter issued again. -/

namespace Sys2Proof.Machine

/-! ## Reads of the host -/

/-- A read of an address that exists, or of a register, has a value. -/
theorem readByHost_of_inRange {s : State} {what : HostRead} (h : HostAction.inRange s.cfg (.read what)) :
    ∃ v, s.readByHost what = .ok v := by
  cases what with
  | buf a => exact ⟨_, if_pos h⟩
  | pay a => exact ⟨_, if_pos h⟩
  | vbase | vlen | status | resVal | resW | resPresent | resOff | resLen => exact ⟨_, rfl⟩

theorem hostRead_of_value {s : State} {what : HostRead} {v : Nat} (h : s.readByHost what = .ok v) :
    hostRead what s = .next s := by
  unfold hostRead
  rw [h]

/-- Settles O7: a read that has a value leaves the state, and a byte's value is the byte. -/
theorem hostReadChangesNothing : Obligations.HostReadChangesNothing := by
  intro s what rest hh hin
  obtain ⟨v, hv⟩ : ∃ v, ({ s with host := rest } : State).readByHost what = .ok v := readByHost_of_inRange hin
  refine ⟨(step_of_host hh).trans (hostRead_of_value hv), fun a ha => ?_, fun a ha => ?_⟩
  · subst ha
    exact if_pos hin
  · subst ha
    exact if_pos hin

/-! ## The footprint of a command -/

/-- A byte that BUF lists alike is the same byte: the free bytes of both states are those of one epoch. -/
theorem State.BufOnly.bufByte {s u : State} (h : s.BufOnly u) {a : Nat}
    (ha : ¬(s.vbase.toNat ≤ a ∧ a < s.vbase.toNat + s.vlen.toNat)) : u.bufByte a = s.bufByte a := by
  have hepoch : u.epoch = s.epoch := by rw [h.eq]
  unfold State.bufByte
  rw [h.outside a ha, hepoch]

/-- Settles O45: of the effects of a command only a setter's touches BUF, and it stays inside the view. -/
theorem writesStayInsideView : Obligations.WritesStayInsideView := by
  intro i s t hexec a ha
  cases exec_effect hexec with
  | failed f => rfl
  | got _ r _ => rfl
  | wrote _ u hu => exact hu.bufByte (by omega)
  | viewed base len _ _ _ _ => rfl

/-! ## A getter again (20_memory.md rule R55) -/

theorem statusOnSuccess_again (status : BitVec 8) : statusOnSuccess (statusOnSuccess status) = statusOnSuccess status := by
  revert status; decide

/-- A getter's answer, given again from the state it left, is that state. -/
theorem answer_again {s t : State} {c : Comp Result} (h : s.answer c = .next t) :
    (s.withRegs t).answer c = .next t := by
  rcases answer_inv h with ⟨r, rfl, rfl⟩ | ⟨f, rfl, rfl⟩
  · rw [answer_ok]
    simp only [State.succeed, State.withResult, State.withRegs, statusOnSuccess_again]
  · rfl

/-- A getter writes no more than STATUS and the result registers. -/
theorem answer_withRegs {s t : State} {c : Comp Result} (h : s.answer c = .next t) : t = s.withRegs t := by
  rcases answer_inv h with ⟨r, -, rfl⟩ | ⟨f, -, rfl⟩ <;> rfl

/-- Settles O51: a getter's result does not depend on the registers it writes, so the second answer is the first. -/
theorem getterIsIdempotent : Obligations.GetterIsIdempotent := by
  intro i s t hget hexec
  cases exec_unsteered i s t with
  | changes hno _ _ _ _ _ => exact absurd hget (ne_true_of_eq_false hno)
  | reads c h h' =>
    have hanswer : s.answer c = .next t := h.symm.trans hexec
    calc exec i t = exec i (s.withRegs t) := congrArg (exec i) (answer_withRegs hanswer)
      _ = (s.withRegs t).answer c := h'
      _ = .next t := answer_again hanswer

end Sys2Proof.Machine
end

section
/-! SUPPORT. Two computations that end alike, step by step: with related values, or with the same failure. -/

namespace Sys2Proof.Machine

/-- Both computations succeed, with values in `R`, or both fail alike; neither stops the model. -/
inductive Comp.Alike {α β : Type} (R : α → β → Prop) : Comp α → Comp β → Prop
  | ok {a : α} {b : β} (h : R a b) : Comp.Alike R (.ok a) (.ok b)
  | failure (f : Failure) : Comp.Alike R (.error (.failure f)) (.error (.failure f))

/-- The same value on both sides, with a property of it. -/
def Same {α : Type} (P : α → Prop) (a b : α) : Prop := b = a ∧ P a

/-- Sequences end alike when their parts do. -/
theorem Comp.Alike.bind {α β γ δ : Type} {R : α → β → Prop} {Q : γ → δ → Prop} {c : Comp α} {d : Comp β}
    {f : α → Comp γ} {g : β → Comp δ} (h : Comp.Alike R c d) (hfg : ∀ a b, R a b → Comp.Alike Q (f a) (g b)) :
    Comp.Alike Q (c >>= f) (d >>= g) := by
  cases h with
  | ok hab => exact hfg _ _ hab
  | failure f => exact .failure f

/-- Sequences whose first parts end alike, with the same value. -/
theorem Comp.Alike.bindSame {α γ δ : Type} {P : α → Prop} {Q : γ → δ → Prop} {c d : Comp α}
    {f : α → Comp γ} {g : α → Comp δ} (h : Comp.Alike (Same P) c d) (hfg : ∀ a, P a → Comp.Alike Q (f a) (g a)) :
    Comp.Alike Q (c >>= f) (d >>= g) :=
  h.bind fun a _ ⟨hab, ha⟩ => hab ▸ hfg a ha

theorem alike_require (c : Bool) (f : Failure) : Comp.Alike (Same fun _ => c = true) (require c f) (require c f) := by
  cases c with
  | true => exact .ok ⟨rfl, rfl⟩
  | false => exact .failure f

theorem alike_need (s : State) (k : Nat) : Comp.Alike (Same fun _ => k ≤ s.vlen.toNat) (s.need k) (s.need k) := by
  by_cases h : k ≤ s.vlen.toNat
  · rw [need_ok h]
    exact .ok ⟨rfl, h⟩
  · rw [need_fail (not_le.mp h)]
    exact .failure _

theorem alike_sidWidth (f : Byte) : Comp.Alike (Same fun w => 1 ≤ w) (sidWidth f) (sidWidth f) := by
  unfold sidWidth
  split
  · exact .failure _
  · exact .ok ⟨rfl, Nat.le_add_left 1 _⟩

theorem alike_offWidth (f : Byte) : Comp.Alike (Same fun _ => True) (offWidth f) (offWidth f) := by
  unfold offWidth
  split
  · exact .ok ⟨rfl, trivial⟩
  · split
    · exact .ok ⟨rfl, trivial⟩
    · exact .failure _

theorem alike_offsetFieldAt (f : Byte) : Comp.Alike (Same fun o => 1 ≤ o) (offsetFieldAt f) (offsetFieldAt f) :=
  (alike_sidWidth f).bindSame fun w _ => .ok ⟨rfl, Nat.le_add_right 1 w⟩

theorem alike_dataFieldAt (f : Byte) : Comp.Alike (Same fun o => 1 ≤ o) (dataFieldAt f) (dataFieldAt f) :=
  (alike_offsetFieldAt f).bindSame fun _ ho =>
    (alike_offWidth f).bindSame fun _ _ => .ok ⟨rfl, Nat.le_add_right_of_le ho⟩

end Sys2Proof.Machine
end

section
/-! SUPPORT. What a setter does, said once: a plan, computed from byte 0 of the view, of the bytes it leaves. That every
setter follows its plan is `followsPlan_of_isSetter`; the writes and failures of a setter follow from it. -/

namespace Sys2Proof.Machine

/-- What a setter leaves in the view: byte 0, and a field of bytes, empty where it writes none. -/
structure Written where
  byte0 : Byte
  off : Nat
  bytes : List Byte

/-- `u` is `s` with what a setter leaves, in the claims' words. -/
def State.Leaves (s u : State) (x : Written) : Prop :=
  s.Wrote u.succeed x.byte0 x.off x.bytes.length fun j => x.bytes.getD j 0

/-- The checks of a setter's operands, steps 2 and 3 of 60_exceptions.md rule R213. The other
commands are not the subject. -/
def operandCheck (p : Params) : Instr → Comp Unit
  | .ftSetKind kind => requireKind kind
  | .ftSetFlags bits | .phSetFlags bits => require (decide (bits.toNat < 256)) .operandRange
  | .sfSetSid w sid => do
    requireWidth w sidWidths
    requireFits sid w
  | .sfAddOff w off => do
    requireWidth w offWidths
    requireFits off w
  | .sfSetData n => do
    require (decide (n.toNat ≤ 65535)) .operandRange
    require (decide (n.toNat ≤ p.payCap)) .operandRange
  | .phSetCid w cid => do
    requireWidth w cidWidths
    requireFits cid w
  | .phSetVer ver => require (decide (ver.toNat < 2 ^ 32)) .operandRange
  | .phSetPn w special pn => do
    requireWidth w (pnWidths special)
    requireFits pn w
  | .rpSetData n => do
    require (decide (n.toNat < 2 ^ 32)) .operandRange
    require (decide (n.toNat ≤ p.payCap)) .operandRange
  | .vnSetVer index ver => do
    require (decide (index.toNat < 2 ^ 32)) .operandRange
    require (decide (ver.toNat < 2 ^ 32)) .operandRange
  | _ => .ok ()

/-- The type byte after FT.SETFLAGS (41_frametype.md rule R142). -/
def withFlags (b v : Byte) : Byte :=
  match flagMask b with
  | some mask => b ||| (v &&& mask)
  | none => b

/-- What a setter leaves in the view of `s` when byte 0 of it is `b`, or the failure it ends with. The
other commands write nothing. -/
def setterPlan (s : State) (b : Byte) : Instr → Comp Written
  | .ftSetKind kind => .ok ⟨BitVec.ofNat 8 kind.toNat, 1, []⟩
  | .ftSetFlags bits => .ok ⟨withFlags b (BitVec.ofNat 8 bits.toNat), 1, []⟩
  | .sfSetSid w sid => do
    require (isStream b) .kindMismatch
    s.need (1 + w)
    return ⟨withSidWidth b w, 1, leBytes w sid.toNat⟩
  | .sfAddOff w off => do
    require (isStream b) .kindMismatch
    let o ← offsetFieldAt (streamFlags b)
    s.need (o + w)
    return ⟨withOffWidth b w, o, leBytes w off.toNat⟩
  | .sfSetData n => do
    require (isStream b) .kindMismatch
    if n.toNat = 0 then return ⟨b, 1, []⟩
    else do
      let o ← dataFieldAt (streamFlags b)
      s.need (o + 2 + n.toNat)
      return ⟨b ||| 0x20, o, leBytes 2 n.toNat ++ s.payload n.toNat⟩
  | .phSetFlags bits => .ok ⟨b ||| BitVec.ofNat 8 bits.toNat, 1, []⟩
  | .phSetCid w cid => do
    s.need (1 + w)
    return ⟨withCidWidth s.cfg.cidMap b w, 1, leBytes w cid.toNat⟩
  | .phSetVer ver => do
    s.need (1 + cidWidth s.cfg.cidMap b + 4)
    return ⟨b ||| versionFlag, 1 + cidWidth s.cfg.cidMap b, leBytes 4 ver.toNat⟩
  | .phSetPn w special pn => do
    s.need (pnFieldAt s.cfg.cidMap b special + w)
    return ⟨withPnWidth b w, pnFieldAt s.cfg.cidMap b special, leBytes w pn.toNat⟩
  | .prSetCid cid => do
    s.need 9
    return ⟨withCidWidth s.cfg.cidMap b 8 ||| publicResetFlag, 1, leBytes 8 cid.toNat⟩
  | .vnSetCid cid => do
    s.need 9
    return ⟨withCidWidth s.cfg.cidMap b 8 ||| versionFlag, 1, leBytes 8 cid.toNat⟩
  | .rpSetData n => do
    s.need (hdrLen s.cfg.cidMap b false + n.toNat)
    return ⟨b, hdrLen s.cfg.cidMap b false, s.payload n.toNat⟩
  | .vnSetVer index ver => do
    s.need (hdrLen s.cfg.cidMap b true + 4 * index.toNat + 4)
    return ⟨b, hdrLen s.cfg.cidMap b true + 4 * index.toNat, leBytes 4 ver.toNat⟩
  | _ => .ok ⟨b, 1, []⟩

/-- A setter in the order of 60_exceptions.md rule R213: its operands, a first byte, then what that byte says. -/
def setterRun (s : State) (b : Byte) (i : Instr) : Comp Written := do
  operandCheck s.cfg i
  s.need 1
  setterPlan s b i

/-! ## The writes of a setter -/

theorem flagsByte_eq {s : State} (hv : s.ViewInBuf) :
    s.flagsByte = s.need 1 >>= fun _ => (.ok (s.B 0) : Comp Byte) := by
  by_cases h : 1 ≤ s.vlen.toNat
  · rw [flagsByte_ok hv h, need_ok h, Comp.ok_bind]
  · rw [flagsByte_short (not_le.mp h), need_fail (not_le.mp h), Comp.error_bind]

theorem streamByte_eq {s : State} (hv : s.ViewInBuf) :
    s.streamByte = s.need 1 >>= fun _ => require (isStream (s.B 0)) .kindMismatch >>= fun _ => .ok (s.B 0) := by
  by_cases h : 1 ≤ s.vlen.toNat
  · simp [State.streamByte, need_ok h, viewByte_ok hv h]
  · simp [State.streamByte, need_fail (not_le.mp h)]

theorem leaves_nothing (s : State) : s.Leaves s ⟨s.B 0, 1, []⟩ :=
  ⟨rfl, rfl, fun _ hj => absurd hj (Nat.not_lt_zero _), fun _ _ _ => rfl⟩

theorem alike_writeByte {s : State} (hv : s.ViewInBuf) (h1 : 1 ≤ s.vlen.toNat) (b0 : Byte) :
    Comp.Alike s.Leaves (s.writeByte 0 b0) (.ok ⟨b0, 1, []⟩) := by
  obtain ⟨u, hu, hwrote⟩ := writeByte_zero_wrote hv h1 b0 fun j => ([] : List Byte).getD j 0
  rw [hu]
  exact .ok hwrote

theorem alike_writeBytes {s : State} (hv : s.ViewInBuf) {off : Nat} {bs : List Byte} (h1 : 1 ≤ off)
    (hn : off + bs.length ≤ s.vlen.toNat) : Comp.Alike s.Leaves (s.writeBytes off bs) (.ok ⟨s.B 0, off, bs⟩) := by
  obtain ⟨u, hu, hwrote⟩ := writeBytes_wrote hv (f := fun j => bs.getD j 0) h1 hn fun _ _ => rfl
  rw [hu]
  exact .ok hwrote

theorem alike_writeByte_writeBytes {s : State} (hv : s.ViewInBuf) (b0 : Byte) {off : Nat} {bs : List Byte} (h1 : 1 ≤ off)
    (hn : off + bs.length ≤ s.vlen.toNat) :
    Comp.Alike s.Leaves (s.writeByte 0 b0 >>= fun t => t.writeBytes off bs) (.ok ⟨b0, off, bs⟩) := by
  obtain ⟨u, v, hu, -, -, hv', hwrote⟩ :=
    writeByte_writeBytes_ok hv (b0 := b0) (f := fun j => bs.getD j 0) h1 hn fun _ _ => rfl
  rw [hu, Comp.ok_bind, hv']
  exact .ok hwrote

theorem alike_writeField {s : State} (hv : s.ViewInBuf) (b0 : Byte) {off n : Nat} (v : Nat) (h1 : 1 ≤ off)
    (hn : off + n ≤ s.vlen.toNat) : Comp.Alike s.Leaves (s.writeField b0 off n v) (.ok ⟨b0, off, leBytes n v⟩) :=
  alike_writeByte_writeBytes hv b0 h1 (by simpa using hn)

/-- A write of byte 0 leaves the view's window, so the writes after it find the same room. -/
theorem writeByte_zero_next {s : State} (hv : s.ViewInBuf) (h1 : 1 ≤ s.vlen.toNat) (b0 : Byte) :
    ∃ u, s.writeByte 0 b0 = .ok u ∧ u.ViewInBuf ∧ u.vlen = s.vlen :=
  ⟨_, writeBytes_ok hv (bs := [b0]) (by simpa using h1), hv, rfl⟩

/-- PH.SETPN's two writes are those of a field. -/
theorem writeByte_pnWrite_eq {s : State} (hv : s.ViewInBuf) (b0 : Byte) {off w : Nat} (v : Nat) (h1 : 1 ≤ off)
    (hn : off + w ≤ s.vlen.toNat) : (s.writeByte 0 b0 >>= fun t => t.pnWrite off w v) = s.writeField b0 off w v := by
  obtain ⟨u, hu, hvu, hlen⟩ := writeByte_zero_next hv (by omega) b0
  rw [State.writeField, hu]
  exact pnWrite_eq hvu (by rw [hlen]; exact hn)

/-- SF.SETDATA's writes are byte 0 and one field, DataLen and the payload behind it. -/
theorem writeField_payload_eq {s : State} (hv : s.ViewInBuf) (b0 : Byte) {off n : Nat} (v : Nat) {bs : List Byte}
    (h1 : 1 ≤ off) (hn : off + n + bs.length ≤ s.vlen.toNat) :
    (s.writeField b0 off n v >>= fun t => t.writeBytes (off + n) bs) =
      s.writeByte 0 b0 >>= fun t => t.writeBytes off (leBytes n v ++ bs) := by
  obtain ⟨u, hu, hvu, hlen⟩ := writeByte_zero_next hv (by omega) b0
  have happend := writeBytes_append hvu (off := off) (bs := leBytes n v) (cs := bs)
    (by rw [hlen, leBytes_length]; exact hn)
  rw [leBytes_length] at happend
  rw [State.writeField, hu]
  exact happend

/-! ## The setters -/

/-- The computation of `i` in `s` ends as the plan of `i` says. -/
def FollowsPlan (i : Instr) (s : State) : Prop :=
  ∃ c, exec i s = s.finish c ∧ Comp.Alike s.Leaves c (setterRun s (s.B 0) i)

theorem followsPlan_ftSetKind {s : State} (hv : s.ViewInBuf) (kind : Operand) : FollowsPlan (.ftSetKind kind) s := by
  refine ⟨_, rfl, (alike_require _ _).bindSame fun _ _ => (alike_need s 1).bindSame fun _ h1 => ?_⟩
  exact alike_writeByte hv h1 _

theorem followsPlan_ftSetFlags {s : State} (hv : s.ViewInBuf) (bits : Operand) : FollowsPlan (.ftSetFlags bits) s := by
  refine ⟨_, rfl, (alike_require _ _).bindSame fun _ _ => (alike_need s 1).bindSame fun _ h1 => ?_⟩
  rw [viewByte_ok hv h1, Comp.ok_bind]
  simp only [setterPlan, withFlags]
  cases flagMask (s.B 0) with
  | some mask => exact alike_writeByte hv h1 _
  | none => exact .ok (leaves_nothing s)

theorem followsPlan_sfSetSid {s : State} (hv : s.ViewInBuf) (w : Nat) (sid : Operand) :
    FollowsPlan (.sfSetSid w sid) s := by
  refine ⟨_, rfl, ?_⟩
  simp only [setterRun, operandCheck, setterPlan, streamByte_eq hv, bind_assoc, Comp.ok_bind]
  refine (alike_require _ _).bindSame fun _ _ => (alike_require _ _).bindSame fun _ _ => ?_
  refine (alike_need s 1).bindSame fun _ _ => (alike_require _ _).bindSame fun _ _ => ?_
  exact (alike_need s _).bindSame fun _ hn => alike_writeField hv _ _ le_rfl hn

theorem followsPlan_sfAddOff {s : State} (hv : s.ViewInBuf) (w : Nat) (off : Operand) :
    FollowsPlan (.sfAddOff w off) s := by
  refine ⟨_, rfl, ?_⟩
  simp only [setterRun, operandCheck, setterPlan, streamByte_eq hv, bind_assoc, Comp.ok_bind]
  refine (alike_require _ _).bindSame fun _ _ => (alike_require _ _).bindSame fun _ _ => ?_
  refine (alike_need s 1).bindSame fun _ _ => (alike_require _ _).bindSame fun _ _ => ?_
  refine (alike_offsetFieldAt _).bindSame fun o ho => ?_
  exact (alike_need s _).bindSame fun _ hn => alike_writeField hv _ _ ho hn

theorem followsPlan_sfSetData {s : State} (hv : s.ViewInBuf) (n : Operand) : FollowsPlan (.sfSetData n) s := by
  refine ⟨_, rfl, ?_⟩
  simp only [setterRun, operandCheck, setterPlan, streamByte_eq hv, bind_assoc, Comp.ok_bind]
  refine (alike_require _ _).bindSame fun _ _ => (alike_require _ _).bindSame fun _ _ => ?_
  refine (alike_need s 1).bindSame fun _ _ => (alike_require _ _).bindSame fun _ _ => ?_
  split
  · exact .ok (leaves_nothing s)
  · refine (alike_dataFieldAt _).bindSame fun o ho => (alike_need s _).bindSame fun _ hn => ?_
    rw [writeField_payload_eq hv _ _ ho (by rw [payload_length]; exact hn)]
    refine alike_writeByte_writeBytes hv _ ho ?_
    rw [List.length_append, leBytes_length, payload_length, ← Nat.add_assoc]
    exact hn

theorem followsPlan_phSetFlags {s : State} (hv : s.ViewInBuf) (bits : Operand) : FollowsPlan (.phSetFlags bits) s := by
  refine ⟨_, rfl, (alike_require _ _).bindSame fun _ _ => ?_⟩
  rw [flagsByte_eq hv, bind_assoc]
  exact (alike_need s 1).bindSame fun _ h1 => alike_writeByte hv h1 _

theorem followsPlan_phSetCid {s : State} (hv : s.ViewInBuf) (w : Nat) (cid : Operand) :
    FollowsPlan (.phSetCid w cid) s := by
  refine ⟨_, rfl, ?_⟩
  simp only [setterRun, operandCheck, setterPlan, flagsByte_eq hv, bind_assoc, Comp.ok_bind]
  refine (alike_require _ _).bindSame fun _ _ => (alike_require _ _).bindSame fun _ _ => ?_
  refine (alike_need s 1).bindSame fun _ _ => (alike_need s _).bindSame fun _ hn => ?_
  exact alike_writeField hv _ _ le_rfl hn

theorem followsPlan_phSetVer {s : State} (hv : s.ViewInBuf) (ver : Operand) : FollowsPlan (.phSetVer ver) s := by
  refine ⟨_, rfl, (alike_require _ _).bindSame fun _ _ => ?_⟩
  rw [flagsByte_eq hv, bind_assoc]
  refine (alike_need s 1).bindSame fun _ _ => (alike_need s _).bindSame fun _ hn => ?_
  exact alike_writeField hv _ _ (Nat.le_add_right 1 _) hn

theorem one_le_pnFieldAt (m : CidMap) (p : Byte) (special : Bool) : 1 ≤ pnFieldAt m p special :=
  Nat.le_add_right_of_le (Nat.le_add_right 1 _)

theorem followsPlan_phSetPn {s : State} (hv : s.ViewInBuf) (w : Nat) (special : Bool) (pn : Operand) :
    FollowsPlan (.phSetPn w special pn) s := by
  refine ⟨_, rfl, ?_⟩
  simp only [setterRun, operandCheck, setterPlan, flagsByte_eq hv, bind_assoc, Comp.ok_bind]
  refine (alike_require _ _).bindSame fun _ _ => (alike_require _ _).bindSame fun _ _ => ?_
  refine (alike_need s 1).bindSame fun _ _ => (alike_need s _).bindSame fun _ hn => ?_
  have ho := one_le_pnFieldAt s.cfg.cidMap (s.B 0) special
  rw [writeByte_pnWrite_eq hv _ _ ho hn]
  exact alike_writeField hv _ _ ho hn

/-- PR.SETCID and VN.SETCID, whose plans differ in the flag alone (44_packet_kinds.md rules R191, R200). -/
theorem alike_writeKindHeader {s : State} (hv : s.ViewInBuf) (flag : Byte) (cid : Operand) :
    Comp.Alike s.Leaves (s.writeKindHeader flag cid)
      (s.need 1 >>= fun _ => s.need 9 >>= fun _ =>
        .ok ⟨withCidWidth s.cfg.cidMap (s.B 0) 8 ||| flag, 1, leBytes 8 cid.toNat⟩) := by
  rw [State.writeKindHeader, flagsByte_eq hv, bind_assoc]
  refine (alike_need s 1).bindSame fun _ _ => (alike_need s 9).bindSame fun _ hn => ?_
  exact alike_writeField hv _ _ le_rfl hn

theorem one_le_hdrLen (m : CidMap) (p : Byte) (special : Bool) : 1 ≤ hdrLen m p special :=
  Nat.le_add_right_of_le (one_le_pnFieldAt m p special)

theorem followsPlan_rpSetData {s : State} (hv : s.ViewInBuf) (n : Operand) : FollowsPlan (.rpSetData n) s := by
  refine ⟨_, rfl, ?_⟩
  simp only [setterRun, operandCheck, setterPlan, State.headerLength, flagsByte_eq hv, bind_assoc, Comp.ok_bind,
    Comp.pure_eq_ok]
  refine (alike_require _ _).bindSame fun _ _ => (alike_require _ _).bindSame fun _ _ => ?_
  refine (alike_need s 1).bindSame fun _ _ => (alike_need s _).bindSame fun _ hn => ?_
  exact alike_writeBytes hv (one_le_hdrLen _ _ _) (by rw [payload_length]; exact hn)

theorem followsPlan_vnSetVer {s : State} (hv : s.ViewInBuf) (index ver : Operand) :
    FollowsPlan (.vnSetVer index ver) s := by
  refine ⟨_, rfl, ?_⟩
  simp only [setterRun, operandCheck, setterPlan, State.headerLength, flagsByte_eq hv, bind_assoc, Comp.ok_bind,
    Comp.pure_eq_ok]
  refine (alike_require _ _).bindSame fun _ _ => (alike_require _ _).bindSame fun _ _ => ?_
  refine (alike_need s 1).bindSame fun _ _ => (alike_need s _).bindSame fun _ hn => ?_
  exact alike_writeBytes hv (Nat.le_add_right_of_le (one_le_hdrLen _ _ _)) (by rw [leBytes_length]; exact hn)

/-- Every setter follows its plan, in every state whose view lies inside BUF. -/
theorem followsPlan_of_isSetter {i : Instr} {s : State} (hset : isSetter i = true) (hv : s.ViewInBuf) :
    FollowsPlan i s := by
  cases i with
  | ftSetKind kind => exact followsPlan_ftSetKind hv kind
  | ftSetFlags bits => exact followsPlan_ftSetFlags hv bits
  | sfSetSid w sid => exact followsPlan_sfSetSid hv w sid
  | sfAddOff w off => exact followsPlan_sfAddOff hv w off
  | sfSetData n => exact followsPlan_sfSetData hv n
  | phSetFlags bits => exact followsPlan_phSetFlags hv bits
  | phSetCid w cid => exact followsPlan_phSetCid hv w cid
  | phSetVer ver => exact followsPlan_phSetVer hv ver
  | phSetPn w special pn => exact followsPlan_phSetPn hv w special pn
  | prSetCid cid => exact ⟨_, rfl, alike_writeKindHeader hv publicResetFlag cid⟩
  | rpSetData n => exact followsPlan_rpSetData hv n
  | vnSetCid cid => exact ⟨_, rfl, alike_writeKindHeader hv versionFlag cid⟩
  | vnSetVer index ver => exact followsPlan_vnSetVer hv index ver
  | view | ftKind | ftFlags | ftLen | sfSid | sfOff | sfData | sfLen | phFlags | phCid | phVer | phPn | phLen | prLen
  | rpData | rpLen | vnVer | vnCount | vnLen => cases hset

/-- A setter whose plan names what it writes succeeds and leaves just that. -/
theorem setter_writes {i : Instr} {s : State} {x : Written} (hset : isSetter i = true) (hv : s.ViewInBuf)
    (hrun : setterRun s (s.B 0) i = .ok x) :
    ∃ t, exec i s = .next t ∧ s.Wrote t x.byte0 x.off x.bytes.length fun j => x.bytes.getD j 0 := by
  obtain ⟨c, hexec, halike⟩ := followsPlan_of_isSetter hset hv
  rw [hrun] at halike
  rw [hexec]
  cases halike with
  | ok hleaves => exact ⟨_, rfl, hleaves⟩

/-- A setter whose plan fails ends with that failure. -/
theorem setter_fails {i : Instr} {s : State} {f : Failure} (hset : isSetter i = true) (hv : s.ViewInBuf)
    (hrun : setterRun s (s.B 0) i = .error (.failure f)) : exec i s = .next (s.raiseFailure f) := by
  obtain ⟨c, hexec, halike⟩ := followsPlan_of_isSetter hset hv
  rw [hrun] at halike
  rw [hexec]
  cases halike with
  | failure => rfl

/-- A plan names what is written or a failure: no setter stops the model where the view lies inside BUF. -/
theorem setterRun_cases {i : Instr} {s : State} (hset : isSetter i = true) (hv : s.ViewInBuf) :
    (∃ x, setterRun s (s.B 0) i = .ok x) ∨ ∃ f, setterRun s (s.B 0) i = .error (.failure f) := by
  obtain ⟨c, -, halike⟩ := followsPlan_of_isSetter hset hv
  generalize setterRun s (s.B 0) i = run at halike
  cases halike with
  | ok _ => exact .inl ⟨_, rfl⟩
  | failure f => exact .inr ⟨f, rfl⟩

/-- A setter's plan depends on the parameters, PAY and the length of the view, and on no byte of BUF but the one it is
given, nor on STATUS. -/
theorem setterRun_congr (s : State) (buf : Memory) (status : BitVec 8) (b : Byte) (i : Instr) :
    setterRun { s with buf := buf, status := status } b i = setterRun s b i := by
  cases i <;> rfl

end Sys2Proof.Machine
end

section
/-! PROOFS. A setter issued again (20_memory.md rule R55): the bits a setter writes in byte 0 do not move its field. -/

namespace Sys2Proof.Machine

theorem setField_again (b mask v flag : Byte) :
    setField (setField b mask v ||| flag) mask v ||| flag = setField b mask v ||| flag := by
  ext j
  simp only [setField, BitVec.getElem_or, BitVec.getElem_and, BitVec.getElem_not]
  cases b[j] <;> cases mask[j] <;> cases v[j] <;> cases flag[j] <;> rfl

theorem or_again (b v : Byte) : b ||| v ||| v = b ||| v := by rw [BitVec.or_assoc, BitVec.or_self]

theorem setField_setField (b mask v : Byte) : setField (setField b mask v) mask v = setField b mask v := by
  simpa using setField_again b mask v 0

/-- The flag bits of a kind hold no kind marker, so setting them keeps the mask (30_encoding.md table R81). -/
theorem flagMask_or {b mask : Byte} (v : Byte) (h : flagMask b = some mask) :
    flagMask (b ||| (v &&& mask)) = some mask := by
  unfold flagMask isStream isAcknowledge at *
  split at h
  · cases h
    simp_all
  · split at h
    · cases h
      simp_all
    · cases h

theorem withFlags_again (b v : Byte) : withFlags (withFlags b v) v = withFlags b v := by
  cases h : flagMask b with
  | none => simp only [withFlags, h]
  | some mask => simp only [withFlags, h, flagMask_or v h, or_again]

/-! The bits a setter writes are not those that say where its field is. -/

theorem isStream_withSidWidth {w : Nat} (hw : w ∈ sidWidths) (b : Byte) :
    isStream (withSidWidth b w) = isStream b := by
  revert w b; decide

theorem isStream_withOffWidth {w : Nat} (hw : w ∈ offWidths) (b : Byte) :
    isStream (withOffWidth b w) = isStream b := by
  revert w b; decide

theorem sidCode_withOffWidth {w : Nat} (hw : w ∈ offWidths) (b : Byte) :
    sidCode (streamFlags (withOffWidth b w)) = sidCode (streamFlags b) := by
  revert w b; decide

theorem offsetFieldAt_withOffWidth {w : Nat} (hw : w ∈ offWidths) (b : Byte) :
    offsetFieldAt (streamFlags (withOffWidth b w)) = offsetFieldAt (streamFlags b) := by
  simp only [offsetFieldAt, sidWidth, sidCode_withOffWidth hw]

theorem isStream_withDataLen (b : Byte) : isStream (b ||| 0x20) = isStream b := by
  revert b; decide

theorem widthCodes_withDataLen (b : Byte) :
    sidCode (streamFlags (b ||| 0x20)) = sidCode (streamFlags b) ∧
      offCode (streamFlags (b ||| 0x20)) = offCode (streamFlags b) := by
  revert b; decide

theorem dataFieldAt_withDataLen (b : Byte) : dataFieldAt (streamFlags (b ||| 0x20)) = dataFieldAt (streamFlags b) := by
  obtain ⟨hsid, hoff⟩ := widthCodes_withDataLen b
  simp only [dataFieldAt, offsetFieldAt, sidWidth, offWidth, hsid, hoff]

theorem cidLenCode_withVersion (b : Byte) : cidLenCode (b ||| versionFlag) = cidLenCode b := by
  revert b; decide

theorem cidWidth_withVersion (m : CidMap) (b : Byte) : cidWidth m (b ||| versionFlag) = cidWidth m b := by
  simp only [cidWidth, cidLenCode_withVersion]

theorem widthFields_withPnWidth {w : Nat} (hw : w ∈ pnWidths false) (b : Byte) :
    cidLenCode (withPnWidth b w) = cidLenCode b ∧ hasVersion (withPnWidth b w) = hasVersion b := by
  revert w b; decide

theorem mem_pnWidths {w : Nat} {special : Bool} (h : w ∈ pnWidths special) : w ∈ pnWidths false := by
  cases special with
  | false => exact h
  | true => exact List.mem_cons_of_mem 1 h

theorem pnFieldAt_withPnWidth {w : Nat} {special : Bool} (hw : w ∈ pnWidths special) (m : CidMap) (b : Byte) :
    pnFieldAt m (withPnWidth b w) special = pnFieldAt m b special := by
  obtain ⟨hcid, hver⟩ := widthFields_withPnWidth (mem_pnWidths hw) b
  simp only [pnFieldAt, cidWidth, verWidth, hcid, hver]

theorem requireWidth_inv {w : Nat} {ws : List Nat} {u : Unit} (h : requireWidth w ws = .ok u) : w ∈ ws := by
  simpa using require_inv h

/-- A setter's plan for the byte 0 it writes is its plan again. -/
theorem setterPlan_again {s : State} {b : Byte} {i : Instr} {x : Written} (hcheck : operandCheck s.cfg i = .ok ())
    (h : setterPlan s b i = .ok x) : setterPlan s x.byte0 i = .ok x := by
  cases i with
  | ftSetKind kind => cases h; rfl
  | ftSetFlags bits =>
    cases h
    simp only [setterPlan, withFlags_again]
  | sfSetSid w sid =>
    obtain ⟨_, hw, -⟩ := Comp.bind_inv hcheck
    obtain ⟨_, hkind, h⟩ := Comp.bind_inv h
    obtain ⟨_, hneed, h⟩ := Comp.bind_inv h
    cases h
    simp only [setterPlan, isStream_withSidWidth (requireWidth_inv hw), hkind, hneed, Comp.ok_bind]
    simp only [withSidWidth, setField_setField, Comp.pure_eq_ok]
  | sfAddOff w off =>
    obtain ⟨_, hw, -⟩ := Comp.bind_inv hcheck
    obtain ⟨_, hkind, h⟩ := Comp.bind_inv h
    obtain ⟨o, ho, h⟩ := Comp.bind_inv h
    obtain ⟨_, hneed, h⟩ := Comp.bind_inv h
    cases h
    have hin := requireWidth_inv hw
    simp only [setterPlan, isStream_withOffWidth hin, offsetFieldAt_withOffWidth hin, hkind, ho, hneed, Comp.ok_bind]
    simp only [withOffWidth, setField_setField, Comp.pure_eq_ok]
  | sfSetData n =>
    obtain ⟨_, hkind, h⟩ := Comp.bind_inv h
    split at h
    · rename_i hn
      cases h
      simp only [setterPlan, hkind, Comp.ok_bind, if_pos hn, Comp.pure_eq_ok]
    · rename_i hn
      obtain ⟨o, ho, h⟩ := Comp.bind_inv h
      obtain ⟨_, hneed, h⟩ := Comp.bind_inv h
      cases h
      simp only [setterPlan, isStream_withDataLen, dataFieldAt_withDataLen, hkind, Comp.ok_bind, if_neg hn, ho, hneed,
        or_again, Comp.pure_eq_ok]
  | phSetFlags bits =>
    cases h
    simp only [setterPlan, or_again]
  | phSetCid w cid =>
    obtain ⟨_, hneed, h⟩ := Comp.bind_inv h
    cases h
    simp only [setterPlan, hneed, Comp.ok_bind, withCidWidth, setField_setField, Comp.pure_eq_ok]
  | phSetVer ver =>
    obtain ⟨_, hneed, h⟩ := Comp.bind_inv h
    cases h
    simp only [setterPlan, cidWidth_withVersion, hneed, Comp.ok_bind, or_again, Comp.pure_eq_ok]
  | phSetPn w special pn =>
    obtain ⟨_, hw, -⟩ := Comp.bind_inv hcheck
    obtain ⟨_, hneed, h⟩ := Comp.bind_inv h
    cases h
    simp only [setterPlan, pnFieldAt_withPnWidth (requireWidth_inv hw), hneed, Comp.ok_bind]
    simp only [withPnWidth, setField_setField, Comp.pure_eq_ok]
  | prSetCid cid | vnSetCid cid =>
    obtain ⟨_, hneed, h⟩ := Comp.bind_inv h
    cases h
    simp only [setterPlan, hneed, Comp.ok_bind, withCidWidth, setField_again, Comp.pure_eq_ok]
  | rpSetData n =>
    obtain ⟨_, hneed, h'⟩ := Comp.bind_inv h
    cases h'
    exact h
  | vnSetVer index ver =>
    obtain ⟨_, hneed, h'⟩ := Comp.bind_inv h
    cases h'
    exact h
  | view | ftKind | ftFlags | ftLen | sfSid | sfOff | sfData | sfLen | phFlags | phCid | phVer | phPn | phLen | prLen
  | rpData | rpLen | vnVer | vnCount | vnLen => cases h; rfl

theorem setterRun_again {s : State} {b : Byte} {i : Instr} {x : Written} (h : setterRun s b i = .ok x) :
    setterRun s x.byte0 i = .ok x := by
  obtain ⟨_, hcheck, h⟩ := Comp.bind_inv h
  obtain ⟨_, hneed, h⟩ := Comp.bind_inv h
  simp only [setterRun, hcheck, hneed, Comp.ok_bind]
  exact setterPlan_again hcheck h

theorem State.Wrote.byte0 {s t : State} {b0 : Byte} {off n : Nat} {v : Nat → Byte} (h : s.Wrote t b0 off n v) :
    t.B 0 = b0 := by
  obtain ⟨-, hzero, -⟩ := h
  exact hzero

/-- Two writes of the same bytes at the same window leave the same byte, if they found the same where they write none. -/
theorem State.Wrote.bufByte_eq {s s' t u : State} {b0 : Byte} {off n : Nat} {v : Nat → Byte} (h : s.Wrote t b0 off n v)
    (h' : s'.Wrote u b0 off n v) (hbase : s'.vbase = s.vbase) {a : Nat}
    (ha : a ≠ s.vbase.toNat → ¬(s.vbase.toNat + off ≤ a ∧ a < s.vbase.toNat + off + n) → s'.bufByte a = s.bufByte a) :
    u.bufByte a = t.bufByte a := by
  obtain ⟨-, htbase, -⟩ := h.fields
  obtain ⟨-, hubase, -⟩ := h'.fields
  obtain ⟨-, hzero, hfield, houtside⟩ := h
  obtain ⟨-, hzero', hfield', houtside'⟩ := h'
  simp only [State.B, hubase, htbase, hbase] at hzero hzero' hfield hfield' houtside'
  by_cases h0 : a = s.vbase.toNat
  · rw [h0]
    exact hzero'.trans hzero.symm
  · by_cases hin : s.vbase.toNat + off ≤ a ∧ a < s.vbase.toNat + off + n
    · obtain ⟨j, rfl⟩ := Nat.exists_eq_add_of_le hin.1
      have hj : j < n := by omega
      rw [Nat.add_assoc]
      exact (hfield' j hj).trans (hfield j hj).symm
    · rw [houtside' a h0 hin, houtside a h0 hin, ha h0 hin]

/-- Writing the same bytes again changes no byte. -/
theorem State.Wrote.again {s t u : State} {b0 : Byte} {off n : Nat} {v : Nat → Byte} (h : s.Wrote t b0 off n v)
    (h' : t.Wrote u b0 off n v) (a : Nat) : u.bufByte a = t.bufByte a := by
  obtain ⟨-, hbase, -⟩ := h.fields
  refine h.bufByte_eq h' hbase fun h0 hin => ?_
  obtain ⟨-, -, -, houtside⟩ := h
  exact houtside a h0 hin

theorem setterRun_wrote {s t : State} {b0 : Byte} {off n : Nat} {v : Nat → Byte} (h : s.Wrote t b0 off n v) (b : Byte)
    (i : Instr) : setterRun t b i = setterRun s b i := by
  rw [h.1]
  exact setterRun_congr s _ _ b i

/-- Settles O50: a setter that failed changed nothing its plan depends on; one that succeeded wrote a byte 0 whose plan is
the same, so it writes the same bytes. -/
theorem setterIsIdempotent : Obligations.SetterIsIdempotent := by
  intro i s t hset hv hexec
  rcases setterRun_cases hset hv with ⟨x, hrun⟩ | ⟨f, hrun⟩
  · obtain ⟨t', hnext, hwrote⟩ := setter_writes hset hv hrun
    cases hnext.symm.trans hexec
    have hagain : setterRun t (t.B 0) i = .ok x := by
      rw [setterRun_wrote hwrote, hwrote.byte0]
      exact setterRun_again hrun
    obtain ⟨u, hnext', hwrote'⟩ := setter_writes hset (hwrote.viewInBuf hv) hagain
    refine ⟨u, hnext', ?_, hwrote.again hwrote'⟩
    obtain ⟨-, -, -, -, -, hstatus⟩ := hwrote.fields
    obtain ⟨-, -, -, -, -, hstatus'⟩ := hwrote'.fields
    rw [hstatus', hstatus]
    exact statusOnSuccess_again s.status
  · cases (setter_fails hset hv hrun).symm.trans hexec
    have hagain : setterRun (s.raiseFailure f) (s.B 0) i = .error (.failure f) :=
      (setterRun_congr s s.buf (statusOnFailure f) _ i).trans hrun
    exact ⟨_, setter_fails (s := s.raiseFailure f) hset hv hagain, rfl, fun _ => rfl⟩

end Sys2Proof.Machine
end

section
/-! PROOFS. What a command reads (20_memory.md rule R57): two states with the same view end alike. -/

namespace Sys2Proof.Machine

/-- `s` with other contents of BUF. -/
abbrev State.withBuf (s : State) (other : Memory) : State := { s with buf := other }

/-- The view lies inside BUF and holds the same bytes under the other contents of BUF. -/
structure State.SameView (s : State) (other : Memory) : Prop where
  inBuf : s.ViewInBuf
  bytes : ∀ j, j < s.vlen.toNat → (s.withBuf other).B j = s.B j

/-! ## Reads of the view -/

theorem fieldValue_congr {s t : State} {off n : Nat} (h : ∀ j, j < n → t.B (off + j) = s.B (off + j)) :
    t.fieldValue off n = s.fieldValue off n := by
  induction n with
  | zero => rfl
  | succ n ih =>
    simp only [State.fieldValue, ih fun j hj => h j (Nat.lt_succ_of_lt hj), h n (Nat.lt_succ_self n)]

theorem State.SameView.fieldValue {s : State} {other : Memory} (h : s.SameView other) {off n : Nat}
    (hn : off + n ≤ s.vlen.toNat) : (s.withBuf other).fieldValue off n = s.fieldValue off n :=
  fieldValue_congr fun j hj => h.bytes (off + j) (by omega)

theorem State.SameView.viewByte {s : State} {other : Memory} (h : s.SameView other) (h1 : 1 ≤ s.vlen.toNat) :
    Comp.Alike (Same fun _ => True) (s.viewByte 0) ((s.withBuf other).viewByte 0) := by
  rw [viewByte_ok h.inBuf h1, viewByte_ok (s := s.withBuf other) h.inBuf h1]
  exact .ok ⟨h.bytes 0 h1, trivial⟩

theorem State.SameView.memRead {s : State} {other : Memory} (h : s.SameView other) {off n : Nat}
    (hn : off + n ≤ s.vlen.toNat) :
    Comp.Alike (Same fun _ => True) (s.memRead off n) ((s.withBuf other).memRead off n) := by
  rw [memRead_ok h.inBuf hn, memRead_ok (s := s.withBuf other) h.inBuf hn]
  exact .ok ⟨h.fieldValue hn, trivial⟩

theorem State.SameView.pnRead {s : State} {other : Memory} (h : s.SameView other) {off w : Nat}
    (hn : off + w ≤ s.vlen.toNat) :
    Comp.Alike (Same fun _ => True) (s.pnRead off w) ((s.withBuf other).pnRead off w) := by
  rw [pnRead_ok h.inBuf hn, pnRead_ok (s := s.withBuf other) h.inBuf hn]
  exact .ok ⟨h.fieldValue hn, trivial⟩

theorem State.SameView.flagsByte {s : State} {other : Memory} (h : s.SameView other) :
    Comp.Alike (Same fun _ => True) s.flagsByte (s.withBuf other).flagsByte :=
  (alike_need s 1).bindSame fun _ h1 => h.viewByte h1

theorem State.SameView.streamByte {s : State} {other : Memory} (h : s.SameView other) :
    Comp.Alike (Same fun _ => True) s.streamByte (s.withBuf other).streamByte :=
  (alike_need s 1).bindSame fun _ h1 => (h.viewByte h1).bindSame fun _ _ =>
    (alike_require _ _).bindSame fun _ _ => .ok ⟨rfl, trivial⟩

theorem State.SameView.headerLength {s : State} {other : Memory} (h : s.SameView other) (special : Bool) :
    Comp.Alike (Same fun _ => True) (s.headerLength special) ((s.withBuf other).headerLength special) :=
  h.flagsByte.bindSame fun _ _ => .ok ⟨rfl, trivial⟩

/-! ## The getters -/

/-- `i` is a getter whose computation ends with the same result under other contents of BUF. -/
def ReadsAlike (i : Instr) (s : State) (other : Memory) : Prop :=
  ∃ c c', exec i s = s.answer c ∧ exec i (s.withBuf other) = (s.withBuf other).answer c' ∧
    Comp.Alike (Same fun _ : Result => True) c c'

/-- A result that both computations give. -/
theorem alike_result (r : Result) : Comp.Alike (Same fun _ => True) (.ok r) (.ok r) := .ok ⟨rfl, trivial⟩

theorem readsAlike_ftKind {s : State} {other : Memory} (h : s.SameView other) : ReadsAlike .ftKind s other :=
  ⟨_, _, rfl, rfl, (alike_need s 1).bindSame fun _ h1 => (h.viewByte h1).bindSame fun _ _ => alike_result _⟩

theorem readsAlike_ftFlags {s : State} {other : Memory} (h : s.SameView other) : ReadsAlike .ftFlags s other := by
  refine ⟨_, _, rfl, rfl, (alike_need s 1).bindSame fun _ h1 => (h.viewByte h1).bindSame fun b _ => ?_⟩
  cases flagMask b with
  | some mask => exact alike_result _
  | none => exact alike_result _

theorem readsAlike_ftLen (s : State) (other : Memory) : ReadsAlike .ftLen s other :=
  ⟨_, _, rfl, rfl, (alike_need s 1).bindSame fun _ _ => alike_result _⟩

theorem readsAlike_sfSid {s : State} {other : Memory} (h : s.SameView other) : ReadsAlike .sfSid s other := by
  refine ⟨_, _, rfl, rfl, h.streamByte.bindSame fun b _ => (alike_sidWidth _).bindSame fun w _ => ?_⟩
  exact (alike_need s _).bindSame fun _ hn => (h.memRead hn).bindSame fun _ _ => alike_result _

theorem readsAlike_sfOff {s : State} {other : Memory} (h : s.SameView other) : ReadsAlike .sfOff s other := by
  refine ⟨_, _, rfl, rfl, h.streamByte.bindSame fun b _ => (alike_offsetFieldAt _).bindSame fun o _ => ?_⟩
  refine (alike_offWidth _).bindSame fun w _ => ?_
  split
  · exact alike_result _
  · exact (alike_need s _).bindSame fun _ hn => (h.memRead hn).bindSame fun _ _ => alike_result _

theorem readsAlike_sfData {s : State} {other : Memory} (h : s.SameView other) : ReadsAlike .sfData s other := by
  refine ⟨_, _, rfl, rfl, h.streamByte.bindSame fun b _ => ?_⟩
  split
  · refine (alike_dataFieldAt _).bindSame fun o _ => (alike_need s _).bindSame fun _ hn => ?_
    refine (h.memRead hn).bindSame fun n _ => ?_
    exact (alike_need s _).bindSame fun _ _ => alike_result _
  · exact alike_result _

theorem readsAlike_sfLen {s : State} {other : Memory} (h : s.SameView other) : ReadsAlike .sfLen s other := by
  refine ⟨_, _, rfl, rfl, h.streamByte.bindSame fun b _ => (alike_dataFieldAt _).bindSame fun o _ => ?_⟩
  split
  · exact (alike_need s _).bindSame fun _ hn => (h.memRead hn).bindSame fun _ _ => alike_result _
  · exact alike_result _

theorem readsAlike_phFlags {s : State} {other : Memory} (h : s.SameView other) : ReadsAlike .phFlags s other :=
  ⟨_, _, rfl, rfl, h.flagsByte.bindSame fun _ _ => alike_result _⟩

theorem readsAlike_phCid {s : State} {other : Memory} (h : s.SameView other) : ReadsAlike .phCid s other := by
  refine ⟨_, _, rfl, rfl, h.flagsByte.bindSame fun p _ => ?_⟩
  dsimp only
  split
  · exact alike_result _
  · exact (alike_need s _).bindSame fun _ hn => (h.memRead hn).bindSame fun _ _ => alike_result _

theorem readsAlike_phVer {s : State} {other : Memory} (h : s.SameView other) : ReadsAlike .phVer s other := by
  refine ⟨_, _, rfl, rfl, h.flagsByte.bindSame fun p _ => ?_⟩
  split
  · exact (alike_need s _).bindSame fun _ hn => (h.memRead hn).bindSame fun _ _ => alike_result _
  · exact alike_result _

theorem readsAlike_phPn {s : State} {other : Memory} (h : s.SameView other) (special : Bool) :
    ReadsAlike (.phPn special) s other := by
  refine ⟨_, _, rfl, rfl, h.flagsByte.bindSame fun p _ => ?_⟩
  dsimp only
  split
  · exact alike_result _
  · exact (alike_need s _).bindSame fun _ hn => (h.pnRead hn).bindSame fun _ _ => alike_result _

theorem readsAlike_phLen {s : State} {other : Memory} (h : s.SameView other) (special : Bool) :
    ReadsAlike (.phLen special) s other :=
  ⟨_, _, rfl, rfl, h.flagsByte.bindSame fun _ _ => alike_result _⟩

theorem readsAlike_rpData {s : State} {other : Memory} (h : s.SameView other) : ReadsAlike .rpData s other :=
  ⟨_, _, rfl, rfl, (h.headerLength false).bindSame fun _ _ => (alike_need s _).bindSame fun _ _ => alike_result _⟩

theorem readsAlike_vnVer {s : State} {other : Memory} (h : s.SameView other) (index : Operand) :
    ReadsAlike (.vnVer index) s other := by
  refine ⟨_, _, rfl, rfl, (alike_require _ _).bindSame fun _ _ => (h.headerLength true).bindSame fun l _ => ?_⟩
  exact (alike_need s _).bindSame fun _ hn => (h.memRead hn).bindSame fun _ _ => alike_result _

theorem readsAlike_vnCount {s : State} {other : Memory} (h : s.SameView other) : ReadsAlike .vnCount s other :=
  ⟨_, _, rfl, rfl, (h.headerLength true).bindSame fun _ _ => (alike_need s _).bindSame fun _ _ => alike_result _⟩

/-- Every getter reads the view alone. -/
theorem readsAlike_of_isGetter {i : Instr} {s : State} {other : Memory} (hget : isGetter i = true)
    (h : s.SameView other) : ReadsAlike i s other := by
  cases i with
  | ftKind => exact readsAlike_ftKind h
  | ftFlags => exact readsAlike_ftFlags h
  | ftLen => exact readsAlike_ftLen s other
  | sfSid => exact readsAlike_sfSid h
  | sfOff => exact readsAlike_sfOff h
  | sfData => exact readsAlike_sfData h
  | sfLen => exact readsAlike_sfLen h
  | phFlags => exact readsAlike_phFlags h
  | phCid => exact readsAlike_phCid h
  | phVer => exact readsAlike_phVer h
  | phPn special => exact readsAlike_phPn h special
  | phLen special => exact readsAlike_phLen h special
  | prLen | rpLen | vnLen => exact ⟨_, _, rfl, rfl, alike_result (Result.length s.vlen.toNat)⟩
  | rpData => exact readsAlike_rpData h
  | vnVer index => exact readsAlike_vnVer h index
  | vnCount => exact readsAlike_vnCount h
  | view | ftSetKind | ftSetFlags | sfSetSid | sfAddOff | sfSetData | phSetFlags | phSetCid | phSetVer | phSetPn
  | prSetCid | rpSetData | vnSetCid | vnSetVer => cases hget

/-! ## The outcomes under both contents of BUF -/

/-- Both outcomes are next states that agree in everything but BUF and in the bytes of the view of `s`. -/
def OutcomesAgree (s : State) (o o' : Host.Outcome State Fault Refusal) : Prop :=
  ∃ t u, o = .next t ∧ o' = .next u ∧ u = { t with buf := u.buf } ∧
    ∀ j, j < s.vlen.toNat → u.bufByte (s.vbase.toNat + j) = t.bufByte (s.vbase.toNat + j)

theorem State.SameView.failures_agree {s : State} {other : Memory} (h : s.SameView other) (f : Failure) :
    OutcomesAgree s (.next (s.raiseFailure f)) (.next ((s.withBuf other).raiseFailure f)) :=
  ⟨_, _, rfl, rfl, rfl, h.bytes⟩

/-- Computations that end alike end both commands alike. -/
theorem State.SameView.finish_agrees {s : State} {other : Memory} (h : s.SameView other) {c c' : Comp State}
    (hc : Comp.Alike (fun t u => OutcomesAgree s (.next t.succeed) (.next u.succeed)) c c') :
    OutcomesAgree s (s.finish c) ((s.withBuf other).finish c') := by
  cases hc with
  | ok hagree => exact hagree
  | failure f => exact h.failures_agree f

theorem State.SameView.view_agrees {s : State} {other : Memory} (h : s.SameView other) (base len : Operand) :
    OutcomesAgree s (exec (.view base len) s) (exec (.view base len) (s.withBuf other)) :=
  h.finish_agrees <| (alike_require _ _).bindSame fun _ _ => (alike_require _ _).bindSame fun _ _ =>
    (alike_require _ _).bindSame fun _ _ => .ok ⟨_, _, rfl, rfl, rfl, h.bytes⟩

theorem State.SameView.getter_agrees {i : Instr} {s : State} {other : Memory} (h : s.SameView other)
    (hget : isGetter i = true) : OutcomesAgree s (exec i s) (exec i (s.withBuf other)) := by
  obtain ⟨c, c', hexec, hexec', halike⟩ := readsAlike_of_isGetter hget h
  rw [hexec, hexec']
  cases halike with
  | ok hr =>
    rw [hr.1]
    exact ⟨_, _, rfl, rfl, rfl, h.bytes⟩
  | failure f => exact h.failures_agree f

/-- A setter's plan is the same under both contents of BUF: it needs byte 0 only where the view has one. -/
theorem State.SameView.setterRun_eq {s : State} {other : Memory} (h : s.SameView other) (i : Instr) :
    setterRun (s.withBuf other) ((s.withBuf other).B 0) i = setterRun s (s.B 0) i := by
  have hcongr := setterRun_congr s other s.status ((s.withBuf other).B 0) i
  refine hcongr.trans ?_
  by_cases h1 : 1 ≤ s.vlen.toNat
  · rw [h.bytes 0 h1]
  · simp only [setterRun, need_fail (not_le.mp h1), Comp.error_bind]

/-- The same bytes written into both contents of BUF leave the same view. -/
theorem State.SameView.wrote {s t u : State} {other : Memory} (h : s.SameView other) {b0 : Byte} {off n : Nat}
    {v : Nat → Byte} (ht : s.Wrote t b0 off n v) (hu : (s.withBuf other).Wrote u b0 off n v) :
    OutcomesAgree s (.next t) (.next u) := by
  have heq : u = { t with buf := u.buf } := by rw [hu.1, ht.1]
  exact ⟨t, u, rfl, rfl, heq, fun j hj => ht.bufByte_eq hu rfl fun _ _ => h.bytes j hj⟩

theorem State.SameView.setter_agrees {i : Instr} {s : State} {other : Memory} (h : s.SameView other)
    (hset : isSetter i = true) : OutcomesAgree s (exec i s) (exec i (s.withBuf other)) := by
  have hsame := h.setterRun_eq i
  have hv' : (s.withBuf other).ViewInBuf := h.inBuf
  rcases setterRun_cases hset h.inBuf with ⟨x, hrun⟩ | ⟨f, hrun⟩
  · obtain ⟨t, hnext, hwrote⟩ := setter_writes hset h.inBuf hrun
    obtain ⟨u, hnext', hwrote'⟩ := setter_writes hset hv' (hsame.trans hrun)
    rw [hnext, hnext']
    exact h.wrote hwrote hwrote'
  · rw [setter_fails hset h.inBuf hrun, setter_fails hset hv' (hsame.trans hrun)]
    exact h.failures_agree f

/-- A command is VIEW, a setter or a getter (00_scope.md rule R10). -/
theorem instr_classes (i : Instr) : (∃ base len, i = .view base len) ∨ isSetter i = true ∨ isGetter i = true := by
  cases i <;> simp [isGetter, isSetter, isView]

/-- Settles O46, by the classes of commands: a getter's computation reads the view alone, a setter's plan reads byte 0 and
it writes the same bytes, and VIEW reads no byte. -/
theorem readsStayInsideView : Obligations.ReadsStayInsideView := by
  intro i s other hv hbytes
  have h : s.SameView other := ⟨hv, hbytes⟩
  rcases instr_classes i with ⟨base, len, rfl⟩ | hset | hget
  · exact h.view_agrees base len
  · exact h.setter_agrees hset
  · exact h.getter_agrees hget

end Sys2Proof.Machine
end

section
/-! PROOFS. The decoder and the encoder (30_encoding.md rules R110 to R116): what the rows of the opcode map have in common,
and the statements about the words. -/

namespace Sys2Proof

/-! ## The rows of the opcode map -/

/-- The 32 OPs (30_encoding.md table R114). -/
theorem opcodeMap_ops : opcodeMap.map OpcodeRow.op = [0x01, 0x10, 0x11, 0x12, 0x13, 0x14, 0x20, 0x21, 0x22, 0x23, 0x24, 0x25,
    0x26, 0x30, 0x31, 0x32, 0x33, 0x34, 0x35, 0x36, 0x37, 0x38, 0x40, 0x42, 0x50, 0x51, 0x52, 0x60, 0x62, 0x63, 0x64, 0x65] :=
  rfl

theorem row_op_lt : ∀ r ∈ opcodeMap, r.op < 256 := by decide

theorem row_takesW_iff : ∀ r ∈ opcodeMap, (r.takesW = true ↔ r.op ∈ [0x20, 0x22, 0x32, 0x36]) := by decide

theorem row_takesS_iff : ∀ r ∈ opcodeMap, (r.takesS = true ↔ r.op ∈ [0x36, 0x37, 0x38]) := by decide

/-- The command a row builds is encoded with the row's OP and the W and S the row takes. -/
theorem encode_build_cmd {r : OpcodeRow} (hr : r ∈ opcodeMap) (w : Nat) (special : Bool) (a0 a1 : Operand) :
    (encode (r.build w special a0 a1)).cmd = commandWord r.op (bif r.takesW then w else 0) (r.takesS && special) := by
  fin_cases hr <;> rfl

theorem build_ignores_a1 {r : OpcodeRow} (hr : r ∈ opcodeMap) (hop : r.op ∉ [0x01, 0x62]) (w : Nat) (special : Bool)
    (a0 a1 b1 : Operand) : r.build w special a0 a1 = r.build w special a0 b1 := by
  fin_cases hr <;> simp at hop ⊢

theorem build_ignores_operands {r : OpcodeRow} (hr : r ∈ opcodeMap)
    (hop : r.op ∈ [0x11, 0x13, 0x14, 0x21, 0x23, 0x25, 0x26, 0x31, 0x33, 0x35, 0x37, 0x38, 0x42, 0x51, 0x52, 0x64, 0x65])
    (w : Nat) (special : Bool) (a0 a1 b0 b1 : Operand) : r.build w special a0 a1 = r.build w special b0 b1 := by
  fin_cases hr <;> simp at hop ⊢

/-! ## Decoding what the encoder writes -/

/-- A word of the encoder decodes to what its row builds, if W and S are 0 where the row takes none. -/
theorem decode_commandWord {op w : Nat} {takesW takesS special : Bool} {build : Nat → Bool → Operand → Operand → Instr}
    {a0 a1 : Operand} {i : Instr} (hr : opcodeMap.find? (fun r => r.op == op) = some ⟨op, takesW, takesS, build⟩)
    (hw : w < 16) (hw0 : takesW = false → w = 0) (hs0 : takesS = false → special = false)
    (hi : build w special a0 a1 = i) : decode ⟨commandWord op w special, a0, a1⟩ = .ok i := by
  have ho : op < 256 := row_op_lt _ (row_of_find hr).1
  have hwf := wField_commandWord (special := special) ho hw
  have hsf := sField_commandWord (special := special) ho hw
  have hrow := decode_of_row (t := ⟨commandWord op w special, a0, a1⟩) (zeroField_commandWord ho hw)
    (by rw [opField_commandWord ho hw]; exact hr) (by rwa [hwf]) (by rwa [hsf])
  rw [hrow, hwf, hsf]
  exact congrArg Except.ok hi

/-- Settles O1, by the rows of the opcode map: those that take W, W and S, S, and neither. -/
theorem decodeOfEncode : Obligations.DecodeOfEncode := by
  intro i hwf
  cases i with
  | sfSetSid w _ | sfAddOff w _ | phSetCid w _ =>
    exact decode_commandWord rfl (of_decide_eq_true hwf) nofun (fun _ => rfl) rfl
  | phSetPn w special _ => exact decode_commandWord rfl (of_decide_eq_true hwf) nofun nofun rfl
  | phPn special | phLen special => exact decode_commandWord rfl (by decide) (fun _ => rfl) nofun rfl
  | view | ftSetKind | ftKind | ftSetFlags | ftFlags | ftLen | sfSid | sfOff | sfSetData | sfData | sfLen | phSetFlags
  | phFlags | phCid | phSetVer | phVer | prSetCid | prLen | rpSetData | rpData | rpLen | vnSetCid | vnSetVer | vnVer
  | vnCount | vnLen => exact decode_commandWord rfl (by decide) (fun _ => rfl) (fun _ => rfl) rfl

/-- Settles O3: each word, read as a number, is the encoder's word of its command. -/
theorem sampleWordsDecode : Obligations.SampleWordsDecode :=
  ⟨decodeOfEncode (.view 9 18) rfl, decodeOfEncode (.ftSetKind 0x80) rfl, decodeOfEncode (.sfSetSid 4 1) rfl,
    decodeOfEncode (.sfAddOff 8 2) rfl, decodeOfEncode (.sfSetData 3) rfl, decodeOfEncode (.phSetCid 8 1) rfl,
    decodeOfEncode (.phSetPn 2 true 7) rfl, decodeOfEncode (.phPn true) rfl, decodeOfEncode (.prSetCid 1) rfl,
    decodeOfEncode (.rpSetData 3) rfl, decodeOfEncode (.vnSetVer 1 2) rfl⟩

/-! ## Operands -/

/-- Operands that the word's row builds the same command from are decoded alike. -/
theorem decode_congr_operands {cmd : CmdWord} {a0 a1 b0 b1 : Operand}
    (h : ∀ r ∈ opcodeMap, r.op = cmd.toNat % 256 → ∀ w special, r.build w special a0 a1 = r.build w special b0 b1) :
    decode ⟨cmd, a0, a1⟩ = decode ⟨cmd, b0, b1⟩ := by
  unfold decode
  cases hf : opcodeMap.find? (fun r => r.op == opField cmd) with
  | none => rfl
  | some r =>
    obtain ⟨hmem, hop⟩ := row_of_find hf
    simp only [h r hmem hop]

/-- Settles O4, by the rows: those of the named words build the same command from every such operand. -/
theorem unusedOperandsIgnored : Obligations.UnusedOperandsIgnored := by
  refine fun cmd a0 a1 b0 b1 => ⟨fun hop => ?_, fun hop => ?_⟩
  · exact decode_congr_operands fun r hr hrop w special => build_ignores_a1 hr (hrop ▸ hop) w special a0 a1 b1
  · exact decode_congr_operands fun r hr hrop w special =>
      build_ignores_operands hr (hrop ▸ hop) w special a0 a1 b0 b1

/-! ## The words that select a command -/

/-- A word with no reserved bit set is the encoder's word of its fields. -/
theorem commandWord_fields {cmd : CmdWord} (hz : zeroField cmd = 0) :
    commandWord (opField cmd) (wField cmd) (sField cmd) = cmd := by
  have ho : opField cmd < 256 := Nat.mod_lt _ (by decide)
  have hw : wField cmd < 16 := Nat.mod_lt _ (by decide)
  have hfields := cmd_eq_fields cmd
  rw [hz, Nat.mul_zero, Nat.add_zero] at hfields
  exact BitVec.eq_of_toNat_eq ((commandWord_toNat ho hw).trans hfields.symm)

/-- Encoding what a word decodes to gives the word back. -/
theorem encode_cmd_of_decode {t : Transaction} {i : Instr} (h : decode t = .ok i) : (encode i).cmd = t.cmd := by
  obtain ⟨r, hz, hf, hw, hs, rfl⟩ := decode_inv h
  obtain ⟨hmem, hop⟩ := row_of_find hf
  have hw' : (bif r.takesW then wField t.cmd else 0) = wField t.cmd := by
    cases htakes : r.takesW with
    | true => rfl
    | false => exact (hw htakes).symm
  have hs' : (r.takesS && sField t.cmd) = sField t.cmd := by
    cases htakes : r.takesS with
    | true => rfl
    | false => exact (hs htakes).symm
  rw [encode_build_cmd hmem, hop, hw', hs', commandWord_fields hz]

theorem exists_row_iff (op : Nat) :
    (∃ r, opcodeMap.find? (fun r => r.op == op) = some r) ↔ op ∈ opcodeMap.map OpcodeRow.op := by
  rw [← Option.isSome_iff_exists, List.find?_isSome]
  simp only [beq_iff_eq, List.mem_map]

theorem sField_eq_false_iff (cmd : CmdWord) : sField cmd = false ↔ cmd.toNat / 4096 % 2 = 0 := by
  unfold sField
  rw [beq_eq_false_iff_ne]
  omega

/-- The checks of 30_encoding.md rule R113, over the OPs and the commands that take W or S. -/
theorem decode_ok_iff (t : Transaction) :
    (∃ i, decode t = .ok i) ↔
      t.cmd.toNat / 8192 = 0 ∧ t.cmd.toNat % 256 ∈ opcodeMap.map OpcodeRow.op ∧
        (t.cmd.toNat % 256 ∉ [0x20, 0x22, 0x32, 0x36] → t.cmd.toNat / 256 % 16 = 0) ∧
        (t.cmd.toNat % 256 ∉ [0x36, 0x37, 0x38] → t.cmd.toNat / 4096 % 2 = 0) := by
  constructor
  · rintro ⟨i, hd⟩
    obtain ⟨r, hz, hf, hw, hs, -⟩ := decode_inv hd
    obtain ⟨hmem, hop⟩ := row_of_find hf
    have hop' : r.op = t.cmd.toNat % 256 := hop
    refine ⟨hz, (exists_row_iff _).mp ⟨r, hf⟩, fun hnot => hw ?_, fun hnot => (sField_eq_false_iff _).mp (hs ?_)⟩
    · exact Bool.eq_false_iff.mpr fun htakes => hnot (hop' ▸ (row_takesW_iff r hmem).mp htakes)
    · exact Bool.eq_false_iff.mpr fun htakes => hnot (hop' ▸ (row_takesS_iff r hmem).mp htakes)
  · rintro ⟨hz, hop, hw, hs⟩
    obtain ⟨r, hf⟩ := (exists_row_iff _).mpr hop
    obtain ⟨hmem, hrop⟩ := row_of_find hf
    refine ⟨_, decode_of_row hz hf (fun htakes => hw ?_) fun htakes => (sField_eq_false_iff _).mpr (hs ?_)⟩
    · rw [← hrop, ← row_takesW_iff r hmem, htakes]
      exact Bool.false_ne_true
    · rw [← hrop, ← row_takesS_iff r hmem, htakes]
      exact Bool.false_ne_true

/-- Settles O2: a word that decodes passes every check and is encoded back, one that does not fails a check. -/
theorem illegalCommandExactly : Obligations.IllegalCommandExactly := by
  intro t s
  have hchecks := decode_ok_iff t
  rw [opcodeMap_ops] at hchecks
  cases hd : decode t with
  | ok i =>
    obtain ⟨hz, hop, hw, hs⟩ := hchecks.mp ⟨i, hd⟩
    rw [if_neg (by tauto)]
    exact ⟨i, rfl, encode_cmd_of_decode hd, Machine.issue_of_decode hd s⟩
  | error r =>
    rw [if_pos]
    · exact Machine.issue_of_reject hd s
    · by_contra hnone
      obtain ⟨i, hi⟩ := hchecks.mpr (by tauto)
      cases hd.symm.trans hi

end Sys2Proof
end

section
/-! SUPPORT. Setters that write one field after another: the bytes they leave in the view are one list. -/

namespace Sys2Proof.Machine

/-- `t` is `s` after setters that left byte 0 of the view `b0` and the bytes `bs` at `off`, in the claims' words. -/
def State.WroteList (s t : State) (b0 : Byte) (off : Nat) (bs : List Byte) : Prop :=
  s.Wrote t b0 off bs.length fun j => bs.getD j 0

/-- Two setters, one after the other, change no field but STATUS and BUF. -/
theorem State.Wrote.trans_eq {s t u : State} {b b' : Byte} {off off' n n' : Nat} {v v' : Nat → Byte}
    (h : s.Wrote t b off n v) (h' : t.Wrote u b' off' n' v') : u = { s with status := s.status &&& 0x80, buf := u.buf } := by
  have hstatus : s.status &&& 0x80 &&& 0x80 = s.status &&& 0x80 := statusOnSuccess_again s.status
  obtain ⟨ht, -⟩ := h
  obtain ⟨hu, -⟩ := h'
  rw [ht] at hu
  simpa only [hstatus] using hu

/-- A byte of the view that is neither byte 0 nor in the field stays. -/
theorem State.Wrote.B_outside {s t : State} {b : Byte} {off n j : Nat} {v : Nat → Byte} (h : s.Wrote t b off n v)
    (h0 : j ≠ 0) (hout : ¬(off ≤ j ∧ j < off + n)) : t.B j = s.B j := by
  obtain ⟨-, hbase, -⟩ := h.fields
  obtain ⟨-, -, -, houtside⟩ := h
  rw [State.B, State.B, hbase]
  exact houtside _ (by omega) (by omega)

theorem State.WroteList.bytes {s t : State} {b : Byte} {off : Nat} {bs : List Byte} (h : s.WroteList t b off bs) {j : Nat}
    (hj : j < bs.length) : t.B (off + j) = bs.getD j 0 := by
  obtain ⟨-, -, hbytes, -⟩ := h
  exact hbytes j hj

/-- A list written directly after a list is their concatenation. -/
theorem State.WroteList.append {s t u : State} {b b' : Byte} {off : Nat} {bs cs : List Byte} (hoff : 1 ≤ off)
    (h : s.WroteList t b off bs) (h' : t.WroteList u b' (off + bs.length) cs) : s.WroteList u b' off (bs ++ cs) := by
  obtain ⟨-, hbase, -⟩ := Wrote.fields h
  refine ⟨Wrote.trans_eq h h', Wrote.byte0 h', fun j hj => ?_, fun a h0 hout => ?_⟩
  · rw [List.length_append] at hj
    change u.B (off + j) = (bs ++ cs).getD j 0
    by_cases hlt : j < bs.length
    · rw [List.getD_append _ _ _ _ hlt, ← h.bytes hlt]
      exact Wrote.B_outside h' (by omega) (by omega)
    · obtain ⟨k, rfl⟩ := Nat.exists_eq_add_of_le (not_lt.mp hlt)
      rw [List.getD_append_right _ _ _ _ (Nat.le_add_right _ _), Nat.add_sub_cancel_left, ← Nat.add_assoc]
      exact h'.bytes (by omega)
  · rw [List.length_append] at hout
    obtain ⟨-, -, -, houtside⟩ := h
    obtain ⟨-, -, -, houtside'⟩ := h'
    rw [houtside' a (by rwa [hbase]) (by rw [hbase]; omega), houtside a h0 (by omega)]

/-- A part of the list written stands where it is in the list. -/
theorem State.WroteList.part {s t : State} {b : Byte} {off o : Nat} {xs bs cs ds : List Byte} (h : s.WroteList t b off xs)
    (hxs : xs = bs ++ (cs ++ ds)) (ho : o = off + bs.length) {j : Nat} (hj : j < cs.length) :
    t.B (o + j) = cs.getD j 0 := by
  subst hxs ho
  rw [Nat.add_assoc, h.bytes (by simp only [List.length_append]; omega),
    List.getD_append_right _ _ _ _ (Nat.le_add_right _ _), Nat.add_sub_cancel_left, List.getD_append _ _ _ _ hj]

/-- A first setter of a list of commands. -/
theorem execAll_setter {i : Instr} {s : State} {b : Byte} {off : Nat} {bs : List Byte} (is : List Instr)
    (hset : isSetter i = true) (hv : s.ViewInBuf) (hrun : setterRun s (s.B 0) i = .ok ⟨b, off, bs⟩) :
    ∃ t, execAll (i :: is) s = execAll is t ∧ s.WroteList t b off bs := by
  obtain ⟨t, hnext, hwrote⟩ := setter_writes hset hv hrun
  obtain ⟨-, -, -, -, -, hstatus⟩ := hwrote.fields
  exact ⟨t, execAll_cons hnext (by rw [hstatus]; exact statusCode_masked s.status), hwrote⟩

/-- A setter whose field stands directly after what the setters before it wrote; its plan is that in the first state,
for the byte 0 they left. -/
theorem State.WroteList.execAll_setter {i : Instr} {s t : State} {b b' : Byte} {off o : Nat} {bs cs : List Byte}
    (h : s.WroteList t b off bs) (is : List Instr) (hset : isSetter i = true) (hv : s.ViewInBuf) (hoff : 1 ≤ off)
    (hrun : setterRun s b i = .ok ⟨b', o, cs⟩) (ho : o = off + bs.length) :
    ∃ u, execAll (i :: is) t = execAll is u ∧ s.WroteList u b' off (bs ++ cs) := by
  subst ho
  have hrun' : setterRun t (t.B 0) i = .ok ⟨b', off + bs.length, cs⟩ := by
    rw [setterRun_wrote h, Wrote.byte0 h, hrun]
  obtain ⟨u, hexec, hwrote⟩ := Machine.execAll_setter is hset (Wrote.viewInBuf h hv) hrun'
  exact ⟨u, hexec, h.append hoff hwrote⟩

end Sys2Proof.Machine
end

section
/-! PROOFS. What a list of setters builds: the stream frame in wire order (30_encoding.md rule R86, 70_reset_and_hazards.md
rule R243), and the version list (30_encoding.md rule R118). -/

namespace Sys2Proof.Machine

/-! ## The type byte of a stream frame -/

theorem sidWidth_withSidWidth {w : Nat} (hw : w ∈ sidWidths) (b : Byte) :
    sidWidth (streamFlags (withSidWidth b w)) = .ok w := by
  revert w b; decide

theorem offWidth_withOffWidth {w : Nat} (hw : w ∈ offWidths) (b : Byte) :
    offWidth (streamFlags (withOffWidth b w)) = .ok w := by
  revert w b; decide

theorem hasData_withDataLen (b : Byte) : hasData (streamFlags (b ||| 0x20)) = true := by
  revert b; decide

/-- The type byte of a stream frame with a data field (30_encoding.md table R85). -/
def streamTypeByte (sw ow : Nat) : Byte := withOffWidth (withSidWidth 0x80 sw) ow ||| 0x20

theorem streamTypeByte_toNat {sw ow : Nat} (hsw : sw ∈ sidWidths) (how : ow ∈ offWidths) :
    (streamTypeByte sw ow).toNat = 0x80 + 0x20 + 4 * (if ow = 0 then 0 else ow - 1) + (sw - 1) := by
  have hall : ∀ sw ∈ sidWidths, ∀ ow ∈ offWidths, (streamTypeByte sw ow).toNat =
      0x80 + 0x20 + 4 * (if ow = 0 then 0 else ow - 1) + (sw - 1) := by decide
  exact hall sw hsw ow how

theorem offsetFieldAt_withSidWidth {w : Nat} (hw : w ∈ sidWidths) (b : Byte) :
    offsetFieldAt (streamFlags (withSidWidth b w)) = .ok (1 + w) := by
  rw [offsetFieldAt, sidWidth_withSidWidth hw]
  rfl

theorem dataFieldAt_withOffWidth {b : Byte} {o w : Nat} (hw : w ∈ offWidths) (ho : offsetFieldAt (streamFlags b) = .ok o) :
    dataFieldAt (streamFlags (withOffWidth b w)) = .ok (o + w) := by
  rw [dataFieldAt, offsetFieldAt_withOffWidth hw, offWidth_withOffWidth hw, ho]
  rfl

theorem isStream_streamTypeByte {sw ow : Nat} (hsw : sw ∈ sidWidths) (how : ow ∈ offWidths) :
    isStream (streamTypeByte sw ow) = true := by
  rw [streamTypeByte, isStream_withDataLen, isStream_withOffWidth how, isStream_withSidWidth hsw]
  rfl

theorem dataFieldAt_streamTypeByte {sw ow : Nat} (hsw : sw ∈ sidWidths) (how : ow ∈ offWidths) :
    dataFieldAt (streamFlags (streamTypeByte sw ow)) = .ok (1 + sw + ow) := by
  rw [streamTypeByte, dataFieldAt_withDataLen, dataFieldAt_withOffWidth how (offsetFieldAt_withSidWidth hsw _)]

/-! ## The plans of the setters -/

section
variable {s : State} {b : Byte}

theorem setterRun_ftSetKind_stream (h1 : 1 ≤ s.vlen.toNat) : setterRun s b (.ftSetKind 0x80) = .ok ⟨0x80, 1, []⟩ := by
  have hkind : requireKind 0x80 = .ok () := require_ok ((kindOfCode_isSome_iff _).mpr (by decide))
  simp only [setterRun, operandCheck, setterPlan, hkind, need_ok h1, Comp.ok_bind]
  rfl

theorem setterRun_sfSetSid {w : Nat} {sid : Operand} (hw : w ∈ sidWidths) (hfits : sid.toNat < 2 ^ (8 * w))
    (hk : isStream b = true) (hroom : 1 + w ≤ s.vlen.toNat) :
    setterRun s b (.sfSetSid w sid) = .ok ⟨withSidWidth b w, 1, leBytes w sid.toNat⟩ := by
  simp only [setterRun, operandCheck, setterPlan, requireWidth_ok hw, requireFits_ok hfits, hk, require_true, need_ok hroom,
    need_ok (show 1 ≤ s.vlen.toNat by omega), Comp.ok_bind, Comp.pure_eq_ok]

theorem setterRun_sfAddOff {w o : Nat} {off : Operand} (hw : w ∈ offWidths) (hfits : off.toNat < 2 ^ (8 * w))
    (hk : isStream b = true) (ho : offsetFieldAt (streamFlags b) = .ok o) (h1 : 1 ≤ o) (hroom : o + w ≤ s.vlen.toNat) :
    setterRun s b (.sfAddOff w off) = .ok ⟨withOffWidth b w, o, leBytes w off.toNat⟩ := by
  simp only [setterRun, operandCheck, setterPlan, requireWidth_ok hw, requireFits_ok hfits, hk, require_true, ho,
    need_ok hroom, need_ok (show 1 ≤ s.vlen.toNat by omega), Comp.ok_bind, Comp.pure_eq_ok]

theorem setterRun_sfSetData {n : Operand} {o : Nat} (hpos : 1 ≤ n.toNat) (hn : n.toNat ≤ 65535)
    (hpay : n.toNat ≤ s.cfg.payCap) (hk : isStream b = true) (ho : dataFieldAt (streamFlags b) = .ok o)
    (hroom : o + 2 + n.toNat ≤ s.vlen.toNat) :
    setterRun s b (.sfSetData n) = .ok ⟨b ||| 0x20, o, leBytes 2 n.toNat ++ s.payload n.toNat⟩ := by
  simp only [setterRun, operandCheck, setterPlan, require_ok (decide_eq_true hn), require_ok (decide_eq_true hpay), hk,
    require_true, if_neg (Nat.one_le_iff_ne_zero.mp hpos), ho, need_ok hroom, need_ok (show 1 ≤ s.vlen.toNat by omega),
    Comp.ok_bind, Comp.pure_eq_ok]

theorem setterRun_vnSetVer {index ver : Operand} (hindex : index.toNat < 2 ^ 32) (hver : ver.toNat < 2 ^ 32)
    (hroom : hdrLen s.cfg.cidMap b true + 4 * index.toNat + 4 ≤ s.vlen.toNat) :
    setterRun s b (.vnSetVer index ver) =
      .ok ⟨b, hdrLen s.cfg.cidMap b true + 4 * index.toNat, leBytes 4 ver.toNat⟩ := by
  simp only [setterRun, operandCheck, setterPlan, require_ok (decide_eq_true hindex), require_ok (decide_eq_true hver),
    need_ok hroom, need_ok (show 1 ≤ s.vlen.toNat by omega), Comp.ok_bind, Comp.pure_eq_ok]

end

/-! ## The stream frame -/

/-- The bytes of a stream frame behind its type byte (30_encoding.md rule R86). -/
def streamFields (s : State) (sw ow : Nat) (sid off n : Operand) : List Byte :=
  leBytes sw sid.toNat ++ (leBytes ow off.toNat ++ (leBytes 2 n.toNat ++ s.payload n.toNat))

theorem streamFields_length (s : State) (sw ow : Nat) (sid off n : Operand) :
    (streamFields s sw ow sid off n).length = sw + ow + 2 + n.toNat := by
  simp only [streamFields, List.length_append, leBytes_length, payload_length]
  omega

/-- The four setters of a stream frame leave its type byte and the bytes behind it, one list. -/
theorem execAll_streamFrame {sw ow : Nat} {sid off n : Operand} {s : State} (hv : s.ViewInBuf) (hsw : sw ∈ sidWidths)
    (how : ow ∈ offWidths) (hsid : sid.toNat < 2 ^ (8 * sw)) (hoff : off.toNat < 2 ^ (8 * ow)) (hpos : 1 ≤ n.toNat)
    (hn : n.toNat ≤ 65535) (hpay : n.toNat ≤ s.cfg.payCap) (hroom : 1 + sw + ow + 2 + n.toNat ≤ s.vlen.toNat) :
    ∃ t, execAll [.ftSetKind 0x80, .sfSetSid sw sid, .sfAddOff ow off, .sfSetData n] s = .next t ∧
      s.WroteList t (streamTypeByte sw ow) 1 (streamFields s sw ow sid off n) := by
  have hmark : isStream (withSidWidth 0x80 sw) = true := isStream_withSidWidth hsw 0x80
  have hmark' := (isStream_withOffWidth how (withSidWidth 0x80 sw)).trans hmark
  have hoffAt := offsetFieldAt_withSidWidth hsw 0x80
  have hdataAt := dataFieldAt_withOffWidth how hoffAt
  obtain ⟨_, hkind, hwrote⟩ := execAll_setter [.sfSetSid sw sid, .sfAddOff ow off, .sfSetData n] rfl hv
    (setterRun_ftSetKind_stream (by omega))
  obtain ⟨_, hsetSid, hwrote⟩ := hwrote.execAll_setter [.sfAddOff ow off, .sfSetData n] rfl hv le_rfl
    (setterRun_sfSetSid hsw hsid rfl (by omega)) rfl
  obtain ⟨_, haddOff, hwrote⟩ := hwrote.execAll_setter [.sfSetData n] rfl hv le_rfl
    (setterRun_sfAddOff how hoff hmark hoffAt (by omega) (by omega)) (by simp)
  obtain ⟨t, hsetData, hwrote⟩ := hwrote.execAll_setter [] rfl hv le_rfl
    (setterRun_sfSetData hpos hn hpay hmark' hdataAt hroom) (by simp [Nat.add_assoc])
  refine ⟨t, ((hkind.trans hsetSid).trans haddOff).trans hsetData, ?_⟩
  simpa only [streamFields, streamTypeByte, List.nil_append, List.append_assoc] using hwrote

/-- SF.LEN of a frame with a data field (42_streamframe.md rule R157). -/
theorem exec_sfLen_of_data {s : State} {o : Nat} (hv : s.ViewInBuf) (hk : s.Stream)
    (ho : dataFieldAt (streamFlags (s.B 0)) = .ok o) (hdata : hasData (streamFlags (s.B 0)) = true)
    (hroom : o + 2 ≤ s.vlen.toNat) :
    exec .sfLen s = .next (s.answered (o + 2 + s.fieldValue o 2) 0 true 0 (o + 2 + s.fieldValue o 2)) := by
  simp only [exec, execSfLen, streamByte_ok hv (show 1 ≤ s.vlen.toNat by omega) hk, ho, hdata, if_true, need_ok hroom,
    memRead_ok hv hroom, Comp.ok_bind, Comp.pure_eq_ok, answer_ok, withResult_succeed, Result.length]

/-- Settles O59: the four setters write the frame's bytes as one list, whose parts are the fields; SF.LEN reads the widths
back from the type byte and the payload's length from its field. -/
theorem streamFrameBuildsLayout : Obligations.StreamFrameBuildsLayout := by
  intro sw ow sid off n s hv hsw how hsid hoff hpos hn hpay hroom
  obtain ⟨t, hexec, hwrote⟩ := execAll_streamFrame hv hsw how hsid hoff hpos hn hpay hroom
  have hbyte0 : t.B 0 = streamTypeByte sw ow := State.Wrote.byte0 hwrote
  obtain ⟨hvlen, -⟩ := State.Wrote.fields hwrote
  have hid : ∀ j, j < sw → t.B (1 + j) = byteOf sid.toNat j := fun j hj =>
    (hwrote.part (bs := []) rfl rfl (by rwa [leBytes_length])).trans (leBytes_getD _ _ _ hj)
  have hoffset : ∀ j, j < ow → t.B (1 + sw + j) = byteOf off.toNat j := fun j hj =>
    (hwrote.part rfl (by simp) (by rwa [leBytes_length])).trans (leBytes_getD _ _ _ hj)
  have hdataLen : ∀ j, j < 2 → t.B (1 + sw + ow + j) = byteOf n.toNat j := fun j hj =>
    (hwrote.part (List.append_assoc _ _ _).symm (by simp [Nat.add_assoc])
      (by rwa [leBytes_length])).trans (leBytes_getD _ _ _ hj)
  have hpayload : ∀ j, j < n.toNat → t.B (1 + sw + ow + 2 + j) = s.payByte j := fun j hj =>
    (hwrote.part (bs := leBytes sw sid.toNat ++ leBytes ow off.toNat ++ leBytes 2 n.toNat) (ds := [])
      (by simp [streamFields]) (by simp [Nat.add_assoc]) (by rwa [payload_length])).trans (payload_getD _ _ _ hj)
  have hn2 : t.fieldValue (1 + sw + ow) 2 = n.toNat := fieldValue_of_bytes _ _ _ _ (by omega) hdataLen
  have hsfLen := exec_sfLen_of_data (State.Wrote.viewInBuf hwrote hv)
    (by rw [State.Stream, hbyte0]; exact isStream_streamTypeByte hsw how)
    (by rw [hbyte0]; exact dataFieldAt_streamTypeByte hsw how)
    (by rw [hbyte0]; exact hasData_withDataLen _) (by rw [hvlen]; omega)
  rw [hn2] at hsfLen
  obtain ⟨heq, -, -, houtside⟩ := hwrote
  rw [streamFields_length] at houtside
  refine ⟨t, hexec, heq, ?_, hid, hoffset, hdataLen, hpayload, fun a hout => ?_, hsfLen⟩
  · rw [hbyte0]
    exact streamTypeByte_toNat hsw how
  · exact houtside a (by omega) (by omega)

/-! ## The version list -/

/-- The bytes of a version list (44_packet_kinds.md rule R201). -/
def versionBytes (versions : List Operand) : List Byte := versions.flatMap fun v => leBytes 4 v.toNat

theorem versionBytes_cons (v : Operand) (vs : List Operand) : versionBytes (v :: vs) = leBytes 4 v.toNat ++ versionBytes vs :=
  List.flatMap_cons

theorem versionBytes_length (versions : List Operand) : (versionBytes versions).length = 4 * versions.length := by
  induction versions with
  | nil => rfl
  | cons v vs ih =>
    rw [versionBytes_cons, List.length_append, leBytes_length, ih, List.length_cons]
    omega

/-- A version's bytes stand behind those of the versions before it. -/
theorem versionBytes_split {versions : List Operand} {k : Nat} {v : Operand} (h : versions[k]? = some v) :
    versionBytes versions =
      versionBytes (versions.take k) ++ (leBytes 4 v.toNat ++ versionBytes (versions.drop (k + 1))) := by
  obtain ⟨hk, rfl⟩ := List.getElem?_eq_some_iff.mp h
  rw [← versionBytes_cons, ← List.drop_eq_getElem_cons hk, versionBytes, versionBytes, versionBytes, ← List.flatMap_append,
    List.take_append_drop]

/-- The plan of VN.SETVER for a small enough index, in the claims' words. -/
theorem setterRun_versionEntry {s : State} {i : Nat} {v : Operand} (hver : v.toNat < 2 ^ 32)
    (hroom : s.hdrL true + 4 * (i + 1) ≤ s.vlen.toNat) :
    setterRun s (s.B 0) (.vnSetVer (BitVec.ofNat 64 i) v) = .ok ⟨s.B 0, s.hdrL true + 4 * i, leBytes 4 v.toNat⟩ := by
  have hlt : i < 2 ^ 32 := by have := s.vlen.isLt; omega
  have hindex : (BitVec.ofNat 64 i).toNat = i := by rw [BitVec.toNat_ofNat]; omega
  have hrun := setterRun_vnSetVer (s := s) (b := s.B 0) (index := BitVec.ofNat 64 i) (ver := v) (by rwa [hindex]) hver
    (by rw [hindex, hdrLen_eq]; exact hroom)
  rwa [hindex, hdrLen_eq] at hrun

/-- The entries from index `i` on, written behind the `i` entries before them. -/
theorem execAll_setVersFrom {s : State} (hv : s.ViewInBuf) {vs : List Operand} {t : State} {bs : List Byte} {i : Nat}
    (h : s.WroteList t (s.B 0) (s.hdrL true) bs) (hlen : bs.length = 4 * i) (hver : ∀ v ∈ vs, v.toNat < 2 ^ 32)
    (hroom : s.hdrL true + 4 * (i + vs.length) ≤ s.vlen.toNat) :
    ∃ u, execAll (setVersFrom i vs) t = .next u ∧ s.WroteList u (s.B 0) (s.hdrL true) (bs ++ versionBytes vs) := by
  induction vs generalizing t bs i with
  | nil => exact ⟨t, rfl, by simpa [versionBytes] using h⟩
  | cons v vs ih =>
    rw [List.length_cons] at hroom
    obtain ⟨t', hnext, hwrote⟩ := h.execAll_setter (setVersFrom (i + 1) vs) rfl hv (hdrL_range s true).1
      (setterRun_versionEntry (i := i) (hver v List.mem_cons_self) (by omega)) (by rw [hlen])
    obtain ⟨u, hrest, hwrote'⟩ := ih (i := i + 1) hwrote (by rw [List.length_append, leBytes_length, hlen]; omega)
      (fun x hx => hver x (List.mem_cons_of_mem v hx)) (by omega)
    exact ⟨u, hnext.trans hrest, by rwa [versionBytes_cons, ← List.append_assoc]⟩

/-- VN.SETVERS of a non-empty list leaves the list's bytes behind the header, and byte 0 as it was. -/
theorem execPseudo_vnSetVers {s : State} {versions : List Operand} (hv : s.ViewInBuf) (hne : 1 ≤ versions.length)
    (hver : ∀ v ∈ versions, v.toNat < 2 ^ 32) (hroom : s.hdrL true + 4 * versions.length ≤ s.vlen.toNat) :
    ∃ t, execPseudo (.vnSetVers versions) s = .next t ∧
      s.WroteList t (s.B 0) (s.hdrL true) (versionBytes versions) := by
  obtain ⟨v, vs, rfl⟩ := List.exists_cons_of_length_pos hne
  rw [List.length_cons] at hroom
  obtain ⟨t, hfirst, hwrote⟩ := execAll_setter (setVersFrom 1 vs) rfl hv
    (setterRun_versionEntry (i := 0) (hver v List.mem_cons_self) (by omega))
  obtain ⟨u, hrest, hwrote'⟩ := execAll_setVersFrom (i := 1) hv hwrote (leBytes_length _ _)
    (fun x hx => hver x (List.mem_cons_of_mem v hx)) (by omega)
  exact ⟨u, hfirst.trans hrest, by rwa [versionBytes_cons]⟩

/-- Settles O60: the entries are written one behind the other as one list of bytes, and byte 0 keeps its value. -/
theorem versionListWrittenInOrder : Obligations.VersionListWrittenInOrder := by
  intro versions s hv hne hver hroom
  obtain ⟨t, hexec, hwrote⟩ := execPseudo_vnSetVers hv hne hver hroom
  have hentry : ∀ k v, versions[k]? = some v → t.fieldValue (s.hdrL true + 4 * k) 4 = v.toNat := fun k v hk => by
    obtain ⟨hlt, -⟩ := List.getElem?_eq_some_iff.mp hk
    have hat : s.hdrL true + 4 * k = s.hdrL true + (versionBytes (versions.take k)).length := by
      rw [versionBytes_length, List.length_take_of_le hlt.le]
    exact fieldValue_of_bytes _ _ _ _ (hver v (List.mem_of_getElem? hk)) fun j hj =>
      (hwrote.part (versionBytes_split hk) hat (by rwa [leBytes_length])).trans (leBytes_getD _ _ _ hj)
  obtain ⟨heq, hzero, -, houtside⟩ := hwrote
  rw [versionBytes_length] at houtside
  refine ⟨t, hexec, heq, hentry, fun a hout => ?_⟩
  by_cases h0 : a = s.vbase.toNat
  · have hbase : t.vbase = s.vbase := by rw [heq]
    rw [h0]
    simpa only [State.B, hbase, Nat.add_zero] using hzero
  · exact houtside a h0 hout

end Sys2Proof.Machine
end

section
/-! PROOFS. VIEW, the command that selects the window (40_view_control.md rule R130). -/

namespace Sys2Proof.Machine

theorem exec_view (base len : Operand) (s : State) : exec (.view base len) s = execView base len s := rfl

/-- A window inside BUF, with both operands below 2^32, is selected. -/
theorem execView_of_fits {base len : Operand} {s : State} (hb : base.toNat < 2 ^ 32) (hl : len.toNat < 2 ^ 32)
    (hc : base.toNat + len.toNat ≤ s.cfg.bufCap) :
    execView base len s
      = .next (State.succeed { s with vbase := BitVec.ofNat 32 base.toNat, vlen := BitVec.ofNat 32 len.toNat }) := by
  unfold execView
  rw [require_ok (decide_eq_true hb), Comp.ok_bind, require_ok (decide_eq_true hl), Comp.ok_bind,
    require_ok (decide_eq_true hc), Comp.ok_bind, Comp.pure_eq_ok, finish_ok]

/-- The first of the three checks that does not hold raises OperandRange. -/
theorem execView_of_refused {base len : Operand} {s : State}
    (h : base.toNat ≥ 2 ^ 32 ∨ len.toNat ≥ 2 ^ 32 ∨ base.toNat + len.toNat > s.cfg.bufCap) :
    execView base len s = .next (s.raiseFailure .operandRange) := by
  unfold execView
  by_cases hb : base.toNat < 2 ^ 32
  · rw [require_ok (decide_eq_true hb), Comp.ok_bind]
    by_cases hl : len.toNat < 2 ^ 32
    · have hc : ¬base.toNat + len.toNat ≤ s.cfg.bufCap := by omega
      rw [require_ok (decide_eq_true hl), Comp.ok_bind, require_fail (decide_eq_false hc), Comp.error_bind, finish_failure]
    · rw [require_fail (decide_eq_false hl), Comp.error_bind, finish_failure]
  · rw [require_fail (decide_eq_false hb), Comp.error_bind, finish_failure]

/-- A window register holds an operand below 2^32 whole (10_state.md rule R24). -/
theorem toNat_windowRegister {a : Operand} (h : a.toNat < 2 ^ 32) : (BitVec.ofNat 32 a.toNat).toNat = a.toNat :=
  (BitVec.toNat_ofNat a.toNat 32).trans (Nat.mod_eq_of_lt h)

/-- Settles O10: VIEW's row issues it, and its three checks either raise OperandRange or let both registers take operands
that 32 bits hold. -/
theorem viewSelectsWindow : Obligations.ViewSelectsWindow := by
  refine ⟨issues_of_row rfl, fun base len s => ?_⟩
  rw [exec_view]
  split
  · rename_i hrefused
    rw [execView_of_refused hrefused, raiseFailure_eq_failed]
    rfl
  · rename_i hfits
    obtain ⟨hb, hl, hc⟩ : base.toNat < 2 ^ 32 ∧ len.toNat < 2 ^ 32 ∧ base.toNat + len.toNat ≤ s.cfg.bufCap := by omega
    exact ⟨_, execView_of_fits hb hl hc, toNat_windowRegister hb, toNat_windowRegister hl, rfl⟩

end Sys2Proof.Machine
end

section
/-! SUPPORT. A command from its checks: where a setter's operands are refused or the view is empty it fails, else it does what
its plan says; a getter that begins with `need` fails on a view too short for it (60_exceptions.md rule R213). -/

namespace Sys2Proof.Machine

/-! ## Setters -/

/-- A setter whose operands are refused fails with that failure, whatever the view holds. -/
theorem setter_refused {i : Instr} {s : State} {f : Failure} (hset : isSetter i = true) (hv : s.ViewInBuf)
    (hcheck : operandCheck s.cfg i = .error (.failure f)) : exec i s = .next (s.failed f.code.toNat) := by
  rw [← raiseFailure_eq_failed]
  refine setter_fails hset hv ?_
  rw [setterRun, hcheck, Comp.error_bind]

/-- A setter whose operands are accepted fails on an empty view. -/
theorem setter_short {i : Instr} {s : State} (hset : isSetter i = true) (hv : s.ViewInBuf)
    (hcheck : operandCheck s.cfg i = .ok ()) (hempty : s.vlen.toNat < 1) : exec i s = .next (s.failed 1) := by
  refine setter_fails (f := .bufferTooSmall) hset hv ?_
  rw [setterRun, hcheck, Comp.ok_bind, need_fail hempty, Comp.error_bind]

/-- Past these two checks a setter follows its plan alone. -/
theorem setterRun_of_checked {i : Instr} {s : State} (b : Byte) (hcheck : operandCheck s.cfg i = .ok ())
    (h1 : 1 ≤ s.vlen.toNat) : setterRun s b i = setterPlan s b i := by
  rw [setterRun, hcheck, Comp.ok_bind, need_ok h1, Comp.ok_bind]

/-- A setter whose plan is byte 0 alone writes byte 0 alone. -/
theorem setter_writesByte0 {i : Instr} {s : State} {b0 : Byte} (hset : isSetter i = true) (hv : s.ViewInBuf)
    (hcheck : operandCheck s.cfg i = .ok ()) (h1 : 1 ≤ s.vlen.toNat)
    (hplan : setterPlan s (s.B 0) i = .ok ⟨b0, 1, []⟩) : ∃ t, exec i s = .next t ∧ s.WroteByte0 t b0 :=
  setter_writes hset hv ((setterRun_of_checked (s.B 0) hcheck h1).trans hplan)

/-! ## Getters -/

theorem answer_short {s : State} {k : Nat} {get : Unit → Comp Result} (h : s.vlen.toNat < k) :
    s.answer (s.need k >>= get) = .next (s.failed 1) := by
  rw [need_fail h, Comp.error_bind, answer_failure, raiseFailure_eq_failed]
  rfl

/-- A getter that begins with byte 0 of a view that has one. -/
theorem answer_byte0 {s : State} {get : Byte → Comp Result} (hv : s.ViewInBuf) (h1 : 1 ≤ s.vlen.toNat) :
    s.answer (s.need 1 >>= fun _ => s.viewByte 0 >>= get) = s.answer (get (s.B 0)) := by
  rw [need_ok h1, Comp.ok_bind, viewByte_ok hv h1, Comp.ok_bind]

end Sys2Proof.Machine
end

section
/-! PROOFS. The frame type family (41_frametype.md). -/

namespace Sys2Proof.Machine

/-! ## The kind and the flag bits of a type byte (30_encoding.md rules R81, R83) -/

theorem State.Ack.not_stream {s : State} (h : s.Ack) : ¬s.Stream := Bool.eq_false_iff.mp h.1

theorem flagMask_of_stream {s : State} (h : s.Stream) : flagMask (s.B 0) = some 0x7f :=
  if_pos (isStream_of_stream h)

theorem flagMask_of_ack {s : State} (h : s.Ack) : flagMask (s.B 0) = some 0x3f :=
  (if_neg h.not_stream).trans (if_pos (isAcknowledge_of_ack h))

theorem flagMask_of_other {s : State} (hs : ¬s.Stream) (h : ¬s.Ack) : flagMask (s.B 0) = none :=
  (if_neg hs).trans (if_neg (Bool.eq_false_iff.mp (isAcknowledge_of_other hs h)))

theorem kindCodeOf_of_stream {s : State} (h : s.Stream) : kindCodeOf (s.B 0) = 0x80 :=
  if_pos (isStream_of_stream h)

theorem kindCodeOf_of_ack {s : State} (h : s.Ack) : kindCodeOf (s.B 0) = 0x40 :=
  (if_neg h.not_stream).trans (if_pos (isAcknowledge_of_ack h))

theorem kindCodeOf_of_other {s : State} (hs : ¬s.Stream) (h : ¬s.Ack) : kindCodeOf (s.B 0) = s.B 0 :=
  (if_neg hs).trans (if_neg (Bool.eq_false_iff.mp (isAcknowledge_of_other hs h)))

/-- A mask of the `k` low bits keeps the remainder modulo `2 ^ k`. -/
theorem toNat_and_lowBits (b : Byte) {k : Nat} (hk : k ≤ 8) :
    (b &&& BitVec.ofNat 8 (2 ^ k - 1)).toNat = b.toNat % 2 ^ k := by
  have hpow : 2 ^ k ≤ 2 ^ 8 := Nat.pow_le_pow_right (by decide) hk
  rw [BitVec.toNat_and, BitVec.toNat_ofNat, Nat.mod_eq_of_lt (by omega), Nat.and_two_pow_sub_one_eq_mod]

theorem ofNat_and_lowBits (n : Nat) {k : Nat} (hk : k ≤ 8) :
    BitVec.ofNat 8 n &&& BitVec.ofNat 8 (2 ^ k - 1) = BitVec.ofNat 8 (n % 2 ^ k) := by
  apply BitVec.eq_of_toNat_eq
  rw [toNat_and_lowBits _ hk, BitVec.toNat_ofNat, BitVec.toNat_ofNat, Nat.mod_mod_of_dvd _ (Nat.pow_dvd_pow 2 hk)]
  exact (Nat.mod_eq_of_lt ((Nat.mod_lt _ (by positivity)).trans_le (Nat.pow_le_pow_right (by decide) hk))).symm

/-! ## FT.SETKIND and FT.KIND -/

/-- Settles O11: the operand check accepts the ten codes, and the plan is byte 0 alone. -/
theorem ftSetKindWritesKindCode : Obligations.FtSetKindWritesKindCode := by
  refine ⟨issues_of_row rfl, fun kind s hv => ?_⟩
  have hcode := kindOfCode_isSome_iff kind.toNat
  split
  · rename_i hnone
    exact setter_refused (f := .operandRange) rfl hv (require_fail (Bool.eq_false_iff.mpr (mt hcode.mp hnone)))
  · rename_i hkind
    have hcheck : requireKind kind = .ok () := require_ok (hcode.mpr (not_not.mp hkind))
    split
    · rename_i hempty
      exact setter_short rfl hv hcheck hempty
    · rename_i h1
      exact setter_writesByte0 rfl hv hcheck (not_lt.mp h1) rfl

theorem exec_ftKind {s : State} (hv : s.ViewInBuf) (h1 : 1 ≤ s.vlen.toNat) :
    exec .ftKind s = .next (s.answered (kindCodeOf (s.B 0)).toNat 1 true 0 1) :=
  answer_byte0 hv h1

/-- Settles O12, by the three kinds of a type byte. -/
theorem ftKindReadsKindCode : Obligations.FtKindReadsKindCode := by
  refine ⟨issues_of_row rfl, fun s hv => ?_⟩
  split
  · rename_i hempty
    exact answer_short hempty
  · rename_i h1
    rw [exec_ftKind hv (not_lt.mp h1)]
    split
    · rename_i hstream
      rw [kindCodeOf_of_stream hstream]
      rfl
    · rename_i hother
      split
      · rename_i hack
        rw [kindCodeOf_of_ack hack]
        rfl
      · rename_i hneither
        rw [kindCodeOf_of_other hother hneither]

/-! ## FT.SETFLAGS and FT.FLAGS -/

section
variable {s : State} {bits : Operand} {k : Nat}

theorem exec_ftSetFlags_of_mask (hv : s.ViewInBuf) (hbits : bits.toNat < 256) (h1 : 1 ≤ s.vlen.toNat)
    (hk : k ≤ 8) (hmask : flagMask (s.B 0) = some (BitVec.ofNat 8 (2 ^ k - 1))) :
    ∃ t, exec (.ftSetFlags bits) s = .next t ∧ s.WroteByte0 t (s.B 0 ||| BitVec.ofNat 8 (bits.toNat % 2 ^ k)) := by
  refine setter_writesByte0 rfl hv (require_ok (decide_eq_true hbits)) h1 ?_
  simp only [setterPlan, withFlags, hmask, ofNat_and_lowBits bits.toNat hk]

/-- A byte without a flags field is not written at all. -/
theorem exec_ftSetFlags_of_no_mask (hv : s.ViewInBuf) (hbits : bits.toNat < 256) (h1 : 1 ≤ s.vlen.toNat)
    (hmask : flagMask (s.B 0) = none) : exec (.ftSetFlags bits) s = .next s.succeeded := by
  rw [exec, execFtSetFlags, require_ok (decide_eq_true hbits), Comp.ok_bind, need_ok h1, Comp.ok_bind,
    viewByte_ok hv h1, Comp.ok_bind, hmask]
  rfl

theorem exec_ftFlags_of_mask (hv : s.ViewInBuf) (h1 : 1 ≤ s.vlen.toNat) (hk : k ≤ 8)
    (hmask : flagMask (s.B 0) = some (BitVec.ofNat 8 (2 ^ k - 1))) :
    exec .ftFlags s = .next (s.answered ((s.B 0).toNat % 2 ^ k) 1 true 0 1) := by
  rw [← toNat_and_lowBits (s.B 0) hk, exec, execFtFlags, answer_byte0 hv h1, hmask]
  rfl

theorem exec_ftFlags_of_no_mask (hv : s.ViewInBuf) (h1 : 1 ≤ s.vlen.toNat) (hmask : flagMask (s.B 0) = none) :
    exec .ftFlags s = .next s.answeredAbsent := by
  rw [exec, execFtFlags, answer_byte0 hv h1, hmask]
  rfl

end

/-- Settles O13, by the three kinds of a type byte: the seven or six low bits of the operand, or none. -/
theorem ftSetFlagsOrsMaskedBits : Obligations.FtSetFlagsOrsMaskedBits := by
  refine ⟨issues_of_row rfl, fun bits s hv => ?_⟩
  split
  · rename_i hrange
    exact setter_refused (f := .operandRange) rfl hv (require_fail (decide_eq_false (not_lt.mpr hrange)))
  · rename_i hrange
    have hbits : bits.toNat < 256 := not_le.mp hrange
    split
    · rename_i hempty
      exact setter_short rfl hv (require_ok (decide_eq_true hbits)) hempty
    · rename_i hroom
      have h1 : 1 ≤ s.vlen.toNat := not_lt.mp hroom
      split
      · rename_i hstream
        exact exec_ftSetFlags_of_mask (k := 7) hv hbits h1 (by decide) (flagMask_of_stream hstream)
      · rename_i hother
        split
        · rename_i hack
          exact exec_ftSetFlags_of_mask (k := 6) hv hbits h1 (by decide) (flagMask_of_ack hack)
        · rename_i hneither
          exact exec_ftSetFlags_of_no_mask hv hbits h1 (flagMask_of_other hother hneither)

/-- Settles O14, by the three kinds of a type byte. -/
theorem ftFlagsReadsMaskedBits : Obligations.FtFlagsReadsMaskedBits := by
  refine ⟨issues_of_row rfl, fun s hv => ?_⟩
  split
  · rename_i hempty
    exact answer_short hempty
  · rename_i hroom
    have h1 : 1 ≤ s.vlen.toNat := not_lt.mp hroom
    split
    · rename_i hstream
      exact exec_ftFlags_of_mask (k := 7) hv h1 (by decide) (flagMask_of_stream hstream)
    · rename_i hother
      split
      · rename_i hack
        exact exec_ftFlags_of_mask (k := 6) hv h1 (by decide) (flagMask_of_ack hack)
      · rename_i hneither
        exact exec_ftFlags_of_no_mask hv h1 (flagMask_of_other hother hneither)

/-! ## FT.LEN -/

/-- Settles O15: FT.LEN asks for one byte of the view and reads none. -/
theorem ftLenIsOne : Obligations.FtLenIsOne := by
  refine ⟨issues_of_row rfl, fun s => ?_⟩
  split
  · rename_i hempty
    exact answer_short hempty
  · rename_i h1
    rw [exec, execFtLen, need_ok (not_lt.mp h1)]
    rfl

end Sys2Proof.Machine
end

section
/-! SUPPORT. The checks of a command, in the claims' words: an outcome that fails as a computation does fails at the first of
the computation's checks that does not hold (60_exceptions.md rule R213). -/

namespace Sys2Proof.Machine

/-- If the computation fails, the outcome is that failure of the state. -/
def FailsAs {α : Type} (o : Host.Outcome State Fault Refusal) (s : State) (c : Comp α) : Prop :=
  ∀ f : Failure, c = .error (.failure f) → o = .next (s.failed f.code.toNat)

theorem failsAs_answer (s : State) (c : Comp Result) : FailsAs (s.answer c) s c := by
  rintro f rfl
  rw [answer_failure, raiseFailure_eq_failed]

/-- A setter whose operands are accepted fails as the rest of its plan does. -/
theorem failsAs_setter {i : Instr} {s : State} (hset : isSetter i = true) (hv : s.ViewInBuf)
    (hcheck : operandCheck s.cfg i = .ok ()) :
    FailsAs (exec i s) s (s.need 1 >>= fun _ => setterPlan s (s.B 0) i) := fun f hf => by
  rw [← raiseFailure_eq_failed]
  refine setter_fails hset hv ?_
  rwa [setterRun, hcheck, Comp.ok_bind]

section
variable {α : Type} {o : Host.Outcome State Fault Refusal} {s : State} {P : Prop}

/-- A bounds check. -/
theorem FailsAs.need {k : Nat} {next : Unit → Comp α} (h : FailsAs o s (s.need k >>= next))
    (hrest : k ≤ s.vlen.toNat → FailsAs o s (next ()) → P) :
    if s.vlen.toNat < k then o = .next (s.failed 1) else P := by
  split
  · rename_i hshort
    exact h .bufferTooSmall (by rw [need_fail hshort, Comp.error_bind])
  · rename_i hroom
    rw [need_ok (not_lt.mp hroom), Comp.ok_bind] at h
    exact hrest (not_lt.mp hroom) h

/-- The checks that every stream frame command begins with (42_streamframe.md rule R150). -/
theorem FailsAs.stream {next : Unit → Comp α}
    (h : FailsAs o s (s.need 1 >>= fun _ => require (isStream (s.B 0)) .kindMismatch >>= next))
    (hrest : 1 ≤ s.vlen.toNat → s.Stream → FailsAs o s (next ()) → P) :
    if s.vlen.toNat < 1 then o = .next (s.failed 1) else if ¬s.Stream then o = .next (s.failed 4) else P := by
  refine h.need fun h1 hkind => ?_
  split
  · rename_i hother
    exact hkind .kindMismatch (by rw [isStream_of_other hother, require_false, Comp.error_bind])
  · rename_i hstream
    rw [isStream_of_stream (not_not.mp hstream), require_true, Comp.ok_bind] at hkind
    exact hrest h1 (not_not.mp hstream) hkind

/-- A width code that table R90 or R91 of 30_encoding.md gives no width. -/
theorem FailsAs.undefinedCode {β : Type} {c : Comp β} {next : β → Comp α} (h : FailsAs o s (c >>= next))
    (hc : c = .error (.failure .unrecognizedFlagCombination)) : o = .next (s.failed 3) :=
  h .unrecognizedFlagCombination (by rw [hc, Comp.error_bind])

theorem FailsAs.ok {β : Type} {c : Comp β} {b : β} {next : β → Comp α} (h : FailsAs o s (c >>= next)) (hc : c = .ok b) :
    FailsAs o s (next b) := by
  rwa [hc, Comp.ok_bind] at h

/-- The offset of the data field, which decodes both widths, StreamIDLen first (30_encoding.md rule R86). -/
theorem FailsAs.dataField {next : Nat → Comp α} {Q : Nat → Nat → Prop}
    (h : FailsAs o s (dataFieldAt (streamFlags (s.B 0)) >>= next))
    (hrest : ∀ sw ow, s.sidW = some sw → s.offW = some ow → FailsAs o s (next (1 + sw + ow)) → Q sw ow) :
    match s.sidW, s.offW with
    | none, _ => o = .next (s.failed 3)
    | some _, none => o = .next (s.failed 3)
    | some sw, some ow => Q sw ow := by
  cases hsid : s.sidW with
  | none => exact h.undefinedCode (dataFieldAt_sid_none hsid)
  | some sw =>
    cases hoff : s.offW with
    | none => exact h.undefinedCode (dataFieldAt_off_none hsid hoff)
    | some ow => exact hrest sw ow hsid hoff (h.ok (dataFieldAt_ok hsid hoff))

end

/-- A getter of the stream frame family, its type byte read. -/
theorem failsAs_streamGetter {s : State} (hv : s.ViewInBuf) (get : Byte → Comp Result) :
    FailsAs (s.answer (s.streamByte >>= get)) s
      (s.need 1 >>= fun _ => require (isStream (s.B 0)) .kindMismatch >>= fun _ => get (s.B 0)) := by
  simpa only [streamByte_eq hv, bind_assoc, Comp.ok_bind] using failsAs_answer s (s.streamByte >>= get)

/-- The operand checks of a setter that takes a width (30_encoding.md rules R111, R116). -/
theorem widthSetter_checks {i : Instr} {s : State} {w : Nat} {a : Operand} {P : Prop} (ws : List Nat)
    (hset : isSetter i = true) (hv : s.ViewInBuf)
    (hi : operandCheck s.cfg i = requireWidth w ws >>= fun _ => requireFits a w)
    (hrest : w ∈ ws → a.toNat < 2 ^ (8 * w) → operandCheck s.cfg i = .ok () → P) :
    if w ∉ ws then exec i s = .next (s.failed 2)
    else if a.toNat ≥ 2 ^ (8 * w) then exec i s = .next (s.failed 6) else P := by
  split
  · rename_i hw
    exact setter_refused (f := .unsupportedWidth) hset hv (by rw [hi, requireWidth_fail hw, Comp.error_bind])
  · rename_i hw
    have hin : w ∈ ws := not_not.mp hw
    rw [requireWidth_ok hin, Comp.ok_bind] at hi
    split
    · rename_i hrange
      exact setter_refused (f := .operandRange) hset hv (hi.trans (requireFits_fail hrange))
    · rename_i hrange
      exact hrest hin (not_le.mp hrange) (hi.trans (requireFits_ok (not_le.mp hrange)))

/-- A setter whose plan is a field of `n` bytes, each named. -/
theorem setter_writesBytes {i : Instr} {s : State} {b0 : Byte} {off n : Nat} {bs : List Byte} {v : Nat → Byte}
    (hset : isSetter i = true) (hv : s.ViewInBuf) (hrun : setterRun s (s.B 0) i = .ok ⟨b0, off, bs⟩) (hlen : bs.length = n)
    (hbytes : ∀ j, j < n → bs.getD j 0 = v j) : ∃ t, exec i s = .next t ∧ s.Wrote t b0 off n v := by
  subst hlen
  obtain ⟨t, hnext, heq, hzero, hfield, houtside⟩ := setter_writes hset hv hrun
  exact ⟨t, hnext, heq, hzero, fun j hj => (hfield j hj).trans (hbytes j hj), houtside⟩

/-- A setter whose plan is a little-endian field. -/
theorem setter_writesField {i : Instr} {s : State} {b0 : Byte} {off n v : Nat} (hset : isSetter i = true)
    (hv : s.ViewInBuf) (hrun : setterRun s (s.B 0) i = .ok ⟨b0, off, leBytes n v⟩) :
    ∃ t, exec i s = .next t ∧ s.Wrote t b0 off n (byteOf v) :=
  setter_writesBytes hset hv hrun (leBytes_length n v) (leBytes_getD n v)

end Sys2Proof.Machine
end

section
/-! PROOFS. The stream frame family (42_streamframe.md), and that its getters read what its setters wrote
(95_test_vectors.md section 1.3). -/

namespace Sys2Proof.Machine

/-! ## The getters that succeed -/

section
variable {s : State} {o w : Nat}

theorem exec_sfSid_of_width (hv : s.ViewInBuf) (hk : s.Stream) (hw : sidWidth (streamFlags (s.B 0)) = .ok w)
    (hroom : 1 + w ≤ s.vlen.toNat) : exec .sfSid s = .next (s.answered (s.fieldValue 1 w) w true 1 w) := by
  simp only [exec, execSfSid, streamByte_ok hv (show 1 ≤ s.vlen.toNat by omega) hk, hw, need_ok hroom,
    memRead_ok hv hroom, Comp.ok_bind, Comp.pure_eq_ok, answer_ok, withResult_succeed, Result.field]

theorem exec_sfOff_of_absent (hv : s.ViewInBuf) (h1 : 1 ≤ s.vlen.toNat) (hk : s.Stream)
    (ho : offsetFieldAt (streamFlags (s.B 0)) = .ok o) (hw : offWidth (streamFlags (s.B 0)) = .ok 0) :
    exec .sfOff s = .next s.answeredAbsent := by
  simp only [exec, execSfOff, streamByte_ok hv h1 hk, ho, hw, if_true, Comp.ok_bind, Comp.pure_eq_ok, answer_ok,
    withResult_succeed, Result.absent, State.answeredAbsent]

theorem exec_sfOff_of_width (hv : s.ViewInBuf) (hk : s.Stream) (ho : offsetFieldAt (streamFlags (s.B 0)) = .ok o)
    (hw : offWidth (streamFlags (s.B 0)) = .ok w) (hne : w ≠ 0) (hroom : o + w ≤ s.vlen.toNat) :
    exec .sfOff s = .next (s.answered (s.fieldValue o w) w true o w) := by
  simp only [exec, execSfOff, streamByte_ok hv (show 1 ≤ s.vlen.toNat by omega) hk, ho, hw, if_neg hne, need_ok hroom,
    memRead_ok hv hroom, Comp.ok_bind, Comp.pure_eq_ok, answer_ok, withResult_succeed, Result.field]

theorem exec_sfData_of_no_data (hv : s.ViewInBuf) (h1 : 1 ≤ s.vlen.toNat) (hk : s.Stream)
    (hdata : hasData (streamFlags (s.B 0)) = false) : exec .sfData s = .next (s.answered 0 0 true 0 0) := by
  rw [exec, execSfData, streamByte_ok hv h1 hk, Comp.ok_bind, hdata]
  rfl

theorem exec_sfData_of_data (hv : s.ViewInBuf) (hk : s.Stream) (ho : dataFieldAt (streamFlags (s.B 0)) = .ok o)
    (hdata : hasData (streamFlags (s.B 0)) = true) (hroom : o + 2 + s.fieldValue o 2 ≤ s.vlen.toNat) :
    exec .sfData s = .next (s.answered (s.fieldValue o 2) 2 true (o + 2) (s.fieldValue o 2)) := by
  have hprefix : o + 2 ≤ s.vlen.toNat := by omega
  simp only [exec, execSfData, streamByte_ok hv (show 1 ≤ s.vlen.toNat by omega) hk, ho, hdata, if_true, need_ok hprefix,
    memRead_ok hv hprefix, need_ok hroom, Comp.ok_bind, Comp.pure_eq_ok, answer_ok, withResult_succeed]

theorem exec_sfLen_of_no_data (hv : s.ViewInBuf) (h1 : 1 ≤ s.vlen.toNat) (hk : s.Stream)
    (ho : dataFieldAt (streamFlags (s.B 0)) = .ok o) (hdata : hasData (streamFlags (s.B 0)) = false) :
    exec .sfLen s = .next (s.answered o 0 true 0 o) := by
  rw [exec, execSfLen, streamByte_ok hv h1 hk, Comp.ok_bind, ho, Comp.ok_bind, hdata]
  rfl

theorem hasData_of_dataLen (h : s.DataLen) : hasData (streamFlags (s.B 0)) = true := (streamFlags_hasData _).trans h

theorem hasData_of_not_dataLen (h : ¬s.DataLen) : hasData (streamFlags (s.B 0)) = false :=
  (streamFlags_hasData _).trans (Bool.eq_false_iff.mpr h)

end

/-! ## The stream id -/

theorem State.Wrote.fieldValue {s t : State} {b0 : Byte} {off n v : Nat} (h : s.Wrote t b0 off n (byteOf v))
    (hfits : v < 2 ^ (8 * n)) : t.fieldValue off n = v := by
  obtain ⟨-, -, hbytes, -⟩ := h
  exact fieldValue_of_bytes t off n v hfits hbytes


/-- Settles O16, check by check; what is written is the setter's plan. -/
theorem sfSetSidWritesStreamId : Obligations.SfSetSidWritesStreamId := by
  refine ⟨issues_of_row rfl, fun w sid s hv => ?_⟩
  refine widthSetter_checks [1, 2, 4] rfl hv rfl fun hw hfits hcheck => ?_
  refine (failsAs_setter rfl hv hcheck).stream fun _ hk hfails => ?_
  refine hfails.need fun hroom _ => ?_
  exact setter_writesField rfl hv (setterRun_sfSetSid hw hfits hk hroom)

/-- Settles O17, check by check. -/
theorem sfSidReadsStreamId : Obligations.SfSidReadsStreamId := by
  refine ⟨issues_of_row rfl, fun s hv => ?_⟩
  refine (failsAs_streamGetter hv _).stream fun _ hk hfails => ?_
  cases hsid : s.sidW with
  | none => exact hfails.undefinedCode (sidWidth_of_none hsid)
  | some w =>
    have hw := sidWidth_of_some hsid
    exact (hfails.ok hw).need fun hroom _ => exec_sfSid_of_width hv hk hw hroom

/-- Settles O52: the width bits of the byte SF.SETSID wrote are read back as the width, and its field as the id. -/
theorem streamIdRoundTrip : Obligations.StreamIdRoundTrip := by
  intro w sid s hv hw hfits hk hroom
  obtain ⟨t, hset, hwrote⟩ := setter_writesField rfl hv (setterRun_sfSetSid hw hfits hk hroom)
  obtain ⟨hvlen, -⟩ := hwrote.fields
  have hstream : t.Stream := (congrArg isStream hwrote.byte0).trans ((isStream_withSidWidth hw _).trans hk)
  have hwidth : sidWidth (streamFlags (t.B 0)) = .ok w := by rw [hwrote.byte0, sidWidth_withSidWidth hw]
  have hsid := exec_sfSid_of_width (hwrote.viewInBuf hv) hstream hwidth (by rwa [hvlen])
  rw [State.Wrote.fieldValue hwrote hfits] at hsid
  exact ⟨t, hset, hsid⟩

/-! ## The offset -/

/-- Settles O18, check by check; what is written is the setter's plan. -/
theorem sfAddOffWritesOffset : Obligations.SfAddOffWritesOffset := by
  refine ⟨issues_of_row rfl, fun w off s hv => ?_⟩
  refine widthSetter_checks [0, 2, 4, 8] rfl hv rfl fun hw hfits hcheck => ?_
  refine (failsAs_setter rfl hv hcheck).stream fun _ hk hfails => ?_
  cases hsid : s.sidW with
  | none => exact hfails.undefinedCode (offsetFieldAt_none hsid)
  | some sw =>
    have ho := offsetFieldAt_ok hsid
    refine (hfails.ok ho).need fun hroom _ => ?_
    exact setter_writesField rfl hv (setterRun_sfAddOff hw hfits hk ho (Nat.le_add_right 1 sw) hroom)

/-- Settles O19, check by check: StreamIDLen, then OffsetLen, then whether the field is present. -/
theorem sfOffReadsOffset : Obligations.SfOffReadsOffset := by
  refine ⟨issues_of_row rfl, fun s hv => ?_⟩
  refine (failsAs_streamGetter hv _).stream fun h1 hk hfails => ?_
  cases hsid : s.sidW with
  | none => exact hfails.undefinedCode (offsetFieldAt_none hsid)
  | some sw =>
    have ho := offsetFieldAt_ok hsid
    have hfails := hfails.ok ho
    cases hoff : s.offW with
    | none => exact hfails.undefinedCode (offWidth_of_none hoff)
    | some w =>
      have hw := offWidth_of_some hoff
      cases w with
      | zero => exact exec_sfOff_of_absent hv h1 hk ho hw
      | succ w => exact (hfails.ok hw).need fun hroom _ => exec_sfOff_of_width hv hk ho hw w.succ_ne_zero hroom

/-- Settles O53: SF.ADDOFF keeps the stream id width, so SF.OFF looks for the offset where it was written. -/
theorem offsetRoundTrip : Obligations.OffsetRoundTrip := by
  intro w sw off s hv hw hfits hk hsid hroom
  have ho := offsetFieldAt_ok hsid
  obtain ⟨t, hset, hwrote⟩ := setter_writesField rfl hv (setterRun_sfAddOff hw hfits hk ho (Nat.le_add_right 1 sw) hroom)
  obtain ⟨hvlen, -⟩ := hwrote.fields
  have hvt := hwrote.viewInBuf hv
  have hstream : t.Stream := (congrArg isStream hwrote.byte0).trans ((isStream_withOffWidth hw _).trans hk)
  have hat : offsetFieldAt (streamFlags (t.B 0)) = .ok (1 + sw) := by
    rw [hwrote.byte0, offsetFieldAt_withOffWidth hw, ho]
  have hwidth : offWidth (streamFlags (t.B 0)) = .ok w := by rw [hwrote.byte0, offWidth_withOffWidth hw]
  refine ⟨t, hset, ?_⟩
  split
  · rename_i habsent
    subst habsent
    exact exec_sfOff_of_absent hvt (by rw [hvlen]; omega) hstream hat hwidth
  · rename_i hpresent
    have hoff := exec_sfOff_of_width hvt hstream hat hwidth hpresent (by rwa [hvlen])
    rwa [State.Wrote.fieldValue hwrote hfits] at hoff

/-! ## The data -/

section
variable {s : State} {n : Operand} {o : Nat}

/-- SF.SETDATA of nothing writes nothing (42_streamframe.md rule R155). -/
theorem exec_sfSetData_of_zero (hv : s.ViewInBuf) (h1 : 1 ≤ s.vlen.toNat) (hk : s.Stream) (hzero : n.toNat = 0) :
    exec (.sfSetData n) s = .next s.succeeded := by
  rw [exec, execSfSetData, require_ok (decide_eq_true (by omega)), Comp.ok_bind, require_ok (decide_eq_true (by omega)),
    Comp.ok_bind, streamByte_ok hv h1 hk, Comp.ok_bind, if_pos hzero]
  rfl

/-- SF.SETDATA writes the two-byte length and the payload behind it as one field. -/
theorem exec_sfSetData_of_payload (hv : s.ViewInBuf) (hpos : 1 ≤ n.toNat) (hn : n.toNat ≤ 65535)
    (hpay : n.toNat ≤ s.cfg.payCap) (hk : s.Stream) (ho : dataFieldAt (streamFlags (s.B 0)) = .ok o)
    (hroom : o + 2 + n.toNat ≤ s.vlen.toNat) :
    ∃ t, exec (.sfSetData n) s = .next t ∧
      s.Wrote t (s.B 0 ||| 0x20) o (2 + n.toNat) fun j => if j < 2 then byteOf n.toNat j else s.payByte (j - 2) := by
  refine setter_writesBytes rfl hv (setterRun_sfSetData hpos hn hpay hk ho hroom) (by simp [payload_length])
    fun j hj => ?_
  split
  · rename_i hprefix
    rw [List.getD_append _ _ _ _ (by rwa [leBytes_length]), leBytes_getD _ _ _ hprefix]
  · rename_i hpayload
    rw [List.getD_append_right _ _ _ _ (by rw [leBytes_length]; omega), leBytes_length, payload_getD _ _ _ (by omega)]

end

/-- Settles O20, check by check; a payload of no byte is decided before any width is decoded. -/
theorem sfSetDataWritesPayload : Obligations.SfSetDataWritesPayload := by
  refine ⟨issues_of_row rfl, fun n s hv => ?_⟩
  have hoperand : operandCheck s.cfg (.sfSetData n) = require (decide (n.toNat ≤ 65535)) .operandRange >>= fun _ =>
    require (decide (n.toNat ≤ s.cfg.payCap)) .operandRange := rfl
  split
  · rename_i hrange
    refine setter_refused (f := .operandRange) rfl hv ?_
    by_cases hn : n.toNat ≤ 65535
    · rw [hoperand, require_ok (decide_eq_true hn), Comp.ok_bind, require_fail (decide_eq_false (by omega))]
    · rw [hoperand, require_fail (decide_eq_false hn), Comp.error_bind]
  · rename_i hrange
    obtain ⟨hn, hpay⟩ : n.toNat ≤ 65535 ∧ n.toNat ≤ s.cfg.payCap := by omega
    rw [require_ok (decide_eq_true hn), Comp.ok_bind, require_ok (decide_eq_true hpay)] at hoperand
    refine (failsAs_setter rfl hv hoperand).stream fun h1 hk hfails => ?_
    split
    · rename_i hzero
      exact exec_sfSetData_of_zero hv h1 hk hzero
    · rename_i hpos
      rw [if_neg hpos] at hfails
      refine hfails.dataField fun sw ow hsid hoff hfails => hfails.need fun hroom _ => ?_
      exact exec_sfSetData_of_payload hv (Nat.one_le_iff_ne_zero.mpr hpos) hn hpay hk (dataFieldAt_ok hsid hoff) hroom

/-- Settles O21, check by check; without DataLen no width is decoded. -/
theorem sfDataLocatesPayload : Obligations.SfDataLocatesPayload := by
  refine ⟨issues_of_row rfl, fun s hv => ?_⟩
  refine (failsAs_streamGetter hv _).stream fun h1 hk hfails => ?_
  split
  · rename_i hnone
    exact exec_sfData_of_no_data hv h1 hk (hasData_of_not_dataLen hnone)
  · rename_i hsome
    have hdata := hasData_of_dataLen (not_not.mp hsome)
    rw [if_pos hdata] at hfails
    refine hfails.dataField fun sw ow hsid hoff hfails => hfails.need fun hprefix hfails => ?_
    refine (hfails.ok (memRead_ok hv hprefix)).need fun hroom _ => ?_
    exact exec_sfData_of_data hv hk (dataFieldAt_ok hsid hoff) hdata hroom

/-- Settles O22, check by check; only the two bytes of the length have to fit the view. -/
theorem sfLenIsFrameLength : Obligations.SfLenIsFrameLength := by
  refine ⟨issues_of_row rfl, fun s hv => ?_⟩
  refine (failsAs_streamGetter hv _).stream fun h1 hk hfails => ?_
  refine hfails.dataField fun sw ow hsid hoff hfails => ?_
  have ho := dataFieldAt_ok hsid hoff
  split
  · rename_i hnone
    exact exec_sfLen_of_no_data hv h1 hk ho (hasData_of_not_dataLen hnone)
  · rename_i hsome
    have hdata := hasData_of_dataLen (not_not.mp hsome)
    rw [if_pos hdata] at hfails
    exact hfails.need fun hprefix _ => exec_sfLen_of_data hv hk ho hdata hprefix

/-- Settles O54: SF.SETDATA sets DataLen and keeps both widths, so SF.DATA finds the length where it was written. -/
theorem streamDataRoundTrip : Obligations.StreamDataRoundTrip := by
  intro n sw ow s hv hpos hn hpay hk hsid hoff hroom
  have ho := dataFieldAt_ok hsid hoff
  obtain ⟨t, hset, hwrote⟩ := exec_sfSetData_of_payload hv hpos hn hpay hk ho hroom
  have hbyte0 := hwrote.byte0
  have hvt := hwrote.viewInBuf hv
  obtain ⟨hvlen, -⟩ := hwrote.fields
  obtain ⟨-, -, hbytes, -⟩ := hwrote
  have hstream : t.Stream := (congrArg isStream hbyte0).trans ((isStream_withDataLen _).trans hk)
  have hat : dataFieldAt (streamFlags (t.B 0)) = .ok (1 + sw + ow) := by rw [hbyte0, dataFieldAt_withDataLen, ho]
  have hdata : hasData (streamFlags (t.B 0)) = true := by rw [hbyte0, hasData_withDataLen]
  have hprefix : t.fieldValue (1 + sw + ow) 2 = n.toNat :=
    fieldValue_of_bytes _ _ _ _ (by omega) fun j hj => (hbytes j (by omega)).trans (if_pos hj)
  have hfound := exec_sfData_of_data hvt hstream hat hdata (by rwa [hprefix, hvlen])
  rw [hprefix] at hfound
  refine ⟨t, hset, hfound, fun j hj => ?_⟩
  calc t.B (1 + sw + ow + 2 + j) = t.B (1 + sw + ow + (2 + j)) := by rw [Nat.add_assoc]
    _ = s.payByte (2 + j - 2) := (hbytes (2 + j) (by omega)).trans (if_neg (by omega))
    _ = s.payByte j := by rw [Nat.add_sub_cancel_left]

end Sys2Proof.Machine
end

section
/-! SUPPORT. The commands that begin with the public flags byte (43_packetheader.md rule R170), check by check. -/

namespace Sys2Proof.Machine

/-- A setter that takes one operand with a bound, its first check. -/
theorem boundedSetter_checks {i : Instr} {s : State} {a : Operand} {bound : Nat} {P : Prop} (hset : isSetter i = true)
    (hv : s.ViewInBuf) (hi : operandCheck s.cfg i = require (decide (a.toNat < bound)) .operandRange)
    (hrest : a.toNat < bound → operandCheck s.cfg i = .ok () → P) :
    if a.toNat ≥ bound then exec i s = .next (s.failed 6) else P := by
  split
  · rename_i hrange
    exact setter_refused (f := .operandRange) hset hv (hi.trans (require_fail (decide_eq_false (not_lt.mpr hrange))))
  · rename_i hrange
    have hlt : a.toNat < bound := not_le.mp hrange
    exact hrest hlt (hi.trans (require_ok (decide_eq_true hlt)))

/-- A bounds check before a larger one decides nothing, because both fail with BufferTooSmall. -/
theorem need_need {α : Type} {s : State} {j k : Nat} (h : j ≤ k) (next : Unit → Comp α) :
    (s.need j >>= fun _ => s.need k >>= next) = s.need k >>= next := by
  by_cases hj : j ≤ s.vlen.toNat
  · rw [need_ok hj, Comp.ok_bind]
  · have hk : s.vlen.toNat < k := (not_le.mp hj).trans_le h
    rw [need_fail (not_le.mp hj), need_fail hk, Comp.error_bind, Comp.error_bind]

/-- A getter of the packet header families, its flags byte read. -/
theorem failsAs_flagsGetter {s : State} (hv : s.ViewInBuf) (get : Byte → Comp Result) :
    FailsAs (s.answer (s.flagsByte >>= get)) s (s.need 1 >>= fun _ => get (s.B 0)) := by
  simpa only [flagsByte_eq hv, bind_assoc, Comp.ok_bind] using failsAs_answer s (s.flagsByte >>= get)

theorem answer_flagsByte {s : State} {get : Byte → Comp Result} (hv : s.ViewInBuf) (h1 : 1 ≤ s.vlen.toNat) :
    s.answer (s.flagsByte >>= get) = s.answer (get (s.B 0)) := by
  rw [flagsByte_ok hv h1, Comp.ok_bind]

end Sys2Proof.Machine
end

section
/-! PROOFS. The packet header family (43_packetheader.md), and that its getters read what its setters wrote
(95_test_vectors.md section 1.3). -/

namespace Sys2Proof.Machine

/-! ## The flags byte and the widths its setters write -/

theorem cidWidth_withCidWidth {w : Nat} (hw : w ∈ cidWidths) (m : CidMap) (b : Byte) :
    cidWidth m (withCidWidth m b w) = w := by
  revert w b
  cases m <;> decide

theorem hasVersion_withVersion (b : Byte) : hasVersion (b ||| versionFlag) = true := by
  revert b; decide

theorem pnWidth_withPnWidth {w : Nat} {special : Bool} (hw : w ∈ pnWidths special) (b : Byte) :
    pnWidth (withPnWidth b w) special = w := by
  revert w b
  cases special <;> decide

/-- Special mode has no code for the 1-byte packet number (43_packetheader.md rule R177). -/
theorem mem_pnWidths_iff (w : Nat) (special : Bool) :
    w ∈ pnWidths special ↔ w ∈ [1, 2, 4, 6] ∧ ¬(special = true ∧ w = 1) := by
  cases special with
  | false => simp [pnWidths]
  | true =>
    simp only [pnWidths, if_true, List.mem_cons, List.not_mem_nil, or_false, true_and]
    omega

theorem not_mem_pnWidths_iff (w : Nat) (special : Bool) :
    w ∉ pnWidths special ↔ w ∉ [1, 2, 4, 6] ∨ (special = true ∧ w = 1) := by
  rw [mem_pnWidths_iff, not_and_or, not_not]

/-! ## The plans of the setters -/

section
variable {s : State} {b : Byte}

theorem setterRun_phSetCid {w : Nat} {cid : Operand} (hw : w ∈ cidWidths) (hfits : cid.toNat < 2 ^ (8 * w))
    (hroom : 1 + w ≤ s.vlen.toNat) :
    setterRun s b (.phSetCid w cid) = .ok ⟨withCidWidth s.cfg.cidMap b w, 1, leBytes w cid.toNat⟩ := by
  simp only [setterRun, operandCheck, setterPlan, requireWidth_ok hw, requireFits_ok hfits, need_ok hroom,
    need_ok (show 1 ≤ s.vlen.toNat by omega), Comp.ok_bind, Comp.pure_eq_ok]

theorem setterRun_phSetVer {ver : Operand} (hver : ver.toNat < 2 ^ 32)
    (hroom : 1 + cidWidth s.cfg.cidMap b + 4 ≤ s.vlen.toNat) :
    setterRun s b (.phSetVer ver) =
      .ok ⟨b ||| versionFlag, 1 + cidWidth s.cfg.cidMap b, leBytes 4 ver.toNat⟩ := by
  simp only [setterRun, operandCheck, setterPlan, require_ok (decide_eq_true hver), need_ok hroom,
    need_ok (show 1 ≤ s.vlen.toNat by omega), Comp.ok_bind, Comp.pure_eq_ok]

theorem setterRun_phSetPn {w : Nat} {special : Bool} {pn : Operand} (hw : w ∈ pnWidths special)
    (hfits : pn.toNat < 2 ^ (8 * w)) (hroom : pnFieldAt s.cfg.cidMap b special + w ≤ s.vlen.toNat) :
    setterRun s b (.phSetPn w special pn) =
      .ok ⟨withPnWidth b w, pnFieldAt s.cfg.cidMap b special, leBytes w pn.toNat⟩ := by
  have h1 : 1 ≤ s.vlen.toNat := (Nat.le_add_right_of_le (one_le_pnFieldAt s.cfg.cidMap b special)).trans hroom
  simp only [setterRun, operandCheck, setterPlan, requireWidth_ok hw, requireFits_ok hfits, need_ok h1, need_ok hroom,
    Comp.ok_bind, Comp.pure_eq_ok]

end

/-! ## The getters that succeed -/

section
variable {s : State} {o w : Nat} {special : Bool}

theorem exec_phCid_of_absent (hv : s.ViewInBuf) (h1 : 1 ≤ s.vlen.toNat) (hw : s.cidW = 0) :
    exec .phCid s = .next s.answeredAbsent := by
  rw [exec, execPhCid, answer_flagsByte hv h1, cidWidth_eq, if_pos hw]
  rfl

theorem exec_phCid_of_width (hv : s.ViewInBuf) (hw : s.cidW = w) (hne : w ≠ 0) (hroom : 1 + w ≤ s.vlen.toNat) :
    exec .phCid s = .next (s.answered (s.fieldValue 1 w) w true 1 w) := by
  rw [exec, execPhCid, answer_flagsByte hv (by omega), cidWidth_eq, hw, if_neg hne, need_ok hroom, Comp.ok_bind,
    memRead_ok hv hroom]
  rfl

theorem exec_phVer_of_no_flag (hv : s.ViewInBuf) (h1 : 1 ≤ s.vlen.toNat) (hflag : hasVersion (s.B 0) = false) :
    exec .phVer s = .next s.answeredAbsent := by
  rw [exec, execPhVer, answer_flagsByte hv h1, hflag]
  rfl

theorem exec_phVer_of_flag (hv : s.ViewInBuf) (hflag : hasVersion (s.B 0) = true)
    (ho : 1 + cidWidth s.cfg.cidMap (s.B 0) = o) (hroom : o + 4 ≤ s.vlen.toNat) :
    exec .phVer s = .next (s.answered (s.fieldValue o 4) 4 true o 4) := by
  simp only [exec, execPhVer, answer_flagsByte hv (show 1 ≤ s.vlen.toNat by omega), if_pos hflag, ho, need_ok hroom,
    memRead_ok hv hroom, Comp.ok_bind, Comp.pure_eq_ok, answer_ok, withResult_succeed, Result.field]

theorem exec_phPn_of_absent (hv : s.ViewInBuf) (h1 : 1 ≤ s.vlen.toNat) (hw : pnWidth (s.B 0) special = 0) :
    exec (.phPn special) s = .next s.answeredAbsent := by
  rw [exec, execPhPn, answer_flagsByte hv h1, if_pos hw]
  rfl

theorem exec_phPn_of_width (hv : s.ViewInBuf) (hw : pnWidth (s.B 0) special = w) (hne : w ≠ 0)
    (ho : pnFieldAt s.cfg.cidMap (s.B 0) special = o) (hroom : o + w ≤ s.vlen.toNat) :
    exec (.phPn special) s = .next (s.answered (s.fieldValue o w) w true o w) := by
  simp only [exec, execPhPn, answer_flagsByte hv (show 1 ≤ s.vlen.toNat by omega), hw, if_neg hne, ho, need_ok hroom,
    pnRead_ok hv hroom, Comp.ok_bind, Comp.pure_eq_ok, answer_ok, withResult_succeed, Result.field]

theorem exec_vnVer_of_room {index : Operand} (hv : s.ViewInBuf) (hindex : index.toNat < 2 ^ 32)
    (ho : s.hdrL true + 4 * index.toNat = o) (hroom : o + 4 ≤ s.vlen.toNat) :
    exec (.vnVer index) s = .next (s.answered (s.fieldValue o 4) 4 true o 4) := by
  rw [exec, execVnVer, require_ok (decide_eq_true hindex), Comp.ok_bind, headerLength_ok hv (by omega), Comp.ok_bind, ho,
    need_ok hroom, Comp.ok_bind, memRead_ok hv hroom]
  rfl

end

/-! ## The flags byte -/

/-- Settles O23: the plan of PH.SETFLAGS is byte 0 alone. -/
theorem phSetFlagsOrsBits : Obligations.PhSetFlagsOrsBits := by
  refine ⟨issues_of_row rfl, fun bits s hv => ?_⟩
  refine boundedSetter_checks rfl hv rfl fun _ hcheck => ?_
  refine (failsAs_setter rfl hv hcheck).need fun h1 _ => ?_
  exact setter_writesByte0 rfl hv hcheck h1 rfl

/-- Settles O24: past the bounds check the flags byte is the answer. -/
theorem phFlagsReadsByte : Obligations.PhFlagsReadsByte := by
  refine ⟨issues_of_row rfl, fun s hv => ?_⟩
  exact (failsAs_flagsGetter hv _).need fun h1 _ => answer_flagsByte hv h1

/-! ## The connection id -/

/-- Settles O25, check by check; what is written is the setter's plan. -/
theorem phSetCidWritesConnectionId : Obligations.PhSetCidWritesConnectionId := by
  refine ⟨issues_of_row rfl, fun w cid s hv => ?_⟩
  refine widthSetter_checks [1, 4, 8] rfl hv rfl fun hw hfits hcheck => ?_
  have hfails := failsAs_setter rfl hv hcheck
  rw [setterPlan, need_need (Nat.le_add_right 1 w)] at hfails
  refine hfails.need fun hroom _ => ?_
  rw [← withCidWidth_eq _ hw]
  exact setter_writesField rfl hv (setterRun_phSetCid hw hfits hroom)

/-- Settles O26, check by check. -/
theorem phCidReadsConnectionId : Obligations.PhCidReadsConnectionId := by
  refine ⟨issues_of_row rfl, fun s hv => ?_⟩
  refine (failsAs_flagsGetter hv _).need fun h1 hfails => ?_
  split
  · rename_i habsent
    exact exec_phCid_of_absent hv h1 habsent
  · rename_i hpresent
    rw [cidWidth_eq, if_neg hpresent] at hfails
    exact hfails.need fun hroom _ => exec_phCid_of_width hv rfl hpresent hroom

/-- Settles O55: the width bits of the byte PH.SETCID wrote are read back as the width under either CID_CODE, and its field
as the id. -/
theorem connectionIdRoundTrip : Obligations.ConnectionIdRoundTrip := by
  intro w cid s hv hw hfits hroom
  obtain ⟨t, hset, hwrote⟩ := setter_writesField rfl hv (setterRun_phSetCid hw hfits hroom)
  obtain ⟨hvlen, -, hcfg, -⟩ := hwrote.fields
  have hwidth : t.cidW = w := by rw [← cidWidth_eq, hcfg, hwrote.byte0, cidWidth_withCidWidth hw]
  have hne : w ≠ 0 := by rintro rfl; exact absurd hw (by decide)
  have hcid := exec_phCid_of_width (hwrote.viewInBuf hv) hwidth hne (by rwa [hvlen])
  rw [State.Wrote.fieldValue hwrote hfits] at hcid
  exact ⟨t, hset, hcid⟩

/-! ## The version -/

/-- Settles O27, check by check; what is written is the setter's plan. -/
theorem phSetVerWritesVersion : Obligations.PhSetVerWritesVersion := by
  refine ⟨issues_of_row rfl, fun ver s hv => ?_⟩
  rw [← cidWidth_eq]
  refine boundedSetter_checks rfl hv rfl fun hver hcheck => ?_
  refine (failsAs_setter rfl hv hcheck).need fun _ hfails => hfails.need fun hroom _ => ?_
  exact setter_writesField rfl hv (setterRun_phSetVer hver hroom)

/-- Settles O28, check by check; without the Version flag no width is decoded. -/
theorem phVerReadsVersion : Obligations.PhVerReadsVersion := by
  refine ⟨issues_of_row rfl, fun s hv => ?_⟩
  rw [← cidWidth_eq]
  refine (failsAs_flagsGetter hv _).need fun h1 hfails => ?_
  split
  · rename_i hclear
    exact exec_phVer_of_no_flag hv h1 (Bool.eq_false_iff.mpr hclear)
  · rename_i hset
    have hflag : hasVersion (s.B 0) = true := not_not.mp hset
    rw [if_pos hflag] at hfails
    exact hfails.need fun hroom _ => exec_phVer_of_flag hv hflag rfl hroom

/-- PH.SETVER sets the flag PH.VER looks at and keeps the connection id width, so the version is found where it was
written. -/
theorem exec_phVer_of_phSetVer {s : State} {ver : Operand} (hv : s.ViewInBuf) (hver : ver.toNat < 2 ^ 32)
    (hroom : 1 + s.cidW + 4 ≤ s.vlen.toNat) :
    ∃ t, exec (.phSetVer ver) s = .next t ∧ exec .phVer t = .next (t.answered ver.toNat 4 true (1 + s.cidW) 4) := by
  rw [← cidWidth_eq] at hroom ⊢
  obtain ⟨t, hset, hwrote⟩ := setter_writesField rfl hv (setterRun_phSetVer hver hroom)
  obtain ⟨hvlen, -, hcfg, -⟩ := hwrote.fields
  have hflag : hasVersion (t.B 0) = true := by rw [hwrote.byte0, hasVersion_withVersion]
  have hat : 1 + cidWidth t.cfg.cidMap (t.B 0) = 1 + cidWidth s.cfg.cidMap (s.B 0) := by
    rw [hcfg, hwrote.byte0, cidWidth_withVersion]
  have hfound := exec_phVer_of_flag (hwrote.viewInBuf hv) hflag hat (by rwa [hvlen])
  rw [State.Wrote.fieldValue hwrote hver] at hfound
  exact ⟨t, hset, hfound⟩

/-- VN.SETVER keeps byte 0, so VN.VER computes the same header length and finds the entry where it was written. -/
theorem exec_vnVer_of_vnSetVer {s : State} {index ver : Operand} (hv : s.ViewInBuf) (hindex : index.toNat < 2 ^ 32)
    (hver : ver.toNat < 2 ^ 32) (hroom : s.hdrL true + 4 * index.toNat + 4 ≤ s.vlen.toNat) :
    ∃ t, exec (.vnSetVer index ver) s = .next t ∧
      exec (.vnVer index) t = .next (t.answered ver.toNat 4 true (s.hdrL true + 4 * index.toNat) 4) := by
  rw [← hdrLen_eq] at hroom ⊢
  obtain ⟨t, hset, hwrote⟩ := setter_writesField rfl hv (setterRun_vnSetVer hindex hver hroom)
  obtain ⟨hvlen, -, hcfg, -⟩ := hwrote.fields
  have hat : t.hdrL true + 4 * index.toNat = hdrLen s.cfg.cidMap (s.B 0) true + 4 * index.toNat := by
    rw [hdrL_congr hwrote.byte0 hcfg, hdrLen_eq]
  have hfound := exec_vnVer_of_room (hwrote.viewInBuf hv) hindex hat (by rwa [hvlen])
  rw [State.Wrote.fieldValue hwrote hver] at hfound
  exact ⟨t, hset, hfound⟩

/-- Settles O56, by the two pairs of commands. -/
theorem versionRoundTrip : Obligations.VersionRoundTrip :=
  fun _ _ _ hv hver hindex => ⟨exec_phVer_of_phSetVer hv hver, exec_vnVer_of_vnSetVer hv hindex hver⟩

/-! ## The packet number -/

/-- Settles O29, check by check; what is written is the setter's plan. -/
theorem phSetPnWritesPacketNumber : Obligations.PhSetPnWritesPacketNumber := by
  refine ⟨issues_of_row rfl, fun w special pn s hv => ?_⟩
  simp only [← not_mem_pnWidths_iff]
  rw [← pnFieldAt_eq]
  refine widthSetter_checks (pnWidths special) rfl hv rfl fun hw hfits hcheck => ?_
  refine (failsAs_setter rfl hv hcheck).need fun _ hfails => hfails.need fun hroom _ => ?_
  exact setter_writesField rfl hv (setterRun_phSetPn hw hfits hroom)

/-- Settles O30, check by check; a 6-byte number is read in two parts (20_memory.md rule R51). -/
theorem phPnReadsPacketNumber : Obligations.PhPnReadsPacketNumber := by
  refine ⟨issues_of_row rfl, fun special s hv => ?_⟩
  rw [← pnFieldAt_eq, ← pnWidth_eq]
  refine (failsAs_flagsGetter hv _).need fun h1 hfails => ?_
  split
  · rename_i habsent
    exact exec_phPn_of_absent hv h1 habsent
  · rename_i hpresent
    rw [if_neg hpresent] at hfails
    exact hfails.need fun hroom _ => exec_phPn_of_width hv rfl hpresent rfl hroom

/-- Settles O57: PH.SETPN keeps the widths of the fields before the packet number, so PH.PN finds it where it was written,
and reads the width back from the bits written. -/
theorem packetNumberRoundTrip : Obligations.PacketNumberRoundTrip := by
  intro w special pn s hv hw hmode hfits hroom
  have hin : w ∈ pnWidths special := (mem_pnWidths_iff w special).mpr ⟨hw, hmode⟩
  rw [← pnFieldAt_eq] at hroom ⊢
  obtain ⟨t, hset, hwrote⟩ := setter_writesField rfl hv (setterRun_phSetPn hin hfits hroom)
  obtain ⟨hvlen, -, hcfg, -⟩ := hwrote.fields
  have hwidth : pnWidth (t.B 0) special = w := by rw [hwrote.byte0, pnWidth_withPnWidth hin]
  have hat : pnFieldAt t.cfg.cidMap (t.B 0) special = pnFieldAt s.cfg.cidMap (s.B 0) special := by
    rw [hcfg, hwrote.byte0, pnFieldAt_withPnWidth hin]
  have hne : w ≠ 0 := by rintro rfl; exact absurd hw (by decide)
  have hfound := exec_phPn_of_width (hwrote.viewInBuf hv) hwidth hne hat (by rwa [hvlen])
  rw [State.Wrote.fieldValue hwrote hfits] at hfound
  exact ⟨t, hset, hfound⟩

/-! ## The header length -/

/-- Settles O31: of the view only the flags byte is asked for, and its three widths make the length. -/
theorem phLenIsHeaderLength : Obligations.PhLenIsHeaderLength := by
  refine ⟨issues_of_row rfl, fun special s hv => ?_⟩
  refine (failsAs_flagsGetter hv _).need fun h1 _ => ?_
  rw [exec, execPhLen, answer_flagsByte hv h1, hdrLen_eq]
  rfl

end Sys2Proof.Machine
end

section
/-! SUPPORT. The operand checks and the header length of the packet kind families (44_packet_kinds.md rule R190), check by
check. -/

namespace Sys2Proof.Machine

/-- A setter with two bounds on its operands, both of them OperandRange (60_exceptions.md rule R213). -/
theorem twoBoundSetter_checks {i : Instr} {s : State} {p q outside : Prop} [Decidable p] [Decidable q] [Decidable outside]
    {P : Prop} (hset : isSetter i = true) (hv : s.ViewInBuf)
    (hi : operandCheck s.cfg i = require (decide p) .operandRange >>= fun _ => require (decide q) .operandRange)
    (hout : outside ↔ ¬(p ∧ q)) (hrest : p → q → operandCheck s.cfg i = .ok () → P) :
    if outside then exec i s = .next (s.failed 6) else P := by
  by_cases hp : p
  · rw [require_ok (decide_eq_true hp), Comp.ok_bind] at hi
    by_cases hq : q
    · rw [if_neg fun h => hout.mp h ⟨hp, hq⟩]
      exact hrest hp hq (hi.trans (require_ok (decide_eq_true hq)))
    · rw [if_pos (hout.mpr fun h => hq h.2)]
      exact setter_refused (f := .operandRange) hset hv (hi.trans (require_fail (decide_eq_false hq)))
  · rw [if_pos (hout.mpr fun h => hp h.1)]
    refine setter_refused (f := .operandRange) hset hv ?_
    rw [hi, require_fail (decide_eq_false hp), Comp.error_bind]

/-- A getter's bound on its operand. -/
theorem FailsAs.operandBound {α : Type} {o : Host.Outcome State Fault Refusal} {s : State} {a : Operand} {bound : Nat}
    {P : Prop} {next : Unit → Comp α} (h : FailsAs o s (require (decide (a.toNat < bound)) .operandRange >>= next))
    (hrest : a.toNat < bound → FailsAs o s (next ()) → P) :
    if a.toNat ≥ bound then o = .next (s.failed 6) else P := by
  split
  · rename_i hrange
    exact h .operandRange (by rw [require_fail (decide_eq_false (not_lt.mpr hrange)), Comp.error_bind])
  · rename_i hrange
    have hlt : a.toNat < bound := not_le.mp hrange
    exact hrest hlt (h.ok (require_ok (decide_eq_true hlt)))

theorem headerLength_eq {s : State} (hv : s.ViewInBuf) (special : Bool) :
    s.headerLength special = s.need 1 >>= fun _ => (.ok (s.hdrL special) : Comp Nat) := by
  simp only [State.headerLength, flagsByte_eq hv, bind_assoc, Comp.ok_bind, Comp.pure_eq_ok, hdrLen_eq]

/-- Past the operands, a getter that computes the header length. -/
theorem failsAs_headerGetter {o : Host.Outcome State Fault Refusal} {s : State} {special : Bool} (hv : s.ViewInBuf)
    {get : Nat → Comp Result} (h : FailsAs o s (s.headerLength special >>= get)) :
    FailsAs o s (s.need 1 >>= fun _ => get (s.hdrL special)) := by
  simpa only [headerLength_eq hv, bind_assoc, Comp.ok_bind] using h

/-- A getter of the header length whose header fits the view. -/
theorem answer_headerLength {s : State} {special : Bool} {get : Nat → Comp Result} (hv : s.ViewInBuf)
    (h1 : 1 ≤ s.vlen.toNat) (hroom : s.hdrL special ≤ s.vlen.toNat) :
    s.answer (s.headerLength special >>= fun h => s.need h >>= fun _ => get h) = s.answer (get (s.hdrL special)) := by
  rw [headerLength_ok hv h1, Comp.ok_bind, need_ok hroom, Comp.ok_bind]

end Sys2Proof.Machine
end

section
/-! SUPPORT. Setters as exact states: those whose bytes are the first of the view write one list at its start. -/

namespace Sys2Proof.Machine

/-- `s` with the bytes `bs` at the start of its view. -/
def State.startingWith (s : State) (bs : List Byte) : State :=
  { s with buf := Memory.storeList s.buf s.vbase.toNat bs }

theorem writeByte_zero_eq {s : State} (hv : s.ViewInBuf) (h1 : 1 ≤ s.vlen.toNat) (b : Byte) :
    s.writeByte 0 b = .ok (s.startingWith [b]) :=
  writeBytes_ok hv (bs := [b]) (by simpa using h1)

/-- A field directly after byte 0 makes one list with it. -/
theorem writeField_one_eq {s : State} (hv : s.ViewInBuf) (b : Byte) {n : Nat} (v : Nat) (hroom : 1 + n ≤ s.vlen.toNat) :
    s.writeField b 1 n v = .ok (s.startingWith (b :: leBytes n v)) := by
  rw [State.writeField, writeByte_zero_eq hv (by omega), Comp.ok_bind]
  exact writeBytes_ok (s := s.startingWith [b]) hv (by rwa [leBytes_length])

theorem startingWith_B_zero (s : State) (b : Byte) (bs : List Byte) : (s.startingWith (b :: bs)).B 0 = b := by
  have hread := bufByte_storeList s s.vbase.toNat (b :: bs) s.vbase.toNat
  rwa [if_pos (by simp), Nat.sub_self] at hread

/-- A list's first byte written again is replaced, in a memory in canonical form (10_state.md rule R22). -/
theorem Memory.storeList_again {m : Memory} (hwf : Memory.wf m = true) (a : Nat) (b c : Byte) (bs : List Byte) :
    Memory.storeList (Memory.storeList m a (b :: bs)) a [c] = Memory.storeList m a (c :: bs) := by
  refine Memory.ext_of_wf (Memory.wf_storeList _ _ (Memory.wf_storeList _ _ hwf)) (Memory.wf_storeList _ _ hwf)
    fun x => ?_
  simp only [Memory.lookup_storeList, List.length_cons, List.length_nil]
  by_cases hx : x = a
  · subst hx
    simp
  · have hone : ¬(a ≤ x ∧ x < a + (0 + 1)) := by omega
    rw [if_neg hone]
    split
    · rw [show x - a = x - a - 1 + 1 by omega, List.getElem?_cons_succ, List.getElem?_cons_succ]
    · rfl

theorem startingWith_again {s : State} (hwf : Memory.wf s.buf = true) (b c : Byte) (bs : List Byte) :
    (s.startingWith (b :: bs)).startingWith [c] = s.startingWith (c :: bs) := by
  simp only [State.startingWith, Memory.storeList_again hwf]

/-- A success between two writes leaves no trace: CODE 0 again, FAULT kept (10_state.md rule R25). -/
theorem succeed_startingWith_succeed (s : State) (bs : List Byte) :
    (s.succeed.startingWith bs).succeed = (s.startingWith bs).succeed := by
  simp only [State.succeed, State.startingWith, statusOnSuccess_again]

/-- PH.SETFLAGS directly after a setter that wrote the view's first bytes. -/
theorem exec_phSetFlags_startingWith {s : State} {bits : Operand} {b : Byte} {bs : List Byte} (hv : s.ViewInBuf)
    (hwf : Memory.wf s.buf = true) (h1 : 1 ≤ s.vlen.toNat) (hbits : bits.toNat < 256) :
    exec (.phSetFlags bits) (s.startingWith (b :: bs)).succeed =
      .next (s.startingWith ((b ||| BitVec.ofNat 8 bits.toNat) :: bs)).succeed := by
  have hbyte : (s.startingWith (b :: bs)).succeed.flagsByte = .ok b :=
    (flagsByte_ok (s := (s.startingWith (b :: bs)).succeed) hv h1).trans (congrArg _ (startingWith_B_zero s b bs))
  rw [exec, execPhSetFlags, require_ok (decide_eq_true hbits), Comp.ok_bind, hbyte, Comp.ok_bind,
    writeByte_zero_eq (s := (s.startingWith (b :: bs)).succeed) hv h1, finish_ok, succeed_startingWith_succeed,
    startingWith_again hwf]

theorem exec_phSetCid_eight {s : State} (hv : s.ViewInBuf) (hroom : 9 ≤ s.vlen.toNat) (cid : Operand) :
    exec (.phSetCid 8 cid) s =
      .next (s.startingWith (withCidWidth s.cfg.cidMap (s.B 0) 8 :: leBytes 8 cid.toNat)).succeed := by
  rw [exec, execPhSetCid, requireWidth_ok (by decide), Comp.ok_bind, requireFits_ok cid.isLt, Comp.ok_bind,
    flagsByte_ok hv (by omega), Comp.ok_bind, need_ok hroom, Comp.ok_bind, writeField_one_eq hv _ _ hroom, finish_ok]

theorem writeKindHeader_ok {s : State} (hv : s.ViewInBuf) (hroom : 9 ≤ s.vlen.toNat) (flag : Byte) (cid : Operand) :
    s.writeKindHeader flag cid =
      .ok (s.startingWith ((withCidWidth s.cfg.cidMap (s.B 0) 8 ||| flag) :: leBytes 8 cid.toNat)) := by
  rw [State.writeKindHeader, flagsByte_ok hv (by omega), Comp.ok_bind, need_ok hroom, Comp.ok_bind,
    writeField_one_eq hv _ _ hroom]

end Sys2Proof.Machine
end

section
/-! PROOFS. The packet kind families: public reset, regular packet, version negotiation (44_packet_kinds.md). -/

namespace Sys2Proof.Machine

/-! ## The header setters -/

/-- Table R96 of 30_encoding.md: ConnectionIDLen 0b10 is the 8-byte id under either CID_CODE. -/
theorem withCidWidth_eight (m : CidMap) (p : Byte) : withCidWidth m p 8 = (p &&& 0xf3) ||| 0x08 := by
  rw [withCidWidth_eq p (by decide)]
  cases m <;> rfl

/-- A setter whose plan is the header of a packet kind: an 8-byte connection id and one flag. -/
theorem kindHeaderSetter_writes {i : Instr} {s : State} {flag : Byte} {cid : Operand} (hset : isSetter i = true)
    (hv : s.ViewInBuf) (hcheck : operandCheck s.cfg i = .ok ())
    (hplan : setterPlan s (s.B 0) i = s.need 9 >>= fun _ =>
      .ok ⟨withCidWidth s.cfg.cidMap (s.B 0) 8 ||| flag, 1, leBytes 8 cid.toNat⟩) :
    if s.vlen.toNat < 9 then exec i s = .next (s.failed 1)
    else ∃ t, exec i s = .next t ∧ s.Wrote t ((s.B 0 &&& 0xf3) ||| 0x08 ||| flag) 1 8 (byteOf cid.toNat) := by
  have hfails := failsAs_setter hset hv hcheck
  rw [hplan, need_need (by decide)] at hfails
  refine hfails.need fun hroom _ => ?_
  rw [← withCidWidth_eight s.cfg.cidMap]
  refine setter_writesField hset hv ?_
  rw [setterRun_of_checked _ hcheck (by omega), hplan, need_ok hroom, Comp.ok_bind]

/-- Settles O32: PR.SETCID is the kind header with the PublicReset flag. -/
theorem prSetCidWritesResetHeader : Obligations.PrSetCidWritesResetHeader :=
  ⟨issues_of_row rfl, fun _ _ hv => kindHeaderSetter_writes rfl hv rfl rfl⟩

/-- Settles O36: VN.SETCID is the kind header with the Version flag. -/
theorem vnSetCidWritesHeader : Obligations.VnSetCidWritesHeader :=
  ⟨issues_of_row rfl, fun _ _ hv => kindHeaderSetter_writes rfl hv rfl rfl⟩

/-- Settles O58: PH.SETCID.8 writes byte 0 and the id as one list, and PH.SETFLAGS replaces its first byte by the one with the
flag, which is the list the kind's setter writes. -/
theorem kindSettersAreTwoSteps : Obligations.KindSettersAreTwoSteps := by
  intro cid s hinv hroom
  obtain ⟨-, hwf, -, -, -, hv, -⟩ := hinv
  have h1 : 1 ≤ s.vlen.toNat := by omega
  exact ⟨_, _, _, exec_phSetCid_eight hv hroom cid, exec_phSetFlags_startingWith hv hwf h1 (by decide),
    exec_phSetFlags_startingWith hv hwf h1 (by decide), congrArg s.finish (writeKindHeader_ok hv hroom publicResetFlag cid),
    congrArg s.finish (writeKindHeader_ok hv hroom versionFlag cid)⟩

/-! ## The packet length -/

/-- Settles O33: the three words are rows of the opcode map, and each command's answer is VLEN with no check before it. -/
theorem packetLengthIsViewLength : Obligations.PacketLengthIsViewLength :=
  ⟨issues_of_row rfl, issues_of_row rfl, issues_of_row rfl, fun _ => ⟨rfl, rfl, rfl⟩⟩

/-! ## The payload of a regular packet -/

theorem setterRun_rpSetData {s : State} {b : Byte} {n : Operand} (hn : n.toNat < 2 ^ 32) (hpay : n.toNat ≤ s.cfg.payCap)
    (hroom : hdrLen s.cfg.cidMap b false + n.toNat ≤ s.vlen.toNat) :
    setterRun s b (.rpSetData n) = .ok ⟨b, hdrLen s.cfg.cidMap b false, s.payload n.toNat⟩ := by
  have h1 : 1 ≤ s.vlen.toNat := (Nat.le_add_right_of_le (one_le_hdrLen s.cfg.cidMap b false)).trans hroom
  simp only [setterRun, operandCheck, setterPlan, require_ok (decide_eq_true hn), require_ok (decide_eq_true hpay),
    need_ok h1, need_ok hroom, Comp.ok_bind, Comp.pure_eq_ok]

/-- Settles O34, check by check; the plan is the payload at the header's end, byte 0 as it was. -/
theorem rpSetDataWritesPayload : Obligations.RpSetDataWritesPayload := by
  refine ⟨issues_of_row rfl, fun n s hv => ?_⟩
  rw [← hdrLen_eq]
  refine twoBoundSetter_checks rfl hv rfl (by omega) fun hn hpay hcheck => ?_
  refine (failsAs_setter rfl hv hcheck).need fun _ hfails => hfails.need fun hroom _ => ?_
  exact setter_writesBytes rfl hv (setterRun_rpSetData hn hpay hroom) (payload_length s _) fun j hj => payload_getD s _ j hj

/-- Settles O35, check by check. -/
theorem rpDataLocatesPayload : Obligations.RpDataLocatesPayload := by
  refine ⟨issues_of_row rfl, fun s hv => ?_⟩
  refine (failsAs_headerGetter hv (failsAs_answer s _)).need fun h1 hfails => hfails.need fun hroom _ => ?_
  exact answer_headerLength hv h1 hroom

/-! ## The version list -/

/-- Settles O37, check by check; the plan is the entry, byte 0 as it was. -/
theorem vnSetVerWritesEntry : Obligations.VnSetVerWritesEntry := by
  refine ⟨issues_of_row rfl, fun index ver s hv => ?_⟩
  rw [← hdrLen_eq]
  refine twoBoundSetter_checks rfl hv rfl (by omega) fun hindex hver hcheck => ?_
  refine (failsAs_setter rfl hv hcheck).need fun _ hfails => hfails.need fun hroom _ => ?_
  exact setter_writesField rfl hv (setterRun_vnSetVer hindex hver hroom)

/-- Settles O38, check by check. -/
theorem vnVerReadsEntry : Obligations.VnVerReadsEntry := by
  refine ⟨issues_of_row rfl, fun index s hv => ?_⟩
  refine (failsAs_answer s _).operandBound fun hindex hfails => ?_
  refine (failsAs_headerGetter hv hfails).need fun _ hfails => hfails.need fun hroom _ => ?_
  exact exec_vnVer_of_room hv hindex rfl hroom

/-- Settles O39, check by check. -/
theorem vnCountIsEntryCount : Obligations.VnCountIsEntryCount := by
  refine ⟨issues_of_row rfl, fun s hv => ?_⟩
  refine (failsAs_headerGetter hv (failsAs_answer s _)).need fun h1 hfails => hfails.need fun hroom _ => ?_
  exact answer_headerLength hv h1 hroom

end Sys2Proof.Machine
end

section
/-! PROOFS. A failure leaves nothing but its STATUS (60_exceptions.md). -/

namespace Sys2Proof.Machine

/-- A command that succeeds ends with CODE 0 (10_state.md rule R25). -/
theorem State.succeed_statusCode (u : State) : u.succeed.status.toNat % 8 = 0 :=
  statusCode_onSuccess u.status

/-- CODE other than 0 tells that the command raised one of the six failures: of the effects of a command the three
successes end with CODE 0. -/
theorem Effect.raised_of_statusCode_ne_zero {i : Instr} {s t : State} (he : Effect i s t)
    (hcode : t.status.toNat % 8 ≠ 0) : ∃ f, t = s.raiseFailure f := by
  cases he with
  | failed f => exact ⟨f, rfl⟩
  | got _ r _ => exact absurd (s.withResult r).succeed_statusCode hcode
  | wrote _ u _ => exact absurd u.succeed_statusCode hcode
  | viewed base len _ _ _ _ => exact absurd (State.succeed_statusCode _) hcode

/-- Settles O41: the command raised a failure, which starts from the state before it and writes STATUS alone. -/
theorem failureChangesOnlyStatus : Obligations.FailureChangesOnlyStatus := by
  intro i s t hexec hcode
  obtain ⟨f, rfl⟩ := (exec_effect hexec).raised_of_statusCode_ne_zero hcode
  exact ⟨rfl, fault_onFailure f⟩

end Sys2Proof.Machine
end

section
/-! PROOFS. The machine goes on (70_reset_and_hazards.md): a command ends in a next state with a legal STATUS, and a step of
the host does where the address it names exists. -/

namespace Sys2Proof.Machine

/-! ## Commands -/

/-- With the view inside BUF a command ends in a next state. Two states with the same view both do, by
`readsStayInsideView`; here both are `s`. -/
theorem exec_goes (i : Instr) {s : State} (hv : s.ViewInBuf) : Goes (exec i s) := by
  obtain ⟨t, -, hnext, -⟩ := readsStayInsideView i s s.buf hv fun _ _ => rfl
  exact ⟨t, hnext⟩

/-- The six codes (60_exceptions.md rule R210). -/
theorem Failure.code_range (f : Failure) : 1 ≤ f.code.toNat ∧ f.code.toNat ≤ 6 := by
  cases f <;> decide

/-- STATUS after a failure, in the claims' words. -/
theorem statusOnFailure_eq (f : Failure) : statusOnFailure f = BitVec.ofNat 8 (0x80 + f.code.toNat) := by
  cases f <;> rfl

/-- What a command leaves in STATUS (10_state.md rule R25): a failure its code, each of the successes CODE 0. -/
theorem Effect.status {i : Instr} {s t : State} (he : Effect i s t) :
    t.status = statusOnSuccess s.status ∨ ∃ f, t.status = statusOnFailure f := by
  cases he with
  | failed f => exact .inr ⟨f, rfl⟩
  | got _ r _ => exact .inl rfl
  | wrote _ u hu => exact .inl (by rw [State.succeed_status, hu.status])
  | viewed base len _ _ _ _ => exact .inl rfl

/-- Settles O40: the command ends, and STATUS is what its effect leaves there. -/
theorem everyCommandCompletes : Obligations.EveryCommandCompletes := by
  intro i s hv
  obtain ⟨t, hnext⟩ := exec_goes i hv
  refine ⟨t, hnext, ?_⟩
  rcases (exec_effect hnext).status with hok | ⟨f, hfail⟩
  · exact .inl hok
  · obtain ⟨hlow, hhigh⟩ := f.code_range
    exact .inr ⟨f.code.toNat, hlow, hhigh, hfail.trans (statusOnFailure_eq f)⟩

/-! ## Actions of the host -/

/-- A word that selects no command ends in a failure, any other in its command's next state (30_encoding.md rule R113). -/
theorem issue_goes (c : Transaction) {s : State} (hv : s.ViewInBuf) : Goes (issue c s) := by
  cases hd : decode c with
  | ok i =>
    rw [issue_of_decode hd]
    exact exec_goes i hv
  | error r => exact ⟨_, issue_of_reject hd s⟩

/-- Of the host's actions only a command needs the view inside BUF, and only a write or a read of a byte needs its address
to exist. -/
theorem hostAct_goes {a : HostAction} {s : State} (hv : s.ViewInBuf) (hin : a.inRange s.cfg) : Goes (hostAct a s) := by
  cases a with
  | command c => exact issue_goes c hv
  | writeBuf addr b => exact ⟨_, hostWriteBuf_next b hin⟩
  | writePay addr b => exact ⟨_, hostWritePay_next b hin⟩
  | read what =>
    obtain ⟨v, hvalue⟩ := readByHost_of_inRange hin
    exact ⟨s, hostRead_of_value hvalue⟩
  | reset => exact ⟨_, rfl⟩

/-- Where the host has no action left, a step changes nothing (10_state.md rule R29; log entry 6). -/
theorem step_of_idle {s : State} (h : s.host = []) : step s = .next s := by
  unfold step
  rw [h]

/-- Settles O49, by the host's list: of the invariant it needs the view inside BUF alone. -/
theorem stepGoesOn : Obligations.StepGoesOn := by
  intro s hinv hin
  obtain ⟨-, -, -, -, -, hv, -, -⟩ := hinv
  cases hh : s.host with
  | nil => exact ⟨s, step_of_idle hh⟩
  | cons a rest =>
    rw [step_of_host hh]
    exact hostAct_goes hv (hin a rest hh)

end Sys2Proof.Machine
end
